-- ==== Sys2Proof/Word.lean ====
section
/-! DEFINITION. The words of the block: header, operand and byte (spec/30_encoding.md R80, spec/20_memory.md R50). -/

namespace Sys2Proof

/-- A 64-bit word: an operand word, a data word of a response, a table entry (R22, R23, R39). -/
abbrev Word := BitVec 64

/-- The 32-bit header word `CW` of a command (R22, R80). -/
abbrev Header := BitVec 32

/-- One byte of either address space (R50). -/
abbrev Byte := BitVec 8

end Sys2Proof
end

