-- ==== Sys2Proof/Syntax.lean ====
section
/-! DEFINITION. The nineteen commands as decoded terms, one constructor per row of the opcode map
(spec/30_encoding.md R92). A constructor holds the operands its command reads from `CW`, `OPA` and `OPB`
(R86-R90); ignored operand bits (R91) are not part of it. -/

namespace Sys2Proof

/-- The width code `sz` of a format-F command (R85). -/
inductive SizeCode where
  | w16
  | w32
  | w64
  /-- `sz = 3`: decodes as the command and is answered `ContractViolation` (R85, R94). -/
  | reserved
deriving DecidableEq, Repr

/-- The address width `aw` of `TT.BUILD` and `CB.AMODE`, and the latch `cb_aw` (R21, R83). -/
inductive AddrWidth where
  | w32
  | w64
deriving DecidableEq, Repr

/-- The `kind` operand of `S2C.CFG` (R83). -/
inductive StreamKind where
  | translate
  | bypass
  | fault
  /-- `kind = 3`: decodes as the command and is answered `ContractViolation` (R94). -/
  | reserved
deriving DecidableEq, Repr

/-- A decoded command. Indices and bit numbers are `Nat` (their header fields bound them, see `Instr.wf`);
what the block moves as bits is a bit vector. -/
inductive Instr where
  /-- `SBR.I` (R114): set a bit range of the image in `OPA`. -/
  | sbrI (sz : SizeCode) (hi lo : Nat) (image value : Word)
  /-- `SB.I` (R115): set one bit of the image in `OPA`. -/
  | sbI (sz : SizeCode) (bit : Nat) (image value : Word)
  /-- `SBR.M` (R116): set a bit range of the mapped register at `offset`. -/
  | sbrM (sz : SizeCode) (hi lo : Nat) (offset value : Word)
  /-- `SB.M` (R117): set one bit of the mapped register at `offset`. -/
  | sbM (sz : SizeCode) (bit : Nat) (offset value : Word)
  /-- `TT.BUILD` (R130): build a block descriptor. -/
  | ttBuild (aw : AddrWidth) (baseFlags outputAddress : Word)
  /-- `TT.WRITE` (R135): store a table entry. -/
  | ttWrite (idx : Nat) (table entry : Word)
  /-- `TT.ZERO` (R136): zero the four entries of a table. -/
  | ttZero (table : Word)
  /-- `CB.AMODE` (R153): select the address width of a bank. -/
  | cbAmode (idx : Nat) (aw : AddrWidth)
  /-- `CB.MATTR` (R154): write the attribute table of a bank. -/
  | cbMattr (idx : Nat) (attrTable : Word)
  /-- `CB.TCTRL` (R155, operands R86): write the translation control of a bank. -/
  | cbTctrl (idx : Nat) (t0sz : BitVec 6) (innerCache outerCache shareability granule : BitVec 2)
  /-- `CB.TBASE` (R156, operands R88): write the table base of a bank. -/
  | cbTbase (idx : Nat) (asid : BitVec 16) (tableBase : Word)
  /-- `CB.ENABLE` (R157): enable or disable a bank. -/
  | cbEnable (idx : Nat) (enabled faultReport faultInterrupt : Bool)
  /-- `SM.CFG` (R180, operands R87): write a stream-match entry. -/
  | smCfg (idx : Nat) (valid : Bool) (mask : BitVec 16) (tbuNumber : BitVec 5) (masterId : BitVec 10)
  /-- `SM.RESETALL` (R181): zero every stream-match entry. -/
  | smResetall
  /-- `S2C.CFG` (R182, operands R89): write a stream-to-context entry. -/
  | s2cCfg (idx : Nat) (kind : StreamKind) (contextBankIndex : BitVec 8)
  /-- `FR.SNAPG` (R195): read the global fault status and address. -/
  | frSnapg
  /-- `FR.SNAPC` (R196): read the fault registers of a bank. -/
  | frSnapc (idx : Nat)
  /-- `FR.CLEARALL` (R197): clear every fault register. -/
  | frClearall
  /-- `FR.TLBIALL` (R198): invalidate the translation cache. -/
  | frTlbiall
deriving DecidableEq, Repr

end Sys2Proof
end

