-- ==== Sys2Proof/WellFormed.lean ====
section
/-! DEFINITION. Which terms of `Instr` are commands: the fields that a header holds fit their bits (spec/30_encoding.md R82, R83). -/

namespace Sys2Proof

/-- A bit number fits its six header bits (R82). -/
def bitFits (b : Nat) : Bool := decide (b < 64)

/-- An index fits its ten header bits (R83). -/
def idxFits (idx : Nat) : Bool := decide (idx < 1024)

/-- Every header operand fits its field. The values a legal header may hold and the block answers with a failure
(`sz = 3`, `lo > hi`, an index out of its range) are well formed: they decode (R94). -/
def Instr.wf : Instr → Bool
  | .sbrI _ hi lo _ _ => bitFits hi && bitFits lo
  | .sbI _ bit _ _ => bitFits bit
  | .sbrM _ hi lo _ _ => bitFits hi && bitFits lo
  | .sbM _ bit _ _ => bitFits bit
  | .ttBuild _ _ _ => true
  | .ttWrite idx _ _ => idxFits idx
  | .ttZero _ => true
  | .cbAmode idx _ => idxFits idx
  | .cbMattr idx _ => idxFits idx
  | .cbTctrl idx _ _ _ _ _ => idxFits idx
  | .cbTbase idx _ _ => idxFits idx
  | .cbEnable idx _ _ _ => idxFits idx
  | .smCfg idx _ _ _ _ => idxFits idx
  | .smResetall => true
  | .s2cCfg idx _ _ => idxFits idx
  | .frSnapg => true
  | .frSnapc idx => idxFits idx
  | .frClearall => true
  | .frTlbiall => true

end Sys2Proof
end

