-- ==== Sys2Proof/Decode.lean ====
section
/-! DEFINITION. The command frame, the opcode map as data, the decoder and the encoder (spec/30_encoding.md R80-R97). -/

namespace Sys2Proof

/-- A command frame (R80): the header and the two operand words, 160 bits in every command. -/
structure Frame where
  cw : Header
  opa : Word
  opb : Word
deriving DecidableEq, Repr

/-- The nineteen commands without their operands: the rows of the opcode map. -/
inductive Op where
  | sbrI | sbI | sbrM | sbM
  | ttBuild | ttWrite | ttZero
  | cbAmode | cbMattr | cbTctrl | cbTbase | cbEnable
  | smCfg | smResetall | s2cCfg
  | frSnapg | frSnapc | frClearall | frTlbiall
deriving DecidableEq, Repr

/-- A row of the opcode map (R92): a header `h` selects it when `h AND mask = match`. -/
structure OpRow where
  op : Op
  pattern : Header
  mask : Header
deriving DecidableEq, Repr

/-- A header selects a row (R92). -/
def OpRow.selects (r : OpRow) (cw : Header) : Bool := cw &&& r.mask == r.pattern

/-- The accessor's and the builder's rows of R92. -/
def opRowsAccessorBuilder : List OpRow :=
  [⟨.sbrI, 0x10000000#32, 0xFF0003FF#32⟩,
   ⟨.sbI, 0x11000000#32, 0xFF3F03FF#32⟩,
   ⟨.sbrM, 0x12000000#32, 0xFF0003FF#32⟩,
   ⟨.sbM, 0x13000000#32, 0xFF3F03FF#32⟩,
   ⟨.ttBuild, 0x20000000#32, 0xFFFEFFFF#32⟩,
   ⟨.ttWrite, 0x21000000#32, 0xFFFFFC00#32⟩,
   ⟨.ttZero, 0x22000000#32, 0xFFFFFFFF#32⟩]

/-- The sequencer's rows of R92. -/
def opRowsSequencer : List OpRow :=
  [⟨.cbAmode, 0x30000000#32, 0xFFFEFC00#32⟩,
   ⟨.cbMattr, 0x31000000#32, 0xFFFFFC00#32⟩,
   ⟨.cbTctrl, 0x32000000#32, 0xFFFFFC00#32⟩,
   ⟨.cbTbase, 0x33000000#32, 0xFFFFFC00#32⟩,
   ⟨.cbEnable, 0x34000000#32, 0xFFF8FC00#32⟩]

/-- The attached units' rows of R92. -/
def opRowsAttached : List OpRow :=
  [⟨.smCfg, 0x40000000#32, 0xFFFFFC00#32⟩,
   ⟨.smResetall, 0x41000000#32, 0xFFFFFFFF#32⟩,
   ⟨.s2cCfg, 0x48000000#32, 0xFFFCFC00#32⟩,
   ⟨.frSnapg, 0x50000000#32, 0xFFFFFFFF#32⟩,
   ⟨.frSnapc, 0x51000000#32, 0xFFFFFC00#32⟩,
   ⟨.frClearall, 0x52000000#32, 0xFFFFFFFF#32⟩,
   ⟨.frTlbiall, 0x53000000#32, 0xFFFFFFFF#32⟩]

/-- The opcode map (R92). -/
def opRows : List OpRow := opRowsAccessorBuilder ++ opRowsSequencer ++ opRowsAttached

/-- The row a header selects; the rows are pairwise exclusive, so it is the only one (R92, R97 step 1). -/
def opOf (cw : Header) : Option Op := (opRows.find? fun r => r.selects cw).map (·.op)

/-- Why a header is no command (R93). Both are answered `IllegalCommand`. -/
inductive DecodeError where
  /-- `CW[31:24]` is none of the nineteen opcodes. -/
  | unlistedOpcode (op : BitVec 8)
  /-- A listed opcode with a must-be-zero header bit set. -/
  | mustBeZero (op : BitVec 8)
deriving DecidableEq, Repr

/-- `CW[31:24]` (R81). -/
def opcodeOf (cw : Header) : BitVec 8 := cw.extractLsb' 24 8

/-- The nineteen opcodes of R92. -/
def listedOpcodes : List (BitVec 8) := opRows.map fun r => opcodeOf r.pattern

/-- The width code of `CW[23:22]` (R82, R85). -/
def sizeOfCode (c : BitVec 2) : SizeCode :=
  if c = 0#2 then .w16 else if c = 1#2 then .w32 else if c = 2#2 then .w64 else .reserved

/-- The header code of a width (R85). -/
def SizeCode.code : SizeCode → BitVec 2
  | .w16 => 0#2
  | .w32 => 1#2
  | .w64 => 2#2
  | .reserved => 3#2

/-- The address width of a flag bit (R83): 0 is W32, 1 is W64. -/
def addrWidthOfBit (b : Bool) : AddrWidth := if b then .w64 else .w32

/-- The flag bit of an address width (R83). -/
def AddrWidth.bit : AddrWidth → Bool
  | .w32 => false
  | .w64 => true

/-- The kind of `fl[1:0]` (R83). -/
def kindOfCode (c : BitVec 2) : StreamKind :=
  if c = 0#2 then .translate else if c = 1#2 then .bypass else if c = 2#2 then .fault else .reserved

/-- The header code of a kind (R83); it is not the code written to the register (R183). -/
def StreamKind.code : StreamKind → BitVec 2
  | .translate => 0#2
  | .bypass => 1#2
  | .fault => 2#2
  | .reserved => 3#2

/-- `CW[23:22]` of format F (R82). -/
def Frame.sz (f : Frame) : SizeCode := sizeOfCode (f.cw.extractLsb' 22 2)

/-- `CW[21:16]` of format F (R82). -/
def Frame.hi (f : Frame) : Nat := (f.cw.extractLsb' 16 6).toNat

/-- `CW[15:10]` of format F (R82). -/
def Frame.lo (f : Frame) : Nat := (f.cw.extractLsb' 10 6).toNat

/-- `CW[9:0]` of format X (R83). -/
def Frame.idx (f : Frame) : Nat := (f.cw.extractLsb' 0 10).toNat

/-- Flag bit `fl[k] = CW[16+k]` of format X (R83). -/
def Frame.fl (f : Frame) (k : Nat) : Bool := f.cw.getLsbD (16 + k)

/-- The fields of a command whose row is known (R97 step 2; operand words R86-R90). -/
def fieldsOf (op : Op) (f : Frame) : Instr :=
  match op with
  | .sbrI => .sbrI f.sz f.hi f.lo f.opa f.opb
  | .sbI => .sbI f.sz f.lo f.opa f.opb
  | .sbrM => .sbrM f.sz f.hi f.lo f.opa f.opb
  | .sbM => .sbM f.sz f.lo f.opa f.opb
  | .ttBuild => .ttBuild (addrWidthOfBit (f.fl 0)) f.opa f.opb
  | .ttWrite => .ttWrite f.idx f.opa f.opb
  | .ttZero => .ttZero f.opa
  | .cbAmode => .cbAmode f.idx (addrWidthOfBit (f.fl 0))
  | .cbMattr => .cbMattr f.idx f.opa
  | .cbTctrl =>
      .cbTctrl f.idx (f.opa.extractLsb' 0 6) (f.opa.extractLsb' 6 2) (f.opa.extractLsb' 8 2)
        (f.opa.extractLsb' 10 2) (f.opa.extractLsb' 12 2)
  | .cbTbase => .cbTbase f.idx (f.opb.extractLsb' 0 16) f.opa
  | .cbEnable => .cbEnable f.idx (f.fl 0) (f.fl 1) (f.fl 2)
  | .smCfg =>
      .smCfg f.idx (f.opa.getLsbD 32) (f.opa.extractLsb' 16 16) (f.opa.extractLsb' 10 5)
        (f.opa.extractLsb' 0 10)
  | .smResetall => .smResetall
  | .s2cCfg => .s2cCfg f.idx (kindOfCode (f.cw.extractLsb' 16 2)) (f.opa.extractLsb' 0 8)
  | .frSnapg => .frSnapg
  | .frSnapc => .frSnapc f.idx
  | .frClearall => .frClearall
  | .frTlbiall => .frTlbiall

/-- The decoder (R97 steps 1 and 2): total on every frame, and a frame that is no command is rejected by name. -/
def decode (f : Frame) : Except DecodeError Instr :=
  match opOf f.cw with
  | some op => .ok (fieldsOf op f)
  | none =>
      if opcodeOf f.cw ∈ listedOpcodes then .error (.mustBeZero (opcodeOf f.cw))
      else .error (.unlistedOpcode (opcodeOf f.cw))

/-- A format-F header (R82). -/
def headerF (op : BitVec 8) (sz : SizeCode) (hi lo : Nat) : Header :=
  op ++ (sz.code ++ (BitVec.ofNat 6 hi ++ (BitVec.ofNat 6 lo ++ 0#10)))

/-- A format-X header (R83); `fl` are the four flag bits. -/
def headerX (op : BitVec 8) (fl : BitVec 4) (idx : Nat) : Header :=
  op ++ (0#4 ++ (fl ++ (0#6 ++ BitVec.ofNat 10 idx)))

/-- A format-Z header (R84). -/
def headerZ (op : BitVec 8) : Header := op ++ 0#24

/-- One flag bit as a number. -/
def flagBit (b : Bool) : BitVec 1 := BitVec.ofBool b

/-- The encoder: the frame of a command, ignored operand bits zero (R82-R92). -/
def encode : Instr → Frame
  | .sbrI sz hi lo image value => ⟨headerF 0x10#8 sz hi lo, image, value⟩
  | .sbI sz bit image value => ⟨headerF 0x11#8 sz 0 bit, image, value⟩
  | .sbrM sz hi lo offset value => ⟨headerF 0x12#8 sz hi lo, offset, value⟩
  | .sbM sz bit offset value => ⟨headerF 0x13#8 sz 0 bit, offset, value⟩
  | .ttBuild aw flags oa => ⟨headerX 0x20#8 (0#3 ++ flagBit aw.bit) 0, flags, oa⟩
  | .ttWrite idx table entry => ⟨headerX 0x21#8 0#4 idx, table, entry⟩
  | .ttZero table => ⟨headerZ 0x22#8, table, 0#64⟩
  | .cbAmode idx aw => ⟨headerX 0x30#8 (0#3 ++ flagBit aw.bit) idx, 0#64, 0#64⟩
  | .cbMattr idx attrs => ⟨headerX 0x31#8 0#4 idx, attrs, 0#64⟩
  | .cbTctrl idx t0sz inner outer sh granule =>
      ⟨headerX 0x32#8 0#4 idx, 0#50 ++ (granule ++ (sh ++ (outer ++ (inner ++ t0sz)))), 0#64⟩
  | .cbTbase idx asid base => ⟨headerX 0x33#8 0#4 idx, base, 0#48 ++ asid⟩
  | .cbEnable idx en fr fi =>
      ⟨headerX 0x34#8 (0#1 ++ (flagBit fi ++ (flagBit fr ++ flagBit en))) idx, 0#64, 0#64⟩
  | .smCfg idx valid mask tbu master =>
      ⟨headerX 0x40#8 0#4 idx, 0#31 ++ (flagBit valid ++ (mask ++ (0#1 ++ (tbu ++ master)))), 0#64⟩
  | .smResetall => ⟨headerZ 0x41#8, 0#64, 0#64⟩
  | .s2cCfg idx kind cbndx => ⟨headerX 0x48#8 (0#2 ++ kind.code) idx, 0#56 ++ cbndx, 0#64⟩
  | .frSnapg => ⟨headerZ 0x50#8, 0#64, 0#64⟩
  | .frSnapc idx => ⟨headerX 0x51#8 0#4 idx, 0#64, 0#64⟩
  | .frClearall => ⟨headerZ 0x52#8, 0#64, 0#64⟩
  | .frTlbiall => ⟨headerZ 0x53#8, 0#64, 0#64⟩

/-- The row of a command. -/
def Instr.op : Instr → Op
  | .sbrI _ _ _ _ _ => .sbrI
  | .sbI _ _ _ _ => .sbI
  | .sbrM _ _ _ _ _ => .sbrM
  | .sbM _ _ _ _ => .sbM
  | .ttBuild _ _ _ => .ttBuild
  | .ttWrite _ _ _ => .ttWrite
  | .ttZero _ => .ttZero
  | .cbAmode _ _ => .cbAmode
  | .cbMattr _ _ => .cbMattr
  | .cbTctrl _ _ _ _ _ _ => .cbTctrl
  | .cbTbase _ _ _ => .cbTbase
  | .cbEnable _ _ _ _ => .cbEnable
  | .smCfg _ _ _ _ _ => .smCfg
  | .smResetall => .smResetall
  | .s2cCfg _ _ _ => .s2cCfg
  | .frSnapg => .frSnapg
  | .frSnapc _ => .frSnapc
  | .frClearall => .frClearall
  | .frTlbiall => .frTlbiall

/-- The frame whose bits are `w`, numbered from bit 0 of `CW`: `CW` is bits 31..0, `OPA` bits 95..32, `OPB` bits
159..96. The three words are port registers, loaded whole (R22), so no byte order enters. -/
def frameOfBits (nbits w : Nat) : Frame :=
  let v := w % 2 ^ nbits
  ⟨BitVec.ofNat 32 v, BitVec.ofNat 64 (v / 2 ^ 32), BitVec.ofNat 64 (v / 2 ^ 96)⟩

/-- What the decoder reads from a command whose bits are `w`, the bits above `nbits` zero. -/
def decodeTableWord (nbits w : Nat) : Option Instr :=
  match decode (frameOfBits nbits w) with
  | .ok i => some i
  | .error _ => none

end Sys2Proof
end

