-- ==== Sys2Proof/Config.lean ====
section
/-! DEFINITION. What an implementation fixes: the record `Params` of spec/10_state.md R40 and R41, and the free values. -/

namespace Sys2Proof

/-- Width of one of the two registers whose width the document leaves open (R41 `W_TTBR`, `W_CBFAR`). -/
inductive OpenWidth where
  | bits32
  | bits64
deriving DecidableEq, Repr

/-- The width in bits. -/
def OpenWidth.bits : OpenWidth → Nat
  | .bits32 => 32
  | .bits64 => 64

/-- R40, first part: where the register space and its global registers are (byte offsets from `IOMMU_BASE`). -/
structure RegMap where
  iommuBase : Nat
  offScr0 : Nat
  offScr1 : Nat
  offGfar : Nat
  offGfsr : Nat
  offGfsynr : Nat
  offTlbiS : Nat
  offTlbiNs : Nat
  offSmr0 : Nat
  offS2cr0 : Nat
  offCbar0 : Nat
  offCba2r0 : Nat
  offCb0 : Nat
  cbStride : Nat
  /-- A signed offset: the platform may place `TOP_ISR` below the base. -/
  offTopIsr : Int
deriving DecidableEq, Repr

/-- R40, second part: offsets of the per-context registers inside their bank (R54). -/
structure BankMap where
  cboCtrl : Nat
  cboTcr2 : Nat
  cboTtbr : Nat
  cboTcr : Nat
  cboAttr0 : Nat
  cboAttr1 : Nat
  cboFsr : Nat
  cboFar : Nat
  cboFsynr : Nat
deriving DecidableEq, Repr

/-- R41: field positions, codes and widths. -/
structure FieldMap where
  s2crTypeLo : Nat
  s2crCbndxLo : Nat
  s2crCodeTranslate : BitVec 2
  s2crCodeBypass : BitVec 2
  s2crCodeFault : BitVec 2
  cba2rVa64Bit : Nat
  tcrT0szLo : Nat
  t0szW : Nat
  tcrIrgn0Lo : Nat
  tcrOrgn0Lo : Nat
  tcrSh0Lo : Nat
  tcrTg0Lo : Nat
  wTtbr : OpenWidth
  ttbrAddrHi : Nat
  ttbrAsidLo : Nat
  asidWW32 : Nat
  asidWW64 : Nat
  ctrlMBit : Nat
  ctrlCfreBit : Nat
  ctrlCfieBit : Nat
  wCbfar : OpenWidth
  scr0BypassBit : Nat
deriving DecidableEq, Repr

/-- `Params` (R13, R40, R41, R14): every value the document leaves to the platform. A model takes it as an
argument; here it travels in `State.params`, which no step changes (assumption log 1). -/
structure Params where
  map : RegMap
  bank : BankMap
  field : FieldMap
  /-- The canonical block-descriptor template (R131). -/
  template : Word
  /-- Whether commands that select the 64-bit width are accepted (R14). -/
  w64Admitted : Bool
deriving DecidableEq, Repr

/-- FREE VALUES (assumption logs 5, 6, 7, 8): `freeWord n k` is the value number `k` of the `n`-th occasion on which the
environment gives values that the spec does not fix (U6, U7, U18, U19). It has no body: nothing can be proved of it.
`State.envTick` numbers the occasions; `k` is 0 for the port itself and `RegRef.drawNumber` for a register, so that two
registers never share a value. -/
opaque Config.freeWord : Nat → Nat → Word

end Sys2Proof
end

