-- ==== Sys2Proof/Machine/Operands.lean ====
section
/-! DEFINITION. Operand forms: widths, fields, and the bit-field accessor's two pure functions
(spec/40_bitfield_accessor.md R110-R113, spec/00_scope.md R15-R18). Every unit computes its register values with them (R120). -/

namespace Sys2Proof.Machine

/-- R85: the image width N a width code selects; `sz = 3` selects none. -/
def widthOf : SizeCode → Option Nat
  | .w16 => some 16
  | .w32 => some 32
  | .w64 => some 64
  | .reserved => none

/-- R15: `v[hi:lo]` as a number. -/
def fieldOf (v hi lo : Nat) : Nat := (v >>> lo) % 2 ^ (hi - lo + 1)

/-- R110: `setBitRange_N(img, hi, lo, val)`, computed over the naturals as the rule writes it. -/
def setBitRange {n : Nat} (img : BitVec n) (hi lo val : Nat) : BitVec n :=
  let w := hi - lo + 1
  let fmask := 2 ^ w - 1
  let field := val % 2 ^ w
  let keep := img &&& ~~~(BitVec.ofNat n (fmask <<< lo))
  keep ||| BitVec.ofNat n (field <<< lo)

/-- R111: `setBit_N(img, b, val)` is the one-bit case. -/
def setBit {n : Nat} (img : BitVec n) (b val : Nat) : BitVec n := setBitRange img b b val

/-- R113, first half: the contract of a bit range in an image of `n` bits. -/
def rangeInContract (n hi lo : Nat) : Bool := decide (lo ≤ hi) && decide (hi < n)

/-- The low `n` bits of a word, zero-extended again: an image of `n` bits held in a 64-bit word (R90, R16 `trunc`, `zext`). -/
def low (n : Nat) (v : Word) : Word := (v.setWidth n).setWidth 64

/-- A field update of an `n`-bit image held in a word: `zext_64(setBitRange_N(img, hi, lo, val))` (R114). -/
def insertAt (n : Nat) (img : Word) (hi lo val : Nat) : Word := (setBitRange (img.setWidth n) hi lo val).setWidth 64

/-- R57: byte `k` of a word, byte 0 holding bits 7:0. -/
def byteOf (v : Word) (k : Nat) : Byte := v.extractLsb' (8 * k) 8

/-- R57: the word whose bytes, lowest address first, are the list. -/
def wordOfBytes : List Byte → Word
  | [] => 0#64
  | b :: bs => b.setWidth 64 ||| (wordOfBytes bs <<< 8)

/-- A word with byte `k` replaced (R57). -/
def putByte (v : Word) (k : Nat) (b : Byte) : Word := setBitRange v (8 * k + 7) (8 * k) b.toNat

/-- A Boolean operand as the number the accessor inserts. -/
def bitValue (b : Bool) : Nat := if b then 1 else 0

end Sys2Proof.Machine
end

