-- ==== Sys2Proof/Machine/Memory.lean ====
section
/-! DEFINITION. Table memory (spec/10_state.md R39, spec/20_memory.md R52, R55, R57): bytes at absolute addresses, in one
canonical form. A byte that nothing has written has NO value (R46; assumption log 9). -/

namespace Sys2Proof.Machine

/-- Table memory: (address, byte) pairs, addresses strictly rising. -/
abbrev Memory := List Host.Cell

/-- The canonical form: addresses strictly rising. An unlisted address has no value, so no entry can equal what it reads as. -/
abbrev Memory.wf (m : Memory) : Prop := List.Pairwise (fun c d : Host.Cell => c.1 < d.1) m

/-- What an unlisted address reads as: nothing (R46, U15, U17). -/
def Memory.unlisted : Option Byte := none

/-- Read one byte. -/
def Memory.read (m : Memory) (a : Nat) : Option Byte :=
  match m with
  | [] => Memory.unlisted
  | (k, b) :: rest => if k = a then some b else Memory.read rest a

/-- Write one byte, keeping the canonical form. -/
def Memory.write (m : Memory) (a : Nat) (b : Byte) : Memory :=
  match m with
  | [] => [(a, b)]
  | (k, c) :: rest =>
      if a < k then (a, b) :: (k, c) :: rest
      else if a = k then (a, b) :: rest
      else (k, c) :: Memory.write rest a b

/-- Write bytes at ascending addresses. -/
def Memory.writeBytes (m : Memory) (a : Nat) : List Byte → Memory
  | [] => m
  | b :: bs => Memory.writeBytes (m.write a b) (a + 1) bs

/-- The eight bytes of a word, lowest address first (R57). -/
def bytesOf (v : Word) : List Byte := (List.range 8).map (byteOf v)

/-- `MemWrite(addr, 8, v)` on the memory (R52, R57). -/
def Memory.write64 (m : Memory) (a : Nat) (v : Word) : Memory := m.writeBytes a (bytesOf v)

/-- Read bytes at ascending addresses; nothing if one of them was never written. -/
def Memory.readBytes (m : Memory) (a : Nat) : Nat → Option (List Byte)
  | 0 => some []
  | k + 1 =>
      match m.read a, Memory.readBytes m (a + 1) k with
      | some b, some bs => some (b :: bs)
      | _, _ => none

/-- `MemRead(addr, 8)`: the host's read-back and the SMMU's walk (R52); the block itself never reads table memory. -/
def Memory.read64 (m : Memory) (a : Nat) : Option Word := (m.readBytes a 8).map wordOfBytes

/-- R55: address of entry `k` of the table at `t`. -/
def entryAddr (t : Word) (k : Nat) : Nat := t.toNat + 8 * k

/-- R135, R136: a table address is a multiple of 8 and leaves room for 32 bytes below 2^64. -/
def tableAddrOk (t : Word) : Bool := decide (t.toNat % 8 = 0) && decide (t.toNat ≤ 2 ^ 64 - 32)

end Sys2Proof.Machine
end

