-- ==== Sys2Proof/Machine/Defaults.lean ====
section
/-! DEFINITION. The default column of spec/10_state.md R40 and R41. PRESUMED: the spec marks every one of these values
as general knowledge and OPEN; no statement rests on them but the tests and the reset state (assumption log 1). -/

namespace Sys2Proof.Machine

/-- R40, default column: global offsets. -/
def defaultRegMap : RegMap where
  iommuBase := 0xFD800000
  offScr0 := 0x0000
  offScr1 := 0x0004
  offGfar := 0x0040
  offGfsr := 0x0048
  offGfsynr := 0x0050
  offTlbiS := 0x0060
  offTlbiNs := 0x0068
  offSmr0 := 0x0800
  offS2cr0 := 0x0C00
  offCbar0 := 0x1000
  offCba2r0 := 0x1800
  offCb0 := 0x10000
  cbStride := 0x1000
  offTopIsr := 0xFD5F0010 - 0xFD800000

/-- R40, default column: in-bank offsets. -/
def defaultBankMap : BankMap where
  cboCtrl := 0x000
  cboTcr2 := 0x010
  cboTtbr := 0x020
  cboTcr := 0x030
  cboAttr0 := 0x038
  cboAttr1 := 0x03C
  cboFsr := 0x058
  cboFar := 0x060
  cboFsynr := 0x068

/-- R41, default column. -/
def defaultFieldMap : FieldMap where
  s2crTypeLo := 16
  s2crCbndxLo := 0
  s2crCodeTranslate := 0#2
  s2crCodeBypass := 1#2
  s2crCodeFault := 2#2
  cba2rVa64Bit := 0
  tcrT0szLo := 0
  t0szW := 6
  tcrIrgn0Lo := 8
  tcrOrgn0Lo := 10
  tcrSh0Lo := 12
  tcrTg0Lo := 14
  wTtbr := .bits64
  ttbrAddrHi := 47
  ttbrAsidLo := 48
  asidWW32 := 8
  asidWW64 := 16
  ctrlMBit := 0
  ctrlCfreBit := 5
  ctrlCfieBit := 6
  wCbfar := .bits64
  scr0BypassBit := 0

/-- The default `Params` (R40, R41, R14). -/
def defaultParams : Params where
  map := defaultRegMap
  bank := defaultBankMap
  field := defaultFieldMap
  template := 0x0000000000000641#64
  w64Admitted := false

end Sys2Proof.Machine
end

