-- ==== Sys2Proof/Machine/Registers.lean ====
section
/-! DEFINITION. The register space: the inventory of spec/10_state.md R30, its behaviour classes (R29), the register
file, and where each register is (R53, R54). Each register has one home in `RegFile`; all reads and writes go
through `RegFile.get` and `RegFile.set`. -/

namespace Sys2Proof.Machine

/-- A register of the inventory (R30), by name and index. -/
inductive RegRef where
  | scr0
  | scr1
  | smr (i : Fin 48)
  | s2cr (i : Fin 48)
  | cbar (i : Fin 16)
  | cba2r (i : Fin 16)
  | cbCtrl (i : Fin 16)
  | cbAttr0 (i : Fin 16)
  | cbAttr1 (i : Fin 16)
  | cbTcr (i : Fin 16)
  | cbTcr2 (i : Fin 16)
  | cbTtbr (i : Fin 16)
  | cbFsr (i : Fin 16)
  | cbFar (i : Fin 16)
  | cbFsynr (i : Fin 16)
  | gfsr
  | gfar
  | gfsynr
  | tlbiS
  | tlbiNs
  | topIsr
deriving DecidableEq, Repr

/-- The behaviour classes of R29. -/
inductive RegClass where
  /-- A read returns the last value written, by any agent; nothing else happens. -/
  | storage
  /-- Writing a 1 to a bit clears it, writing a 0 leaves it; the SMMU may set bits at any time. -/
  | w1c
  /-- A write of any value causes an action; the register holds nothing. -/
  | wtrig
  /-- The SMMU writes it, the host only reads it. No register of R30 has this class. -/
  | roVolatile
deriving DecidableEq, Repr

/-- The class column of R30 (R37 and R38 for the fault and invalidation registers). -/
def RegRef.regClass : RegRef → RegClass
  | .scr0 => .storage
  | .scr1 => .storage
  | .smr _ => .storage
  | .s2cr _ => .storage
  | .cbar _ => .storage
  | .cba2r _ => .storage
  | .cbCtrl _ => .storage
  | .cbAttr0 _ => .storage
  | .cbAttr1 _ => .storage
  | .cbTcr _ => .storage
  | .cbTcr2 _ => .storage
  | .cbTtbr _ => .storage
  | .cbFsr _ => .w1c
  | .cbFar _ => .w1c
  | .cbFsynr _ => .w1c
  | .gfsr => .w1c
  | .gfar => .w1c
  | .gfsynr => .w1c
  | .tlbiS => .wtrig
  | .tlbiNs => .wtrig
  | .topIsr => .w1c

/-- The registers of one context bank that are at a fixed stride (R30, R54). -/
structure BankRegs where
  ctrl : BitVec 32
  attr0 : BitVec 32
  attr1 : BitVec 32
  tcr : BitVec 32
  tcr2 : BitVec 32
  ttbr : BitVec 64
  fsr : BitVec 32
  far : BitVec 64
  fsynr : BitVec 32
deriving DecidableEq, Repr

/-- The contents of the register space (R30). `TLBI_S` and `TLBI_NS` hold nothing (R29). -/
structure RegFile where
  scr0 : BitVec 32
  scr1 : BitVec 32
  smr : Vector (BitVec 32) 48
  s2cr : Vector (BitVec 32) 48
  cbar : Vector (BitVec 32) 16
  cba2r : Vector (BitVec 32) 16
  banks : Vector BankRegs 16
  gfsr : BitVec 32
  gfar : BitVec 32
  gfsynr : BitVec 32
  topIsr : BitVec 32
deriving DecidableEq, Repr

/-- Element `i` of a register array. -/
def entryOf {α : Type} {n : Nat} (v : Vector α n) (i : Fin n) : α := v[i.val]'i.isLt

/-- A register array with element `i` replaced. -/
def withEntry {α : Type} {n : Nat} (v : Vector α n) (i : Fin n) (x : α) : Vector α n := v.set i.val x i.isLt

/-- The content of a register, zero-extended; a WTRIG register holds nothing. -/
def RegFile.get (f : RegFile) : RegRef → Word
  | .scr0 => f.scr0.setWidth 64
  | .scr1 => f.scr1.setWidth 64
  | .smr i => (entryOf f.smr i).setWidth 64
  | .s2cr i => (entryOf f.s2cr i).setWidth 64
  | .cbar i => (entryOf f.cbar i).setWidth 64
  | .cba2r i => (entryOf f.cba2r i).setWidth 64
  | .cbCtrl i => (entryOf f.banks i).ctrl.setWidth 64
  | .cbAttr0 i => (entryOf f.banks i).attr0.setWidth 64
  | .cbAttr1 i => (entryOf f.banks i).attr1.setWidth 64
  | .cbTcr i => (entryOf f.banks i).tcr.setWidth 64
  | .cbTcr2 i => (entryOf f.banks i).tcr2.setWidth 64
  | .cbTtbr i => (entryOf f.banks i).ttbr
  | .cbFsr i => (entryOf f.banks i).fsr.setWidth 64
  | .cbFar i => (entryOf f.banks i).far
  | .cbFsynr i => (entryOf f.banks i).fsynr.setWidth 64
  | .gfsr => f.gfsr.setWidth 64
  | .gfar => f.gfar.setWidth 64
  | .gfsynr => f.gfsynr.setWidth 64
  | .tlbiS => 0#64
  | .tlbiNs => 0#64
  | .topIsr => f.topIsr.setWidth 64

/-- The register file with bank `i` changed. -/
def RegFile.setBank (f : RegFile) (i : Fin 16) (b : BankRegs) : RegFile := { f with banks := withEntry f.banks i b }

/-- Replace the content of a register; a WTRIG register holds nothing. -/
def RegFile.set (f : RegFile) (r : RegRef) (v : Word) : RegFile :=
  match r with
  | .scr0 => { f with scr0 := v.setWidth 32 }
  | .scr1 => { f with scr1 := v.setWidth 32 }
  | .smr i => { f with smr := withEntry f.smr i (v.setWidth 32) }
  | .s2cr i => { f with s2cr := withEntry f.s2cr i (v.setWidth 32) }
  | .cbar i => { f with cbar := withEntry f.cbar i (v.setWidth 32) }
  | .cba2r i => { f with cba2r := withEntry f.cba2r i (v.setWidth 32) }
  | .cbCtrl i => f.setBank i { entryOf f.banks i with ctrl := v.setWidth 32 }
  | .cbAttr0 i => f.setBank i { entryOf f.banks i with attr0 := v.setWidth 32 }
  | .cbAttr1 i => f.setBank i { entryOf f.banks i with attr1 := v.setWidth 32 }
  | .cbTcr i => f.setBank i { entryOf f.banks i with tcr := v.setWidth 32 }
  | .cbTcr2 i => f.setBank i { entryOf f.banks i with tcr2 := v.setWidth 32 }
  | .cbTtbr i => f.setBank i { entryOf f.banks i with ttbr := v }
  | .cbFsr i => f.setBank i { entryOf f.banks i with fsr := v.setWidth 32 }
  | .cbFar i => f.setBank i { entryOf f.banks i with far := v }
  | .cbFsynr i => f.setBank i { entryOf f.banks i with fsynr := v.setWidth 32 }
  | .gfsr => { f with gfsr := v.setWidth 32 }
  | .gfar => { f with gfar := v.setWidth 32 }
  | .gfsynr => { f with gfsynr := v.setWidth 32 }
  | .tlbiS => f
  | .tlbiNs => f
  | .topIsr => { f with topIsr := v.setWidth 32 }

/-- The number under which a register draws its free values (log 5): no two registers that draw one share a number, and
0 is the port's own (log 7). STORAGE registers draw none. -/
def RegRef.drawNumber : RegRef → Nat
  | .gfsr => 1
  | .gfar => 2
  | .gfsynr => 3
  | .topIsr => 4
  | .tlbiS => 5
  | .tlbiNs => 6
  | .cbFsr i => 16 + i.val
  | .cbFar i => 32 + i.val
  | .cbFsynr i => 48 + i.val
  | _ => 7

/-- A register that says how a bank translates: its table base, and the registers of format, region, attributes and type
(R33, R36). After a write to one, translations cached before may be out of date: R249 says so of the table base; that the
others count too is the model's choice (log 11). -/
def RegRef.shapesTranslation : RegRef → Bool
  | .cbTtbr _ => true
  | .cbTcr _ => true
  | .cbTcr2 _ => true
  | .cbAttr0 _ => true
  | .cbAttr1 _ => true
  | .cba2r _ => true
  | .cbar _ => true
  | _ => false

/-- The register file with `g` applied to the content of every fault register (class W1C) and to no other. -/
def RegFile.mapFault (f : RegFile) (g : RegRef → Word → Word) : RegFile :=
  { f with
    gfsr := (g .gfsr (f.get .gfsr)).setWidth 32
    gfar := (g .gfar (f.get .gfar)).setWidth 32
    gfsynr := (g .gfsynr (f.get .gfsynr)).setWidth 32
    topIsr := (g .topIsr (f.get .topIsr)).setWidth 32
    banks := Vector.ofFn fun i =>
      { entryOf f.banks i with
        fsr := (g (.cbFsr i) (f.get (.cbFsr i))).setWidth 32
        far := g (.cbFar i) (f.get (.cbFar i))
        fsynr := (g (.cbFsynr i) (f.get (.cbFsynr i))).setWidth 32 } }

/-- The width column of R30, with `W_TTBR` and `W_CBFAR` (R41). -/
def regBits (p : Params) : RegRef → Nat
  | .cbTtbr _ => p.field.wTtbr.bits
  | .cbFar _ => p.field.wCbfar.bits
  | _ => 32

/-- The width of a register in bytes. -/
def regBytes (p : Params) (r : RegRef) : Nat := regBits p r / 8

/-- `STRIDE4` (R12): the per-entry stride of the four register arrays. -/
def stride4 : Nat := 4

/-- R54: absolute address of a register of bank `i` whose in-bank offset is `cbo`. -/
def bankAddr (p : Params) (i : Fin 16) (cbo : Nat) : Nat :=
  p.map.iommuBase + (p.map.offCb0 + p.map.cbStride * i.val + cbo)

/-- The absolute address of a register: `IOMMU_BASE` plus its offset, exact (R51, R53, R54, R40). -/
def regAddr (p : Params) : RegRef → Nat
  | .scr0 => p.map.iommuBase + p.map.offScr0
  | .scr1 => p.map.iommuBase + p.map.offScr1
  | .smr i => p.map.iommuBase + (p.map.offSmr0 + stride4 * i.val)
  | .s2cr i => p.map.iommuBase + (p.map.offS2cr0 + stride4 * i.val)
  | .cbar i => p.map.iommuBase + (p.map.offCbar0 + stride4 * i.val)
  | .cba2r i => p.map.iommuBase + (p.map.offCba2r0 + stride4 * i.val)
  | .cbCtrl i => bankAddr p i p.bank.cboCtrl
  | .cbAttr0 i => bankAddr p i p.bank.cboAttr0
  | .cbAttr1 i => bankAddr p i p.bank.cboAttr1
  | .cbTcr i => bankAddr p i p.bank.cboTcr
  | .cbTcr2 i => bankAddr p i p.bank.cboTcr2
  | .cbTtbr i => bankAddr p i p.bank.cboTtbr
  | .cbFsr i => bankAddr p i p.bank.cboFsr
  | .cbFar i => bankAddr p i p.bank.cboFar
  | .cbFsynr i => bankAddr p i p.bank.cboFsynr
  | .gfsr => p.map.iommuBase + p.map.offGfsr
  | .gfar => p.map.iommuBase + p.map.offGfar
  | .gfsynr => p.map.iommuBase + p.map.offGfsynr
  | .tlbiS => p.map.iommuBase + p.map.offTlbiS
  | .tlbiNs => p.map.iommuBase + p.map.offTlbiNs
  | .topIsr => (Int.ofNat p.map.iommuBase + p.map.offTopIsr).toNat

/-- All indices below `n`, ascending. -/
def indices (n : Nat) : List (Fin n) := List.finRange n

/-- The fault registers of bank `i`, in the order `FR.CLEARALL` writes them (R197). -/
def bankFaultRegs (i : Fin 16) : List RegRef := [.cbFsr i, .cbFsynr i, .cbFar i]

/-- The registers of bank `i` at its stride and in the two per-bank arrays. -/
def bankRegs (i : Fin 16) : List RegRef :=
  [.cbar i, .cba2r i, .cbCtrl i, .cbAttr0 i, .cbAttr1 i, .cbTcr i, .cbTcr2 i, .cbTtbr i, .cbFsr i, .cbFar i, .cbFsynr i]

/-- The inventory of R30, every register once. -/
def allRegs : List RegRef :=
  [RegRef.scr0, .scr1, .gfsr, .gfar, .gfsynr, .tlbiS, .tlbiNs, .topIsr]
    ++ (indices 48).map RegRef.smr ++ (indices 48).map RegRef.s2cr ++ (indices 16).flatMap bankRegs

/-- The register that is exactly the `bytes` bytes at address `addr` (R118). -/
def registerAt (p : Params) (addr bytes : Nat) : Option RegRef :=
  allRegs.find? fun r => regAddr p r == addr && regBytes p r == bytes

/-- The register that holds the byte at address `addr`. -/
def registerOfByte (p : Params) (addr : Nat) : Option RegRef :=
  allRegs.find? fun r => decide (regAddr p r ≤ addr) && decide (addr < regAddr p r + regBytes p r)

/-- Register contents after reset: zero, and the bypass bit of `SCR0` set, since the SMMU is in "everything bypassed"
(R45). DESIGN CHOICE (assumption log 3): R45 gives no other value. -/
def RegFile.reset (p : Params) : RegFile where
  scr0 := setBit 0#32 p.field.scr0BypassBit 1
  scr1 := 0#32
  smr := Vector.replicate 48 0#32
  s2cr := Vector.replicate 48 0#32
  cbar := Vector.replicate 16 0#32
  cba2r := Vector.replicate 16 0#32
  banks := Vector.replicate 16 ⟨0#32, 0#32, 0#32, 0#32, 0#32, 0#64, 0#32, 0#64, 0#32⟩
  gfsr := 0#32
  gfar := 0#32
  gfsynr := 0#32
  topIsr := 0#32

/-- Two registers occupy disjoint byte ranges (R40). -/
def regsDisjoint (p : Params) (r q : RegRef) : Bool :=
  decide (regAddr p r + regBytes p r ≤ regAddr p q) || decide (regAddr p q + regBytes p q ≤ regAddr p r)

/-- R40, constraints: pairwise disjoint byte ranges, offsets that are multiples of the width, a stride that holds a
bank, and `TOP_ISR` at an address that exists. -/
def mapAdmissible (p : Params) : Prop :=
  (∀ r q : RegRef, r ≠ q → regsDisjoint p r q = true)
    ∧ (∀ r : RegRef, (Int.ofNat (regAddr p r) - Int.ofNat p.map.iommuBase) % Int.ofNat (regBytes p r) = 0)
    ∧ (∀ c ∈ [p.bank.cboCtrl, p.bank.cboTcr2, p.bank.cboTtbr, p.bank.cboTcr, p.bank.cboAttr0, p.bank.cboAttr1,
        p.bank.cboFsr, p.bank.cboFar, p.bank.cboFsynr], c + 8 ≤ p.map.cbStride)
    ∧ 0 ≤ Int.ofNat p.map.iommuBase + p.map.offTopIsr

/-- Bit ranges, each (high, low), are pairwise disjoint and inside a register of `n` bits (R41). -/
def fieldsFit (n : Nat) : List (Nat × Nat) → Bool
  | [] => true
  | (hi, lo) :: rest =>
      decide (lo ≤ hi) && decide (hi < n) && rest.all (fun q => decide (hi < q.2) || decide (q.1 < lo)) && fieldsFit n rest

/-- R41, constraints: fields disjoint and inside their registers, type codes distinct, and the three facts of the
document about `TEMPLATE` (R131). -/
def fieldsAdmissible (p : Params) : Bool :=
  fieldsFit 32 [(p.field.s2crTypeLo + 1, p.field.s2crTypeLo), (p.field.s2crCbndxLo + 7, p.field.s2crCbndxLo)]
    && fieldsFit 32 [(p.field.cba2rVa64Bit, p.field.cba2rVa64Bit)]
    && decide (1 ≤ p.field.t0szW)
    && fieldsFit 32 [(p.field.tcrT0szLo + p.field.t0szW - 1, p.field.tcrT0szLo),
        (p.field.tcrIrgn0Lo + 1, p.field.tcrIrgn0Lo), (p.field.tcrOrgn0Lo + 1, p.field.tcrOrgn0Lo),
        (p.field.tcrSh0Lo + 1, p.field.tcrSh0Lo), (p.field.tcrTg0Lo + 1, p.field.tcrTg0Lo)]
    && decide (1 ≤ p.field.asidWW32) && decide (1 ≤ p.field.asidWW64)
    && fieldsFit p.field.wTtbr.bits [(p.field.ttbrAddrHi, 12), (p.field.ttbrAsidLo + p.field.asidWW32 - 1, p.field.ttbrAsidLo)]
    && fieldsFit p.field.wTtbr.bits [(p.field.ttbrAddrHi, 12), (p.field.ttbrAsidLo + p.field.asidWW64 - 1, p.field.ttbrAsidLo)]
    && fieldsFit 32 [(p.field.ctrlMBit, p.field.ctrlMBit), (p.field.ctrlCfreBit, p.field.ctrlCfreBit),
        (p.field.ctrlCfieBit, p.field.ctrlCfieBit)]
    && fieldsFit 32 [(p.field.scr0BypassBit, p.field.scr0BypassBit)]
    && decide (p.field.s2crCodeTranslate ≠ p.field.s2crCodeBypass)
    && decide (p.field.s2crCodeTranslate ≠ p.field.s2crCodeFault)
    && decide (p.field.s2crCodeBypass ≠ p.field.s2crCodeFault)
    && p.template.getLsbD 0 && !p.template.getLsbD 1 && decide (fieldOf p.template.toNat 47 30 = 0)

end Sys2Proof.Machine
end

