-- ==== Sys2Proof/Machine/State.lean ====
section
/-! DEFINITION. The state of the machine as plain data, its value after reset, and the reasons a step can stop
(spec/10_state.md). INVENTORY.md lists every field with the rule that names it. -/

namespace Sys2Proof.Machine

/-- The six states of a context bank's sequencer (R20, R150). -/
inductive CbState where
  | disabled
  | addressModeSet
  | attributesSet
  | translationControlSet
  | tableBaseSet
  | enabled
deriving DecidableEq, Repr

/-- The response registers (R23). -/
structure Response where
  status : BitVec 4
  d0 : Word
  d1 : Word
  d2 : Word
deriving DecidableEq, Repr

/-- What the spec promises of the SMMU's translation cache (R42, R69, R249): whether it may still hold a translation
made before the latest change of a table or a table base. The cache's content is not modelled (R42; assumption log 11). -/
structure Tlb where
  secureMayBeStale : Bool
  nonSecureMayBeStale : Bool
deriving DecidableEq, Repr

/-- The kind of an access (R56). -/
inductive AccessKind where
  | regRead
  | regWrite
  | memWrite
deriving DecidableEq, Repr

/-- One access of a command (R56): its kind, absolute byte address, size in bytes and value. -/
structure Access where
  kind : AccessKind
  addr : Nat
  bytes : Nat
  value : Word
deriving DecidableEq, Repr

/-- An operand word as the host holds it: a number, or `$d0`, the `RSP.d0` left by the previous command (R24, R98). -/
inductive HostWord where
  | lit (v : Word)
  | d0
deriving DecidableEq, Repr

/-- One command of the host's list (R25): the frame's words, and whether the program says that the host stops when
the command's status is not `OK` (R25, R99 `CB.SETUP`). -/
structure HostCommand where
  cw : Header
  opa : HostWord
  opb : HostWord
  stopOnFailure : Bool
deriving DecidableEq, Repr

/-- The state of the machine. -/
structure State where
  /-- `cb_state[0..15]` (R20). -/
  cbState : Vector CbState 16
  /-- `cb_aw[0..15]` (R21). -/
  cbAw : Vector AddrWidth 16
  /-- `CW` (R22). -/
  cw : Header
  /-- `OPA` (R22). -/
  opa : Word
  /-- `OPB` (R22). -/
  opb : Word
  /-- `RSP` (R23). -/
  rsp : Response
  /-- The MODEL's own: the number of the next occasion of free values (assumption log 5). It stands before `regs` so that Lean
  tells a state from the same state after the SMMU's own move without looking into the registers. -/
  envTick : Nat
  /-- The register space (R29, R30). -/
  regs : RegFile
  /-- Table memory (R39). -/
  tableMem : Memory
  /-- The translation cache, as far as the spec speaks of it (R42). -/
  tlb : Tlb
  /-- The host's list of commands (R25). -/
  program : List HostCommand
  /-- The host's position in the list, zero-based (R25). -/
  position : Nat
  /-- `Params` (R13, R40, R41): an argument of the model, fixed for the machine (assumption log 1). -/
  params : Params
  /-- The MODEL's own: every access made so far, oldest first (R56; assumption log 12). -/
  trace : List Access
deriving DecidableEq, Repr

/-- Why a step stops with a fault. There is no such reason: every failure of a command is a status (R210, R216), and
the block "either completes or fails immediately" (R25, R67). Nobody raises a fault (assumption log 13). -/
inductive Fault where
deriving DecidableEq, Repr

/-- Why a step has no meaning. -/
inductive Refusal where
  /-- Raised by an arm of `exec` whose command has no meaning yet; no arm does. Safe: the machine stops. -/
  | notModelled (mnemonic : String)
deriving DecidableEq, Repr

/-- R44, R47: the machine right after reset, for any parameters (R13). The block's own state is the spec's; `cw`, `opa`,
`opb` are the model's choice (log 4), as are the register contents (log 3), the empty host list (log 2) and `envTick`
(log 5). With the fault registers zero the fault interrupt line is not pending, where R47 leaves it unspecified: the
model's choice too (logs 3, 15). -/
def State.resetWith (p : Params) : State where
  cbState := Vector.replicate 16 .disabled
  cbAw := Vector.replicate 16 .w32
  cw := 0#32
  opa := 0#64
  opb := 0#64
  rsp := ⟨0#4, 0#64, 0#64, 0#64⟩
  regs := RegFile.reset p
  tableMem := []
  tlb := ⟨true, true⟩
  program := []
  position := 0
  params := p
  trace := []
  envTick := 0

/-- The machine right after reset with the default column of R40 and R41 (log 1). -/
def State.reset : State := State.resetWith defaultParams

end Sys2Proof.Machine
end

