-- ==== Sys2Proof/Machine/Flags.lean ====
section
/-! DEFINITION. The block has no flags and no condition codes (spec/10_state.md R26). What a command reports is its
status: this file holds the status codes (spec/60_exceptions.md R210), the ranks of the sequencer states (R20), and the
views the spec derives from a register: the global mode (R35) and the fault interrupt line (R43, R226). -/

namespace Sys2Proof.Machine

/-- The statuses of R210. -/
inductive Status where
  | ok
  | indexOutOfRange
  | misalignedTableBase
  | invalidOrdering
  /-- In the taxonomy and never returned by a command (R214). -/
  | hardwareFault
  | contractViolation
  | illegalCommand
deriving DecidableEq, Repr

/-- The 4-bit code of a status (R210). -/
def Status.code : Status → BitVec 4
  | .ok => 0#4
  | .indexOutOfRange => 1#4
  | .misalignedTableBase => 2#4
  | .invalidOrdering => 3#4
  | .hardwareFault => 4#4
  | .contractViolation => 5#4
  | .illegalCommand => 6#4

/-- The rank numbers of R20. -/
def CbState.rank : CbState → Nat
  | .disabled => 0
  | .addressModeSet => 1
  | .attributesSet => 2
  | .translationControlSet => 3
  | .tableBaseSet => 4
  | .enabled => 5

/-- R150: the superstate Disabled, the five states other than `Enabled`. -/
def CbState.inDisabled : CbState → Bool
  | .enabled => false
  | _ => true

/-- R35, R47: the global mode, read from `SCR0`; the block keeps no latch of it (R28). -/
def State.bypassAll (s : State) : Bool := s.regs.scr0.getLsbD s.params.field.scr0BypassBit

/-- R43, R226: the fault interrupt line is pending while a fault status register or the top-level interrupt status is
set. `State.regs` holds every bit the SMMU has set so far: each step, the waiting step included, ends with the bits it
has set (`State.smmuActs`), so the line can rise then. R226 gives the line no other condition; the bits `fault_report`
and `fault_interrupt` are read below. At reset it is not pending: the model's choice (logs 3, 15). -/
def State.faultLine (s : State) : Bool :=
  (s.regs.gfsr != 0#32) || (s.regs.topIsr != 0#32) || (indices 16).any fun i => (entryOf s.regs.banks i).fsr != 0#32

/-- R226: `fault_report` of a bank, "by its name" whether the bank records and reports faults. The document does not define
it further, and what the SMMU sets does not depend on it here (log 15). -/
def State.faultReportOn (s : State) (i : Fin 16) : Bool := (entryOf s.regs.banks i).ctrl.getLsbD s.params.field.ctrlCfreBit

/-- R226: `fault_interrupt` of a bank, "by its name" whether a recorded fault may raise the line. The document does not
define it further, and the line R226 describes does not depend on it (log 15). -/
def State.faultInterruptOn (s : State) (i : Fin 16) : Bool := (entryOf s.regs.banks i).ctrl.getLsbD s.params.field.ctrlCfieBit

end Sys2Proof.Machine
end

