-- ==== Sys2Proof/Machine/Ops.lean ====
section
/-! DEFINITION. The shared operations: accesses on the two ports (spec/20_memory.md R51-R56), ending a command and
taking a failure (spec/60_exceptions.md R216), the sequencer's state, and the host's side of a step (spec/10_state.md R22, R25). -/

namespace Sys2Proof.Machine

/-- What a command answers. -/
abbrev Result := Host.Outcome State Fault Refusal

/-! ## What the SMMU does by itself -/

/-- What a W1C register that held `v` holds once the SMMU has set bits in it: `v` and a free value's bits, within the
register's width (R29; U18, U19; log 5). -/
def smmuSets (p : Params) (tick : Nat) (r : RegRef) (v : Word) : Word :=
  low (regBits p r) (v ||| Config.freeWord tick r.drawNumber)

/-- The SMMU's move while a command runs or the block waits (R29, R43): it may set bits of any fault register; nothing else
changes. -/
def State.smmuActs (s : State) : State :=
  { s with
    regs := s.regs.mapFault (smmuSets s.params s.envTick)
    envTick := s.envTick + 1 }

/-! ## Register port, named registers -/

/-- The value a read of a register puts on the port (R29). A STORAGE register returns its content. A W1C register
returns its content and whatever bits the SMMU has set within the command so far (U18, U19; log 5). A read of a WTRIG or
RO-VOLATILE register is not defined by the content (R38, R116; log 6). -/
def State.readValue (s : State) (r : RegRef) : Word :=
  match r.regClass with
  | .storage => low (regBits s.params r) (s.regs.get r)
  | .w1c => smmuSets s.params s.envTick r (s.regs.get r)
  | .wtrig => low (regBits s.params r) (Config.freeWord s.envTick r.drawNumber)
  | .roVolatile => low (regBits s.params r) (Config.freeWord s.envTick r.drawNumber)

/-- The number of the next free value after a read of a register. -/
def tickAfterRead (c : RegClass) (t : Nat) : Nat :=
  match c with
  | .storage => t
  | .w1c => t + 1
  | .wtrig => t + 1
  | .roVolatile => t + 1

/-- The register file after a read: no read has a side effect (R63); the bits of a W1C register that the read showed
were set by the SMMU and stay set. -/
def State.regsAfterRead (s : State) (r : RegRef) : RegFile :=
  match r.regClass with
  | .storage => s.regs
  | .w1c => s.regs.set r (s.readValue r)
  | .wtrig => s.regs
  | .roVolatile => s.regs

/-- The state after `RegRead` of a register (R51): the access is recorded. -/
def State.afterRead (s : State) (r : RegRef) : State :=
  { s with
    regs := s.regsAfterRead r
    envTick := tickAfterRead r.regClass s.envTick
    trace := s.trace ++ [⟨.regRead, regAddr s.params r, regBytes s.params r, s.readValue r⟩] }

/-- The register file after a write of `v` (R29): STORAGE holds the value, W1C loses the bits written as 1, the others
hold nothing the host wrote. -/
def State.regsAfterWrite (s : State) (r : RegRef) (v : Word) : RegFile :=
  match r.regClass with
  | .storage => s.regs.set r v
  | .w1c => s.regs.set r (s.regs.get r &&& ~~~v)
  | .wtrig => s.regs
  | .roVolatile => s.regs

/-- R249: a changed table or table base leaves the cache possibly stale. -/
def Tlb.stale : Tlb := ⟨true, true⟩

/-- What a register write does to the cache: the two triggers invalidate (R38, R69); a table base (R249), and any other
register that says how a bank translates (log 11), makes it possibly stale. Only the two invalidations together empty it. -/
def tlbAfterWrite (r : RegRef) (t : Tlb) : Tlb :=
  match r with
  | .tlbiS => { t with secureMayBeStale := false }
  | .tlbiNs => { t with nonSecureMayBeStale := false }
  | r => if r.shapesTranslation then Tlb.stale else t

/-- `RegWrite` to a register (R51): `v` is cut to the register's width. -/
def State.regWrite (s : State) (r : RegRef) (v : Word) : State :=
  { s with
    regs := s.regsAfterWrite r (low (regBits s.params r) v)
    tlb := tlbAfterWrite r s.tlb
    trace := s.trace ++ [⟨.regWrite, regAddr s.params r, regBytes s.params r, low (regBits s.params r) v⟩] }

/-- A read-modify-write of a register (R62): one read, then one write of `f` of the value read, nothing between. -/
def State.rmw (s : State) (r : RegRef) (f : Word → Word) : State :=
  (s.afterRead r).regWrite r (f (s.readValue r))

/-- The same value written to several registers, in list order (R181, R197, R198). -/
def State.writeAll (s : State) (rs : List RegRef) (v : Word) : State :=
  rs.foldl (fun t r => t.regWrite r v) s

/-! ## Register port, mapped accesses (R116-R118) -/

/-- One byte of a read that is not exactly one register (U6, U7): a byte of a STORAGE register is its content; any
other byte, of a register of another class or of no register, is a free value (logs 7, 8). -/
def State.mixedByte (s : State) (free : Word) (addr k : Nat) : Byte :=
  match registerOfByte s.params (addr + k) with
  | some r =>
      match r.regClass with
      | .storage => byteOf (s.regs.get r) (addr + k - regAddr s.params r)
      | .w1c => byteOf free k
      | .wtrig => byteOf free k
      | .roVolatile => byteOf free k
  | none => byteOf free k

/-- The value of a read of `bytes` bytes that is not exactly one register. -/
def State.mixedWord (s : State) (addr bytes : Nat) : Word :=
  wordOfBytes ((List.range bytes).map (s.mixedByte (Config.freeWord s.envTick 0) addr))

/-- The value `RegRead(addr - IOMMU_BASE, bytes)` returns (R51, R118). -/
def State.mappedValue (s : State) (addr bytes : Nat) : Word :=
  match registerAt s.params addr bytes with
  | some r => s.readValue r
  | none => s.mixedWord addr bytes

/-- The state after a mapped read (R51). -/
def State.afterMappedRead (s : State) (addr bytes : Nat) : State :=
  match registerAt s.params addr bytes with
  | some r => s.afterRead r
  | none =>
      { s with
        envTick := s.envTick + 1
        trace := s.trace ++ [⟨.regRead, addr, bytes, s.mixedWord addr bytes⟩] }

/-- One byte of a write that is not exactly one register (U6, U7): a STORAGE register takes the byte; a W1C register
written in part may hold anything afterwards (a free value of its own; log 8); nothing else holds what the host writes. -/
def writeMixedByte (p : Params) (tick : Nat) (v : Word) (addr : Nat) (f : RegFile) (k : Nat) : RegFile :=
  match registerOfByte p (addr + k) with
  | some r =>
      match r.regClass with
      | .storage => f.set r (putByte (f.get r) (addr + k - regAddr p r) (byteOf v k))
      | .w1c => f.set r (low (regBits p r) (Config.freeWord tick r.drawNumber))
      | .wtrig => f
      | .roVolatile => f
  | none => f

/-- Whether a byte belongs to a register that says how a bank translates (R249, log 11). -/
def shapesTranslationByte (p : Params) (addr : Nat) : Bool := (registerOfByte p addr).any fun r => r.shapesTranslation

/-- The state after a write of `bytes` bytes that is not exactly one register. A trigger register that it covers, in
part or wholly, may or may not act (U7), and the model takes it not to: the cache stays as stale as it was (DESIGN CHOICE,
log 8). -/
def State.mixedWrite (s : State) (addr bytes : Nat) (v : Word) : State :=
  { s with
    regs := (List.range bytes).foldl (writeMixedByte s.params s.envTick v addr) s.regs
    tlb := if (List.range bytes).any fun k => shapesTranslationByte s.params (addr + k) then Tlb.stale else s.tlb
    envTick := s.envTick + 1
    trace := s.trace ++ [⟨.regWrite, addr, bytes, low (8 * bytes) v⟩] }

/-- `RegWrite(addr - IOMMU_BASE, bytes, v)` (R51, R118). -/
def State.mappedWrite (s : State) (addr bytes : Nat) (v : Word) : State :=
  match registerAt s.params addr bytes with
  | some r => s.regWrite r v
  | none => s.mixedWrite addr bytes v

/-! ## Table port -/

/-- `MemWrite(addr, 8, v)` (R52); the cache is possibly stale afterwards (R249). -/
def State.memWrite (s : State) (addr : Nat) (v : Word) : State :=
  { s with
    tableMem := s.tableMem.write64 addr v
    tlb := Tlb.stale
    trace := s.trace ++ [⟨.memWrite, addr, 8, v⟩] }

/-! ## Ending a command -/

/-- `raise S` (R216): the status, zero data words, and no other effect. There is no handler, no vector and no return
(R216, R221): this is all there is to taking an exception here. -/
def raise (st : Status) (s : State) : Result := .next { s with rsp := ⟨st.code, 0#64, 0#64, 0#64⟩ }

/-- `done(d0, d1, d2)` (R17, R101): status `OK` and the three data words. -/
def complete (d0 d1 d2 : Word) (s : State) : Result := .next { s with rsp := ⟨Status.ok.code, d0, d1, d2⟩ }

/-! ## Sequencer state -/

/-- `cb_state[i]`. -/
def State.bankState (s : State) (i : Fin 16) : CbState := entryOf s.cbState i

/-- `cb_aw[i]`. -/
def State.bankAw (s : State) (i : Fin 16) : AddrWidth := entryOf s.cbAw i

/-- `cb_state[i] <- v`. -/
def State.setBankState (s : State) (i : Fin 16) (v : CbState) : State := { s with cbState := withEntry s.cbState i v }

/-- `cb_aw[i] <- v`. -/
def State.setBankAw (s : State) (i : Fin 16) (v : AddrWidth) : State := { s with cbAw := withEntry s.cbAw i v }

/-- The prologue of the four configuration steps after the index check (R152, R158): an `Enabled` bank refuses. -/
def configStep (i : Fin 16) (s : State) (body : State → Result) : Result :=
  if s.bankState i = .enabled then raise .invalidOrdering s else body s

/-! ## The host's side of a step -/

/-- The word an operand stands for (R24, R98): `$d0` is the `RSP.d0` the previous command left. -/
def HostWord.value (w : HostWord) (rsp : Response) : Word :=
  match w with
  | .lit v => v
  | .d0 => rsp.d0

/-- R22: the host loads the three command registers. -/
def State.load (s : State) (c : HostCommand) : State :=
  { s with cw := c.cw, opa := c.opa.value s.rsp, opb := c.opb.value s.rsp }

/-- The frame in the command registers (R80). -/
def State.frame (s : State) : Frame := ⟨s.cw, s.opa, s.opb⟩

/-- R25: the host's position after a command: the next element, or the end of the list when the program says that
the host stops at a failure and the command failed. -/
def State.advance (s : State) (c : HostCommand) : State :=
  { s with
    position := if c.stopOnFailure && s.rsp.status != Status.ok.code then s.program.length else s.position + 1 }

/-- The command the host issues next, if its list is not exhausted (R25). -/
def State.nextCommand (s : State) : Option HostCommand := s.program[s.position]?

/-- R97 step 1, R217: a header that is no command is answered `IllegalCommand`. -/
def illegal (s : State) : Result := raise .illegalCommand s

end Sys2Proof.Machine
end

