-- ==== Sys2Proof/Machine/Accessor.lean ====
section
/-! DEFINITION. The bit-field accessor's commands `SBR.I`, `SB.I`, `SBR.M`, `SB.M` (spec/40_bitfield_accessor.md R113-R119). -/

namespace Sys2Proof.Machine

/-- An image-target update (R114): nothing but the response changes. -/
def imageUpdate (n hi lo : Nat) (image value : Word) (s : State) : Result :=
  complete (insertAt n image hi lo value.toNat) 0#64 0#64 s

/-- R51: the absolute address of a mapped command's offset, exact. -/
def mappedAddr (s : State) (offset : Word) : Nat := s.params.map.iommuBase + offset.toNat

/-- A mapped update (R116): one read, one write of the same bytes; `d0` is the value written. -/
def mappedUpdate (n hi lo : Nat) (offset value : Word) (s : State) : Result :=
  let a := mappedAddr s offset
  let new := insertAt n (s.mappedValue a (n / 8)) hi lo value.toNat
  complete new 0#64 0#64 ((s.afterMappedRead a (n / 8)).mappedWrite a (n / 8) new)

/-- R58: the offset is a multiple of the access's size. -/
def offsetAligned (n : Nat) (offset : Word) : Bool := offset.toNat % (n / 8) == 0

/-- `SBR.I` (R114). -/
def execSbrI (sz : SizeCode) (hi lo : Nat) (image value : Word) (s : State) : Result :=
  match widthOf sz with
  | none => raise .contractViolation s
  | some n => if rangeInContract n hi lo then imageUpdate n hi lo image value s else raise .contractViolation s

/-- `SB.I` (R115): `SBR.I` with `hi = lo = bit`. -/
def execSbI (sz : SizeCode) (bit : Nat) (image value : Word) (s : State) : Result :=
  match widthOf sz with
  | none => raise .contractViolation s
  | some n => if rangeInContract n bit bit then imageUpdate n bit bit image value s else raise .contractViolation s

/-- `SBR.M` (R116). -/
def execSbrM (sz : SizeCode) (hi lo : Nat) (offset value : Word) (s : State) : Result :=
  match widthOf sz with
  | none => raise .contractViolation s
  | some n =>
      if rangeInContract n hi lo && offsetAligned n offset then mappedUpdate n hi lo offset value s
      else raise .contractViolation s

/-- `SB.M` (R117): `SBR.M` with `hi = lo = bit`. -/
def execSbM (sz : SizeCode) (bit : Nat) (offset value : Word) (s : State) : Result :=
  match widthOf sz with
  | none => raise .contractViolation s
  | some n =>
      if rangeInContract n bit bit && offsetAligned n offset then mappedUpdate n bit bit offset value s
      else raise .contractViolation s

end Sys2Proof.Machine
end

