-- ==== Sys2Proof/Machine/FaultTlb.lean ====
section
/-! DEFINITION. The fault reporter and TLB invalidator `FR.SNAPG`, `FR.SNAPC`, `FR.CLEARALL`, `FR.TLBIALL`
(spec/44_fault_tlb.md R195-R200). -/

namespace Sys2Proof.Machine

/-- R197: the registers `FR.CLEARALL` writes, in order: 3 global, 3 of each bank, the top-level status. -/
def clearOrder : List RegRef := [RegRef.gfsr, .gfsynr, .gfar] ++ (indices 16).flatMap bankFaultRegs ++ [RegRef.topIsr]

/-- `FR.SNAPG` (R195): status, then address. -/
def execFrSnapg (s : State) : Result :=
  let s1 := s.afterRead .gfsr
  complete (s.readValue .gfsr) (s1.readValue .gfar) 0#64 (s1.afterRead .gfar)

/-- `FR.SNAPC` (R196): status, address, syndrome of a bank. -/
def execFrSnapc (idx : Nat) (s : State) : Result :=
  if h : idx < 16 then
    let s1 := s.afterRead (.cbFsr ⟨idx, h⟩)
    let s2 := s1.afterRead (.cbFar ⟨idx, h⟩)
    complete (s.readValue (.cbFsr ⟨idx, h⟩)) (s1.readValue (.cbFar ⟨idx, h⟩)) (s2.readValue (.cbFsynr ⟨idx, h⟩))
      (s2.afterRead (.cbFsynr ⟨idx, h⟩))
  else raise .indexOutOfRange s

/-- `FR.CLEARALL` (R197): 52 writes of all ones. -/
def execFrClearall (s : State) : Result := complete 0#64 0#64 0#64 (s.writeAll clearOrder (BitVec.allOnes 64))

/-- `FR.TLBIALL` (R198): the secure trigger, then the non-secure one. -/
def execFrTlbiall (s : State) : Result := complete 0#64 0#64 0#64 (s.writeAll [.tlbiS, .tlbiNs] 0#64)

end Sys2Proof.Machine
end

