-- ==== Sys2Proof/Machine/TableBuilder.lean ====
section
/-! DEFINITION. The translation-table builder's commands `TT.BUILD`, `TT.WRITE`, `TT.ZERO` (spec/41_table_builder.md R130-R138). -/

namespace Sys2Proof.Machine

/-- R14, R132: the 64-bit width is selected and not admitted. -/
def w64Refused (aw : AddrWidth) (s : State) : Bool := aw == .w64 && !s.params.w64Admitted

/-- R12 `TTE_OA_HI`: the high bit of the output-address field. -/
def outputAddrHi : AddrWidth → Nat
  | .w32 => 39
  | .w64 => 47

/-- R130, R133, R134: the template, the flags but bits 1:0 OR-ed onto it, then the address overlay. -/
def buildEntry (template : Word) (aw : AddrWidth) (baseFlags outputAddress : Word) : Word :=
  setBitRange (template ||| (baseFlags &&& ~~~0x3#64)) (outputAddrHi aw) 30 outputAddress.toNat

/-- `TT.BUILD` (R130). -/
def execTtBuild (aw : AddrWidth) (baseFlags outputAddress : Word) (s : State) : Result :=
  if w64Refused aw s then raise .contractViolation s
  else complete (buildEntry s.params.template aw baseFlags outputAddress) 0#64 0#64 s

/-- `TT.WRITE` (R135). -/
def execTtWrite (idx : Nat) (table entry : Word) (s : State) : Result :=
  if tableAddrOk table then
    if idx < 4 then complete 0#64 0#64 0#64 (s.memWrite (entryAddr table idx) entry)
    else raise .indexOutOfRange s
  else raise .contractViolation s

/-- `TT.ZERO` (R136): four zero entries, ascending. -/
def execTtZero (table : Word) (s : State) : Result :=
  if tableAddrOk table then
    complete 0#64 0#64 0#64
      ((((s.memWrite (entryAddr table 0) 0#64).memWrite (entryAddr table 1) 0#64).memWrite (entryAddr table 2) 0#64).memWrite
        (entryAddr table 3) 0#64)
  else raise .contractViolation s

end Sys2Proof.Machine
end

