-- ==== Sys2Proof/Machine/Sequencer.lean ====
section
/-! DEFINITION. The context-bank sequencer's commands `CB.AMODE`, `CB.MATTR`, `CB.TCTRL`, `CB.TBASE`, `CB.ENABLE`
(spec/42_context_bank_sequencer.md R150-R163). -/

namespace Sys2Proof.Machine

/-- The `CBA2R` image with the width bit written (R153). -/
def amodeImage (f : FieldMap) (aw : AddrWidth) (old : Word) : Word :=
  insertAt 32 old f.cba2rVa64Bit f.cba2rVa64Bit (bitValue aw.bit)

/-- The `CB_TCR` image with the five fields written (R155). -/
def tctrlImage (f : FieldMap) (t0sz : BitVec 6) (innerCache outerCache shareability granule : BitVec 2) (old : Word) : Word :=
  let i1 := insertAt 32 old (f.tcrT0szLo + f.t0szW - 1) f.tcrT0szLo t0sz.toNat
  let i2 := insertAt 32 i1 (f.tcrIrgn0Lo + 1) f.tcrIrgn0Lo innerCache.toNat
  let i3 := insertAt 32 i2 (f.tcrOrgn0Lo + 1) f.tcrOrgn0Lo outerCache.toNat
  let i4 := insertAt 32 i3 (f.tcrSh0Lo + 1) f.tcrSh0Lo shareability.toNat
  insertAt 32 i4 (f.tcrTg0Lo + 1) f.tcrTg0Lo granule.toNat

/-- `ASID_W` (R41): the ASID width of an address width. -/
def asidWidth (f : FieldMap) : AddrWidth → Nat
  | .w32 => f.asidWW32
  | .w64 => f.asidWW64

/-- The `CB_TTBR` image with the address and ASID fields written (R156). -/
def tbaseImage (f : FieldMap) (aw : AddrWidth) (asid : BitVec 16) (tableBase old : Word) : Word :=
  let i1 := insertAt 64 old f.ttbrAddrHi 12 (tableBase.toNat >>> 12)
  insertAt 64 i1 (f.ttbrAsidLo + asidWidth f aw - 1) f.ttbrAsidLo asid.toNat

/-- The `CB_CTRL` image with the three bits written (R157). -/
def enableImage (f : FieldMap) (enabled faultReport faultInterrupt : Bool) (old : Word) : Word :=
  let i1 := insertAt 32 old f.ctrlMBit f.ctrlMBit (bitValue enabled)
  let i2 := insertAt 32 i1 f.ctrlCfreBit f.ctrlCfreBit (bitValue faultReport)
  insertAt 32 i2 f.ctrlCfieBit f.ctrlCfieBit (bitValue faultInterrupt)

/-- R12 `GRANULE`. -/
def granuleBytes : Nat := 4096

/-- `CB.AMODE` (R153). -/
def execCbAmode (idx : Nat) (aw : AddrWidth) (s : State) : Result :=
  if w64Refused aw s then raise .contractViolation s
  else if h : idx < 16 then
    configStep ⟨idx, h⟩ s fun s =>
      complete 0#64 0#64 0#64
        (((s.rmw (.cba2r ⟨idx, h⟩) (amodeImage s.params.field aw)).setBankAw ⟨idx, h⟩ aw).setBankState ⟨idx, h⟩ .addressModeSet)
  else raise .indexOutOfRange s

/-- `CB.MATTR` (R154): low half, then high half, no read. -/
def execCbMattr (idx : Nat) (attrTable : Word) (s : State) : Result :=
  if h : idx < 16 then
    configStep ⟨idx, h⟩ s fun s =>
      complete 0#64 0#64 0#64
        (((s.regWrite (.cbAttr0 ⟨idx, h⟩) (low 32 attrTable)).regWrite (.cbAttr1 ⟨idx, h⟩) (attrTable >>> 32)).setBankState
          ⟨idx, h⟩ .attributesSet)
  else raise .indexOutOfRange s

/-- `CB.TCTRL` (R155). -/
def execCbTctrl (idx : Nat) (t0sz : BitVec 6) (innerCache outerCache shareability granule : BitVec 2) (s : State) : Result :=
  if h : idx < 16 then
    configStep ⟨idx, h⟩ s fun s =>
      complete 0#64 0#64 0#64
        ((s.rmw (.cbTcr ⟨idx, h⟩) (tctrlImage s.params.field t0sz innerCache outerCache shareability granule)).setBankState
          ⟨idx, h⟩ .translationControlSet)
  else raise .indexOutOfRange s

/-- `CB.TBASE` (R156): the ordering check before the alignment check (R152, R218). -/
def execCbTbase (idx : Nat) (asid : BitVec 16) (tableBase : Word) (s : State) : Result :=
  if h : idx < 16 then
    configStep ⟨idx, h⟩ s fun s =>
      if tableBase.toNat % granuleBytes = 0 then
        complete 0#64 0#64 0#64
          ((s.rmw (.cbTtbr ⟨idx, h⟩) (tbaseImage s.params.field (s.bankAw ⟨idx, h⟩) asid tableBase)).setBankState
            ⟨idx, h⟩ .tableBaseSet)
      else raise .misalignedTableBase s
  else raise .indexOutOfRange s

/-- `CB.ENABLE` (R157): legal in every state of the bank. -/
def execCbEnable (idx : Nat) (enabled faultReport faultInterrupt : Bool) (s : State) : Result :=
  if h : idx < 16 then
    complete 0#64 0#64 0#64
      ((s.rmw (.cbCtrl ⟨idx, h⟩) (enableImage s.params.field enabled faultReport faultInterrupt)).setBankState
        ⟨idx, h⟩ (if enabled then .enabled else .disabled))
  else raise .indexOutOfRange s

end Sys2Proof.Machine
end

