-- ==== Sys2Proof/Machine/StreamTables.lean ====
section
/-! DEFINITION. The stream-match and stream-to-context writers `SM.CFG`, `SM.RESETALL`, `S2C.CFG`
(spec/43_stream_tables.md R180-R184). -/

namespace Sys2Proof.Machine

/-- R180: the stream-match register composed from zero, bit 15 zero. -/
def smrImage (valid : Bool) (mask : BitVec 16) (tbuNumber : BitVec 5) (masterId : BitVec 10) : Word :=
  let v1 := insertAt 32 0#64 31 31 (bitValue valid)
  let v2 := insertAt 32 v1 30 16 mask.toNat
  let v3 := insertAt 32 v2 14 10 tbuNumber.toNat
  insertAt 32 v3 9 0 masterId.toNat

/-- `S2CR_CODE(kind)` (R41, R183); the reserved kind never reaches a register (R182). -/
def s2crCode (f : FieldMap) : StreamKind → BitVec 2
  | .translate => f.s2crCodeTranslate
  | .bypass => f.s2crCodeBypass
  | .fault => f.s2crCodeFault
  | .reserved => 0#2

/-- R182: the index written: the operand for `Translate`, zero otherwise. -/
def s2cIndexValue (kind : StreamKind) (contextBankIndex : BitVec 8) : Nat :=
  if kind = .translate then contextBankIndex.toNat else 0

/-- The `S2CR` image with the type and index fields written (R182). -/
def s2crImage (f : FieldMap) (kind : StreamKind) (contextBankIndex : BitVec 8) (old : Word) : Word :=
  let i1 := insertAt 32 old (f.s2crTypeLo + 1) f.s2crTypeLo (s2crCode f kind).toNat
  insertAt 32 i1 (f.s2crCbndxLo + 7) f.s2crCbndxLo (s2cIndexValue kind contextBankIndex)

/-- `SM.CFG` (R180): one whole write, no read. -/
def execSmCfg (idx : Nat) (valid : Bool) (mask : BitVec 16) (tbuNumber : BitVec 5) (masterId : BitVec 10) (s : State) : Result :=
  if h : idx < 48 then
    complete 0#64 0#64 0#64 (s.regWrite (.smr ⟨idx, h⟩) (smrImage valid mask tbuNumber masterId))
  else raise .indexOutOfRange s

/-- `SM.RESETALL` (R181): 48 writes of zero, ascending. -/
def execSmResetall (s : State) : Result :=
  complete 0#64 0#64 0#64 (s.writeAll ((indices 48).map RegRef.smr) 0#64)

/-- `S2C.CFG` (R182): the reserved kind, then the header index, then the context-bank index (R218). -/
def execS2cCfg (idx : Nat) (kind : StreamKind) (contextBankIndex : BitVec 8) (s : State) : Result :=
  if kind = .reserved then raise .contractViolation s
  else if h : idx < 48 then
    if kind = .translate ∧ 15 < contextBankIndex.toNat then raise .indexOutOfRange s
    else complete 0#64 0#64 0#64 (s.rmw (.s2cr ⟨idx, h⟩) (s2crImage s.params.field kind contextBankIndex))
  else raise .indexOutOfRange s

end Sys2Proof.Machine
end

