-- ==== Sys2Proof/Machine/Dispatch.lean ====
section
/-! DEFINITION. One arm per command (spec/30_encoding.md R92). -/

namespace Sys2Proof.Machine

/-- The effect of a decoded command (R97 steps 3 to 5). -/
def exec (i : Instr) (s : State) : Host.Outcome State Fault Refusal :=
  match i with
  -- bit-field accessor
  | .sbrI sz hi lo image value => Sys2Proof.Machine.execSbrI sz hi lo image value s
  | .sbI sz bit image value => Sys2Proof.Machine.execSbI sz bit image value s
  | .sbrM sz hi lo offset value => Sys2Proof.Machine.execSbrM sz hi lo offset value s
  | .sbM sz bit offset value => Sys2Proof.Machine.execSbM sz bit offset value s
  -- table builder
  | .ttBuild aw flags oa => Sys2Proof.Machine.execTtBuild aw flags oa s
  | .ttWrite idx table entry => Sys2Proof.Machine.execTtWrite idx table entry s
  | .ttZero table => Sys2Proof.Machine.execTtZero table s
  -- context-bank sequencer
  | .cbAmode idx aw => Sys2Proof.Machine.execCbAmode idx aw s
  | .cbMattr idx attrs => Sys2Proof.Machine.execCbMattr idx attrs s
  | .cbTctrl idx t0sz inner outer sh granule => Sys2Proof.Machine.execCbTctrl idx t0sz inner outer sh granule s
  | .cbTbase idx asid base => Sys2Proof.Machine.execCbTbase idx asid base s
  | .cbEnable idx en fr fi => Sys2Proof.Machine.execCbEnable idx en fr fi s
  -- stream tables
  | .smCfg idx valid mask tbu master => Sys2Proof.Machine.execSmCfg idx valid mask tbu master s
  | .smResetall => Sys2Proof.Machine.execSmResetall s
  | .s2cCfg idx kind cbndx => Sys2Proof.Machine.execS2cCfg idx kind cbndx s
  -- fault reporter and TLB invalidator
  | .frSnapg => Sys2Proof.Machine.execFrSnapg s
  | .frSnapc idx => Sys2Proof.Machine.execFrSnapc idx s
  | .frClearall => Sys2Proof.Machine.execFrClearall s
  | .frTlbiall => Sys2Proof.Machine.execFrTlbiall s

end Sys2Proof.Machine
end

