-- ==== Sys2Proof/Machine/Step.lean ====
section
/-! DEFINITION. One step: the host issues the next command of its list and the block runs it to completion
(spec/10_state.md R22, R25, spec/20_memory.md R67, spec/30_encoding.md R97). -/

namespace Sys2Proof.Machine

/-- The command in the command registers, decoded and run; a header that is no command is answered `IllegalCommand`
(R93, R217). -/
def runLoaded (s : State) : Host.Outcome State Fault Refusal :=
  match decode s.frame with
  | .ok i => exec i s
  | .error _ => illegal s

/-- The host's move on after a command that answered a next state (R25). -/
def andAdvance (c : HostCommand) (r : Host.Outcome State Fault Refusal) : Host.Outcome State Fault Refusal :=
  match r with
  | .next s => .next (s.advance c)
  | .fault f => .fault f
  | .refused x => .refused x

/-- The host issues the next command of its list, and the block runs it to completion. When the list is exhausted the
block waits (R25, R241). -/
def issueNext (s : State) : Host.Outcome State Fault Refusal :=
  match s.nextCommand with
  | none => .next s
  | some c => andAdvance c (runLoaded (s.load c))

/-- The SMMU's own move, on what a command or a wait answered. -/
def andSmmuActs (r : Host.Outcome State Fault Refusal) : Host.Outcome State Fault Refusal :=
  match r with
  | .next s => .next s.smmuActs
  | .fault f => .fault f
  | .refused x => .refused x

/-- One step: the host's next command runs, or the block waits; whatever fault bits the SMMU has set meanwhile (R29, R43;
log 5) stand in the state the step leaves, those set after the command's last access among them. -/
def step (s : State) : Host.Outcome State Fault Refusal := andSmmuActs (issueNext s)

/-- The host's element for a frame of numbers. -/
def commandOfFrame (f : Frame) : HostCommand := ⟨f.cw, .lit f.opa, .lit f.opb, false⟩

/-- A list with element `n` replaced by `x`, or, where the list is too short, filled up with `x` to hold it. -/
def putAt (x : HostCommand) : Nat → List HostCommand → List HostCommand
  | 0, [] => [x]
  | 0, _ :: cs => x :: cs
  | n + 1, [] => x :: putAt x n []
  | n + 1, c :: cs => c :: putAt x n cs

/-- `s` with the command whose bits are `w` placed where the host issues its next command from. -/
def State.withFetchWord (s : State) (nbits w : Nat) : State :=
  { s with program := putAt (commandOfFrame (frameOfBits nbits w)) s.position s.program }

end Sys2Proof.Machine
end

