-- ==== Sys2Proof/Machine/Pseudo.lean ====
section
/-! DEFINITION. The host's written form of a command and the four pseudo-commands (spec/30_encoding.md R98, R99):
lists of commands the host issues one after another. -/

namespace Sys2Proof.Machine

/-- A command as the host writes it (R98). -/
def commandOf (i : Instr) : HostCommand :=
  { cw := (encode i).cw, opa := .lit (encode i).opa, opb := .lit (encode i).opb, stopOnFailure := false }

/-- A command after which the host stops unless the status is `OK`. -/
def mustSucceed (c : HostCommand) : HostCommand := { c with stopOnFailure := true }

/-- `CB.DISABLE index` (R99). -/
def cbDisable (idx : Nat) : List HostCommand := [commandOf (.cbEnable idx false false false)]

/-- `CB.SETUP` (R99): the canonical order; the host stops at the first status other than `OK`. -/
def cbSetup (idx : Nat) (aw : AddrWidth) (attrTable : Word) (t0sz : BitVec 6) (innerCache outerCache shareability granule : BitVec 2)
    (asid : BitVec 16) (tableBase : Word) (faultReport faultInterrupt : Bool) : List HostCommand :=
  [commandOf (.cbAmode idx aw), commandOf (.cbMattr idx attrTable),
    commandOf (.cbTctrl idx t0sz innerCache outerCache shareability granule), commandOf (.cbTbase idx asid tableBase),
    commandOf (.cbEnable idx true faultReport faultInterrupt)].map mustSucceed

/-- `TT.MAP table, index, aw, oa` (R99): the built entry travels as `$d0`. -/
def ttMap (table : Word) (idx : Nat) (aw : AddrWidth) (outputAddress : Word) : List HostCommand :=
  [commandOf (.ttBuild aw 0#64 outputAddress), { commandOf (.ttWrite idx table 0#64) with opb := .d0 }]

/-- `SM.DISABLE index` (R99). -/
def smDisable (idx : Nat) : List HostCommand := [commandOf (.smCfg idx false 0#16 0#5 0#10)]

end Sys2Proof.Machine
end

