-- ==== Sys2Proof/Machine/Smmu.lean ====
section
/-! DEFINITION. What the written state means to the SMMU (spec/20_memory.md R70-R76). The block does none of this (R11):
these are readings of `State`, so that a claim can say what a configuration means. Where the source gives no answer the
reading says so by name and gives no value (assumption log 16). -/

namespace Sys2Proof.Machine

/-- R70: the stream identifier `tbu_number ∥ master_id` of a transaction. -/
def streamId (tbuNumber : BitVec 5) (masterId : BitVec 10) : BitVec 15 := tbuNumber ++ masterId

/-- R31: the valid bit of a stream-match register. -/
def smrValid (v : BitVec 32) : Bool := v.getLsbD 31

/-- R31: the mask field, bits 30:16. -/
def smrMask (v : BitVec 32) : BitVec 15 := v.extractLsb' 16 15

/-- R31: the TBU number and master id, bits 14:0. -/
def smrId (v : BitVec 32) : BitVec 15 := v.extractLsb' 0 15

/-- R70: an entry matches a stream when it is valid and the identifiers agree where the mask is zero. -/
def smrMatches (v : BitVec 32) (sid : BitVec 15) : Bool :=
  smrValid v && ((sid ^^^ smrId v) &&& ~~~smrMask v) == 0#15

/-- The entries that match a stream, ascending. -/
def matchingEntries (s : State) (sid : BitVec 15) : List (Fin 48) :=
  (indices 48).filter fun i => smrMatches (entryOf s.regs.smr i) sid

/-- What the source does not say (U1, U8, U10, U11, U14, U17, N15). -/
inductive NotInSource where
  /-- No valid entry matches the stream (U11). -/
  | unmatchedStream
  /-- Several valid entries match (U11). -/
  | severalEntriesMatch
  /-- A valid entry has bit 15 set, which only a mapped command can do: whether it matches is not in the source (R31, U8). -/
  | unassignedSmrBit
  /-- The fourth type code (U14). -/
  | reservedTypeCode
  /-- A context-bank index above 15, which only a mapped command can write (R32). -/
  | bankIndexOutOfRange
  /-- The bank was not brought up in canonical order, or was touched while enabled (R159, R248, R251, U1). -/
  | bankNotBroughtUp
  /-- The bank is not enabled in `CB_CTRL`; what its traffic meets is not in the source. -/
  | bankNotEnabled
  /-- The bank does not read 64-bit long descriptors; which bit says so is not in the source (N15). -/
  | shortDescriptors
  /-- The bank's regime is not the single-stage one whose walk R72 gives; no step of the sequencer writes `CBAR`, and its
  fields are not in the source (R36, R163, N13). -/
  | otherRegime
  /-- The codes of granule, cacheability and shareability in `CB_TCR` do not fit the walk of R72; what a code means is not in the
  source (U21, N34). -/
  | otherCodes
  /-- The bank selects the 64-bit format: the unresolved path (U4). -/
  | wide64Path
  /-- A translation made before the latest change may be cached (R249). -/
  | staleTranslation
  /-- `T0SZ` is greater than `max_width`, so that no region has the width `max_width - t0sz` (R75). -/
  | noRegion
  /-- The input address lies outside the region whose width is `max_width - t0sz` (R75). -/
  | outsideRegion
  /-- The region is smaller than the 4 GiB that the 4-entry table maps: the source ties the table to `t0sz = 0` (R75). -/
  | regionSmallerThanTable
  /-- The table slot was never written (U17). -/
  | unwrittenSlot
  /-- A descriptor that is not a block: no deeper table levels exist in this design (R72, R138). -/
  | notABlock
  /-- A block entry with a bit of 47:40 set, which the W32 format does not define (R250). -/
  | undefinedAddressBits
  /-- A block entry with a bit set that its format has zero: 29:12 or 52:48 (R73). -/
  | reservedDescriptorBits
deriving DecidableEq, Repr

/-- What the SMMU does with a stream (R71). -/
inductive Treatment where
  | throughBank (i : Fin 16)
  | untranslated
  | faulted
  | unspecified (why : NotInSource)
deriving DecidableEq, Repr

/-- R32: the type field of a stream-to-context register. -/
def s2crType (f : FieldMap) (v : BitVec 32) : BitVec 2 := v.extractLsb' f.s2crTypeLo 2

/-- R32: the context-bank index of a stream-to-context register. -/
def s2crCbndx (f : FieldMap) (v : BitVec 32) : BitVec 8 := v.extractLsb' f.s2crCbndxLo 8

/-- R71: the treatment a stream-to-context register decides. -/
def routeOf (f : FieldMap) (v : BitVec 32) : Treatment :=
  if s2crType f v = f.s2crCodeTranslate then
    if h : (s2crCbndx f v).toNat < 16 then .throughBank ⟨(s2crCbndx f v).toNat, h⟩ else .unspecified .bankIndexOutOfRange
  else if s2crType f v = f.s2crCodeBypass then .untranslated
  else if s2crType f v = f.s2crCodeFault then .faulted
  else .unspecified .reservedTypeCode

/-- R31, U8: some valid entry has the unassigned bit 15 set. A disabled entry matches nothing whatever its bits. -/
def unassignedBitInUse (s : State) : Bool :=
  (indices 48).any fun i => smrValid (entryOf s.regs.smr i) && (entryOf s.regs.smr i).getLsbD 15

/-- R70, R71, R35: the treatment of a stream. With bit 15 set in any valid entry, matching that stream or not by the
formula of R70, which entries match is not in the source (U8): the model's choice is to give no
treatment then (log 16). Of the global control only the bypass bit is read, the model's choice too: what the other bits of
`SCR0` and `SCR1` do is not in the source (N7, log 16). -/
def treatment (s : State) (sid : BitVec 15) : Treatment :=
  if s.bypassAll then .untranslated
  else if unassignedBitInUse s then .unspecified .unassignedSmrBit
  else match matchingEntries s sid with
    | [] => .unspecified .unmatchedStream
    | [i] => routeOf s.params.field (entryOf s.regs.s2cr i)
    | _ :: _ :: _ => .unspecified .severalEntriesMatch

/-- What a walk of one input address gives (R72, R76). -/
inductive WalkResult where
  | output (pa : Nat)
  /-- The entry is invalid (R72). -/
  | translationFault
  /-- The entry is a valid block and the access fails its permission check (R76). -/
  | permissionFault
  | unspecified (why : NotInSource)
deriving DecidableEq, Repr

/-- R73: valid, bit 0. -/
def entryValid (e : Word) : Bool := e.getLsbD 0

/-- R73: descriptor type, bit 1; clear for a block. -/
def entryIsBlock (e : Word) : Bool := !e.getLsbD 1

/-- R73: output address, bits 39:30 at W32 and 47:30 at W64. -/
def entryOutputAddr (aw : AddrWidth) (e : Word) : Nat := fieldOf e.toNat (outputAddrHi aw) 30

/-- R73, PRESUMED position: attribute index, bits 4:2. -/
def entryAttrIndex (e : Word) : BitVec 3 := e.extractLsb' 2 3

/-- R73, PRESUMED position: non-secure, bit 5. -/
def entryNonSecure (e : Word) : Bool := e.getLsbD 5

/-- R73, PRESUMED position: access permissions, bits 7:6. -/
def entryAccess (e : Word) : BitVec 2 := e.extractLsb' 6 2

/-- R73, PRESUMED position: shareability, bits 9:8. -/
def entryShareability (e : Word) : BitVec 2 := e.extractLsb' 8 2

/-- R73, PRESUMED position: access flag, bit 10. -/
def entryAccessFlag (e : Word) : Bool := e.getLsbD 10

/-- R73, PRESUMED position: not-global, bit 11. -/
def entryNotGlobal (e : Word) : Bool := e.getLsbD 11

/-- R73, PRESUMED position: bits 29:12, zero in a 1 GiB block. -/
def entryBlockZero (e : Word) : BitVec 18 := e.extractLsb' 12 18

/-- R73, PRESUMED position: the reserved bits, zero: 52:40 at W32, 52:48 at W64. -/
def entryReserved (aw : AddrWidth) (e : Word) : Nat := fieldOf e.toNat 52 (outputAddrHi aw + 1)

/-- R73, PRESUMED position: privileged execute-never, bit 53. -/
def entryPrivilegedExecuteNever (e : Word) : Bool := e.getLsbD 53

/-- R73, PRESUMED position: execute-never, bit 54. -/
def entryExecuteNever (e : Word) : Bool := e.getLsbD 54

/-- R73, PRESUMED position: the bits software may use or that are ignored, 63:55. -/
def entryIgnored (e : Word) : BitVec 9 := e.extractLsb' 55 9

/-- R33, R156: the table base a bank walks from. -/
def tableBaseOf (s : State) (i : Fin 16) : Nat :=
  fieldOf (entryOf s.regs.banks i).ttbr.toNat s.params.field.ttbrAddrHi 12 <<< 12

/-- R72: the address of the entry that translates a 32-bit input address. -/
def walkAddr (s : State) (i : Fin 16) (va : BitVec 32) : Nat := tableBaseOf s i + 8 * fieldOf va.toNat 31 30

/-- R72: the output address of a block entry for an input address. -/
def blockOutput (e : Word) (va : BitVec 32) : Nat := (entryOutputAddr .w32 e <<< 30) ||| fieldOf va.toNat 29 0

/-- R33: the bank's enable bit in `CB_CTRL`. -/
def ctrlEnabled (s : State) (i : Fin 16) : Bool := (entryOf s.regs.banks i).ctrl.getLsbD s.params.field.ctrlMBit

/-- R33: the bank's format bit in `CBA2R`. -/
def formatIsW64 (s : State) (i : Fin 16) : Bool := (entryOf s.regs.cba2r i).getLsbD s.params.field.cba2rVa64Bit

/-- R75: `max_width`, 32 at W32 and 64 at W64 (D34). -/
def maxWidth : AddrWidth → Nat
  | .w32 => 32
  | .w64 => 64

/-- R75: the width of the translated region, `max_width - t0sz`. The source gives no width for a `t0sz` greater than
`max_width`, and the model takes none: `none` (DESIGN CHOICE, log 16). -/
def vaWidth (aw : AddrWidth) (t0sz : Nat) : Option Nat :=
  if t0sz ≤ maxWidth aw then some (maxWidth aw - t0sz) else none

/-- R33: the bank's `T0SZ`, in `CB_TCR`. -/
def t0szOf (s : State) (i : Fin 16) : Nat :=
  fieldOf (entryOf s.regs.banks i).tcr.toNat (s.params.field.tcrT0szLo + s.params.field.t0szW - 1) s.params.field.tcrT0szLo

/-- R75: the width of the region a bank translates, from its format and its `T0SZ`. -/
def regionWidth (s : State) (i : Fin 16) : Option Nat := vaWidth (addrWidthOfBit (formatIsW64 s i)) (t0szOf s i)

/-- What a claim about translation brings along because the state does not hold it. Each is a premise of the spec or of
this reading (log 16), never a fact of the machine. -/
structure WalkPremises where
  /-- The bank was brought up canonically and not touched while enabled (R159, R248, R251, U1): `soundlyEnabled` in
  Safety.lean says it of a history. -/
  broughtUp : Bool
  /-- The bank's translation regime is the single-stage one whose walk R72 gives. What says so is `CBAR` (and perhaps
  `CB_TCR2`), which no step of the sequencer writes and whose fields are not in the source (R8, R36, R163, N13). -/
  singleStage : Bool
  /-- The codes of granule, cacheability and shareability in `CB_TCR` let the bank walk a 4 KiB-aligned table of 8-byte entries as
  the block wrote it. What a code means is not in the source (U21, N34), nor the cacheability of table memory (N12). -/
  codesFit : Bool
  /-- "The bank reads 64-bit descriptors": no command writes the bit that selects them (N15). -/
  longDescriptors : Bool
  /-- The access passes the permission check of a valid entry, whose conditions are not in the source (R76). -/
  permitted : Bool
deriving DecidableEq, Repr

/-- R72, R76: what the entry read for an input address gives: the slot's content, if anything was ever written there. -/
def walkEntry (pre : WalkPremises) (slot : Option Word) (va : BitVec 32) : WalkResult :=
  match slot with
  | none => .unspecified .unwrittenSlot
  | some e =>
      if !entryValid e then .translationFault
      else if !entryIsBlock e then .unspecified .notABlock
      else if fieldOf e.toNat 47 40 ≠ 0 then .unspecified .undefinedAddressBits
      else if entryBlockZero e ≠ 0#18 ∨ entryReserved .w64 e ≠ 0 then .unspecified .reservedDescriptorBits
      else if !pre.permitted then .permissionFault
      else .output (blockOutput e va)

/-- R72: translate an input address through a bank, given the premises. Where a premise or the source is missing the answer
is `unspecified`, by name: a region other than the whole 4 GiB (R75), a stale cache (R249), bits of a descriptor that its
format does not define (R250, R73). That the bank's regime is the single-stage one, whatever `CBAR` and `CB_TCR2` hold
(N13), that the codes in `CB_TCR` fit it (U21), that the bank reads long descriptors (N15), and whether a valid block ends
in a permission failure (R76), are premises. These are the model's choices (DESIGN CHOICE, log 16). -/
def walk (pre : WalkPremises) (s : State) (i : Fin 16) (va : BitVec 32) : WalkResult :=
  if !pre.broughtUp then .unspecified .bankNotBroughtUp
  else if !ctrlEnabled s i then .unspecified .bankNotEnabled
  else if formatIsW64 s i then .unspecified .wide64Path
  else if !pre.singleStage then .unspecified .otherRegime
  else if !pre.codesFit then .unspecified .otherCodes
  else if !pre.longDescriptors then .unspecified .shortDescriptors
  else if s.tlb.secureMayBeStale || s.tlb.nonSecureMayBeStale then .unspecified .staleTranslation
  else match regionWidth s i with
    | none => .unspecified .noRegion
    | some w =>
        if 2 ^ w ≤ va.toNat then .unspecified .outsideRegion
        else if w ≠ 32 then .unspecified .regionSmallerThanTable
        else walkEntry pre (s.tableMem.read64 (walkAddr s i va)) va

end Sys2Proof.Machine
end

