-- ==== Sys2Proof/Safety.lean ====
section
/-! DEFINITION. What counts as a safe run: predicates over the command history, which the block does not check and claims
about translation take as premises (spec/42_context_bank_sequencer.md R160; spec/70_reset_and_hazards.md R243-R259), and
the access list each command owes (spec/20_memory.md R60). -/

namespace Sys2Proof

open Sys2Proof.Machine

/-- A step that goes on: no fault, no refusal. -/
def Safety.goesOn (r : Host.Outcome State Fault Refusal) : Bool :=
  match r with
  | .next _ => true
  | .fault _ => false
  | .refused _ => false

/-- Who issued a command: an initialization path, by number, or the fault interrupt handler (R227, R228, R255). The
block cannot tell them apart, so this is no part of `State`. -/
inductive Issuer where
  | initPath (n : Nat)
  | handler
deriving DecidableEq, Repr

/-- A command of the history: the status it got, who issued it, and whether the fault interrupt was live then (R254). -/
structure Event where
  instr : Instr
  status : Status
  issuer : Issuer
  live : Bool
deriving DecidableEq, Repr

/-- A history: commands with their statuses, oldest first. -/
abbrev History := List Event

/-- The commands that succeeded. -/
def History.done (h : History) : List Instr := (h.filter fun e => e.status = .ok).map (·.instr)

/-! ## Canonical bring-up (R160) -/

/-- The sequencer's steps on a bank (R151's columns). -/
inductive SeqStep where
  | amode
  | mattr
  | tctrl
  | tbase
  | enable
  | disable
deriving DecidableEq, Repr

/-- The sequencer step a command makes on a bank. -/
def seqStepOn (bank : Nat) (i : Instr) : Option SeqStep :=
  match i with
  | .cbAmode idx _ => if idx = bank then some .amode else none
  | .cbMattr idx _ => if idx = bank then some .mattr else none
  | .cbTctrl idx _ _ _ _ _ => if idx = bank then some .tctrl else none
  | .cbTbase idx _ _ => if idx = bank then some .tbase else none
  | .cbEnable idx en _ _ => if idx = bank then some (if en then .enable else .disable) else none
  | _ => none

/-- The sequencer steps on a bank that succeeded, oldest first. -/
def History.stepsOn (h : History) (bank : Nat) : List SeqStep := h.done.filterMap (seqStepOn bank)

/-- The steps since the most recent disable. -/
def sinceDisable (steps : List SeqStep) : List SeqStep :=
  steps.foldl (fun acc x => if x = .disable then [] else acc ++ [x]) []

/-- The canonical order of §4.4 (R19, R160). -/
def canonicalOrder : List SeqStep := [.amode, .mattr, .tctrl, .tbase, .enable]

/-- R160: the successful sequencer commands on the bank, since reset or its last disable, are exactly the five
canonical ones, in order, each once. -/
def canonicallyEnabled (bank : Nat) (h : History) : Bool :=
  sinceDisable (h.stepsOn bank) == canonicalOrder

/-- R151: the cells marked c, the canonical path; `none` off it. A disable starts over (R160). -/
def canonicalCell (st : CbState) (x : SeqStep) : Option CbState :=
  match st, x with
  | .disabled, .amode => some .addressModeSet
  | .addressModeSet, .mattr => some .attributesSet
  | .attributesSet, .tctrl => some .translationControlSet
  | .translationControlSet, .tbase => some .tableBaseSet
  | .tableBaseSet, .enable => some .enabled
  | _, _ => none

/-- The path through the cells marked c: where it stands, or `none` once it has left them; a disable starts over. -/
def canonicalPath (steps : List SeqStep) : Option CbState :=
  steps.foldl (fun st x => if x = .disable then some .disabled else st.bind fun c => canonicalCell c x) (some .disabled)

/-! ## Hazards (R246-R259) -/

/-- R247: a table is zeroed before an entry is written to it; `zeroed` are the tables zeroed so far. -/
def tablesZeroed (zeroed : List Word) : List Instr → Bool
  | [] => true
  | .ttZero t :: is => tablesZeroed (t :: zeroed) is
  | .ttWrite _ t _ :: is => zeroed.contains t && tablesZeroed zeroed is
  | _ :: is => tablesZeroed zeroed is

/-- The register bytes a mapped command touches: address and size. -/
def mappedTarget (p : Params) : Instr → Option (Nat × Nat)
  | .sbrM sz _ _ offset _ => (widthOf sz).map fun n => (p.map.iommuBase + offset.toNat, n / 8)
  | .sbM sz _ offset _ => (widthOf sz).map fun n => (p.map.iommuBase + offset.toNat, n / 8)
  | _ => none

/-- Whether a mapped command touches a register of the given kind. -/
def mappedTouches (p : Params) (bad : RegRef → Bool) (i : Instr) : Bool :=
  match mappedTarget p i with
  | none => false
  | some (a, n) => (List.range n).any fun k => (registerOfByte p (a + k)).any bad

/-- The bit range a mapped command writes: high bit, low bit and value. -/
def mappedField : Instr → Option (Nat × Nat × Word)
  | .sbrM _ hi lo _ v => some (hi, lo, v)
  | .sbM _ bit _ v => some (bit, bit, v)
  | _ => none

/-- The value a mapped command's field puts into bit `b` of register `r`, whatever the access's width; `none` where the
field does not cover that bit. Bits are counted little-endian through the address space (R57). -/
def mappedBit (p : Params) (r : RegRef) (b : Nat) (i : Instr) : Option Bool :=
  match mappedTarget p i, mappedField i with
  | some (a, _), some (hi, lo, v) =>
      if 8 * a + lo ≤ 8 * regAddr p r + b ∧ 8 * regAddr p r + b ≤ 8 * a + hi then
        some (v.getLsbD (8 * regAddr p r + b - (8 * a + lo)))
      else none
  | _, _ => none

/-- What a command, a mapped one too, does to stream-match entry `i`: nothing (`none`), or programs it, and then the valid
bit it leaves if it writes that bit. `SM.RESETALL` is apart. -/
def programsEntry (p : Params) (i : Fin 48) (c : Instr) : Option (Option Bool) :=
  match c with
  | .smCfg idx valid _ _ _ => if idx = i.val then some (some valid) else none
  | _ => if mappedTouches p (fun r => r == .smr i) c then some (mappedBit p (.smr i) 31 c) else none

/-- A command makes the policy active: it clears the bypass bit of `SCR0` (R35). A configuration ends there (R230, R243), and
what programs the stream-match table later reprograms it. -/
def activatesPolicy (p : Params) (c : Instr) : Bool := mappedBit p .scr0 p.field.scr0BypassBit c == some false

/-- R246 for entry `i`: it is programmed only while the table has been cleared for the present configuration (`cleared`) and
the entry has not been made valid since (`valid`). Disabling an entry leaves nothing stale and is free. -/
def entryClearedFirst (p : Params) (i : Fin 48) (cleared valid : Bool) : List Instr → Bool
  | [] => true
  | .smResetall :: is => entryClearedFirst p i true false is
  | c :: is =>
      match programsEntry p i c with
      | none => entryClearedFirst p i (cleared && !activatesPolicy p c) valid is
      | some (some false) => entryClearedFirst p i cleared false is
      | some v => cleared && !valid && entryClearedFirst p i cleared (v == some true) is

/-- R246: the stream-match table is cleared before it is programmed, and again before each reprogramming, whether by `SM.CFG` or
by mapped commands. When a reprogramming begins is the model's reading (log 21). -/
def matchTableCleared (p : Params) (is : List Instr) : Bool :=
  (indices 48).all fun i => entryClearedFirst p i false false is

/-- R249: whether a command changes a table or a table base, by a mapped update too. -/
def changesTable (p : Params) (i : Instr) : Bool :=
  match i with
  | .ttWrite _ _ _ => true
  | .ttZero _ => true
  | .cbTbase _ _ _ => true
  | _ => mappedTouches p (fun r => match r with | .cbTtbr _ => true | _ => false) i

/-- R249: an invalidation follows the last change of a table or a table base. -/
def invalidatedAfterChange (p : Params) (is : List Instr) : Bool :=
  is.foldl (fun ok i => if changesTable p i then false else if i = .frTlbiall then true else ok) true

/-- R250: a descriptor is built with the width of the bank that walks it. -/
def builtFor (aw : AddrWidth) : Instr → Bool
  | .ttBuild w _ _ => w == aw
  | _ => true

/-- The bank whose sequencer owns a register (R33, R251). -/
def ownerBank : RegRef → Option (Fin 16)
  | .cba2r i => some i
  | .cbCtrl i => some i
  | .cbAttr0 i => some i
  | .cbAttr1 i => some i
  | .cbTcr i => some i
  | .cbTtbr i => some i
  | _ => none

/-- The bank a register of a bank's set-up belongs to: the sequencer's registers and the two that only mapped commands reach
(R36, R163). The fault registers of a bank are no part of its set-up. -/
def setUpBank : RegRef → Option (Fin 16)
  | .cbar i => some i
  | .cbTcr2 i => some i
  | r => ownerBank r

/-- R251: a mapped command does not touch a sequencer-owned register of an enabled bank. -/
def respectsEnabledBanks (s : State) (i : Instr) : Bool :=
  !mappedTouches s.params (fun r => (ownerBank r).any fun b => s.bankState b == .enabled) i

/-- R251: a mapped command does not set the enable bit of any bank's `CB_CTRL`, whatever the bank's state. -/
def leavesEnableBits (p : Params) (i : Instr) : Bool :=
  (indices 16).all fun b => mappedBit p (.cbCtrl b) p.field.ctrlMBit i != some true

/-- R252: a mapped command does not touch a W1C or WTRIG register. -/
def respectsFaultRegisters (p : Params) (i : Instr) : Bool :=
  !mappedTouches p (fun r => r.regClass == .w1c || r.regClass == .wtrig) i

/-- R227, R253: after the global snapshot, per-bank snapshots, then one clear, then return. -/
def handlerTail : List Instr → Bool
  | [.frClearall] => true
  | .frSnapc _ :: is => handlerTail is
  | _ => false

/-- R227, R253: a run of the handler: snapshot first (`FR.SNAPG`, then `FR.SNAPC` of the banks it cares about), then
`FR.CLEARALL`, and nothing else. -/
def handlerBody : List Instr → Bool
  | .frSnapg :: is => handlerTail is
  | _ => false

/-- R254, R227: a bank is part-way through its sequence. -/
def midSequence (s : State) : Bool :=
  (indices 16).any fun b => s.bankState b != .disabled && s.bankState b != .enabled

/-- R254, R227: by the history, a bank is part-way through its sequence: its latest successful step is a configuration
step. -/
def partWay (h : History) (bank : Nat) : Bool :=
  match (h.stepsOn bank).getLast? with
  | none => false
  | some .enable => false
  | some .disable => false
  | some _ => true

/-- R254: the handler does not run while a bank is part-way through its sequence; `past` is what came before. -/
def handlerWaits (past : History) : History → Bool
  | [] => true
  | e :: h =>
      (e.issuer != .handler || (indices 16).all fun b => !partWay past b.val) && handlerWaits (past ++ [e]) h

/-- R228: the commands that are the handler's once interrupts are live: the two snapshots and the clear. -/
def handlersOwn : Instr → Bool
  | .frSnapg => true
  | .frSnapc _ => true
  | .frClearall => true
  | _ => false

/-- R254, R227: the handler reconfigures nothing: it issues only snapshots and the clear. -/
def handlerOnlyReports (h : History) : Bool := h.all fun e => e.issuer != .handler || handlersOwn e.instr

/-- R254: no initialization path issues the fault-clear command once interrupts are live. -/
def clearsAreTheHandlers (h : History) : Bool := h.all fun e => !e.live || e.instr != .frClearall || e.issuer == .handler

/-- R228, D32: the two writer roles. The initialization path issues every command, except that the two snapshots and the
clear are the handler's once interrupts are live; the handler issues nothing else, and nothing before; and no mapped command
of the initialization path touches a fault register, which the handler alone clears, once interrupts are live. -/
def writerRoles (p : Params) (h : History) : Bool :=
  handlerOnlyReports h
    && h.all fun e =>
        if e.issuer = .handler then e.live
        else !e.live || (!handlersOwn e.instr && !mappedTouches p (fun r => r.regClass == .w1c) e.instr)

/-- R255: one owner per bank during set-up; `owner` is who made the latest step of a sequence that is not over. -/
def oneOwner (bank : Nat) (owner : Option Issuer) : History → Bool
  | [] => true
  | e :: h =>
      match if e.status = .ok then seqStepOn bank e.instr else none with
      | none => oneOwner bank owner h
      | some x =>
          (owner == none || owner == some e.issuer)
            && oneOwner bank (if x = .enable ∨ x = .disable then none else some e.issuer) h

/-- R256: a table address can be given to a bank. -/
def tableCanBeWalked (t : Word) : Bool := t.toNat % 4096 == 0

/-- R137, R256: two tables do not overlap. -/
def tablesDisjoint (t u : Word) : Bool := decide (t.toNat + 32 ≤ u.toNat) || decide (u.toNat + 32 ≤ t.toNat)

/-- R257, R258: the operands of a command fit the fields they go to, so that nothing is cut off silently. -/
def operandsFit (f : FieldMap) (aw : AddrWidth) : Instr → Bool
  | .ttBuild w _ oa => decide (oa.toNat < 2 ^ (outputAddrHi w - 29))
  | .cbTctrl _ t0sz _ _ _ _ => decide (t0sz.toNat < 2 ^ f.t0szW)
  | .cbTbase _ asid base => decide (asid.toNat < 2 ^ asidWidth f aw) && decide (base.toNat < 2 ^ (f.ttbrAddrHi + 1))
  | .smCfg _ _ mask _ _ => !mask.getLsbD 15
  | .sbrI _ hi lo _ v => decide (v.toNat < 2 ^ (hi - lo + 1))
  | .sbrM _ hi lo _ v => decide (v.toNat < 2 ^ (hi - lo + 1))
  | .sbI _ _ _ v => decide (v.toNat < 2)
  | .sbM _ _ _ v => decide (v.toNat < 2)
  | _ => true

/-- R259: no valid stream entry routes to the bank. -/
def bankUnrouted (s : State) (b : Fin 16) : Bool :=
  (indices 48).all fun i =>
    !(smrValid (entryOf s.regs.smr i)) || routeOf s.params.field (entryOf s.regs.s2cr i) != .throughBank b

/-- R259: a command disables or reconfigures a bank: a configuration step, a disable, or a mapped update of a register of
the bank's set-up, in whatever state the bank is. -/
def reconfigures (p : Params) (b : Fin 16) (i : Instr) : Bool :=
  match seqStepOn b.val i with
  | some .enable => false
  | some _ => true
  | none => mappedTouches p (fun r => setUpBank r == some b) i

/-- R259: a command does not disable or reconfigure a bank that streams still route to. The rule's exception, that bypass or
fault treatment of those streams is acceptable meanwhile, is for the claim that takes this as a premise to grant. -/
def respectsRouting (s : State) (i : Instr) : Bool :=
  (indices 16).all fun b => !reconfigures s.params b i || bankUnrouted s b

/-- Where a bank stands between being disabled and being enabled again (R259). -/
inductive Reenabling where
  | neverEnabled
  | enabledOnce
  | down
  | mustInvalidate
deriving DecidableEq, Repr

/-- R259: what a command makes of it: re-enabling a bank that was enabled before asks for an invalidation. -/
def Reenabling.next (bank : Nat) (st : Reenabling) (i : Instr) : Reenabling :=
  match st, seqStepOn bank i, decide (i = .frTlbiall) with
  | .neverEnabled, some .enable, _ => .enabledOnce
  | .enabledOnce, some .disable, _ => .down
  | .mustInvalidate, some .disable, _ => .down
  | .down, some .enable, _ => .mustInvalidate
  | .mustInvalidate, _, true => .enabledOnce
  | st, _, _ => st

/-- R259: after re-enabling, an invalidation has followed. -/
def invalidatedAfterReenabling (bank : Nat) (is : List Instr) : Bool :=
  is.foldl (Reenabling.next bank) .neverEnabled != .mustInvalidate

/-! ## The premises of a claim about translation (R159, R248, R251, R259, U1) -/

/-- U1, R251: since its last disable, a mapped command has touched a sequencer-owned register of the bank while it was
enabled, or has set its enable bit; `enabled` and `touched` say how it stood before the list. -/
def touchedWhileEnabled (p : Params) (bank : Fin 16) (enabled touched : Bool) : List Instr → Bool
  | [] => touched
  | i :: is =>
      match seqStepOn bank.val i with
      | some .disable => touchedWhileEnabled p bank false false is
      | some .enable => touchedWhileEnabled p bank true touched is
      | _ =>
          touchedWhileEnabled p bank enabled
            (touched || (enabled && mappedTouches p (fun r => ownerBank r == some bank) i)
              || mappedBit p (.cbCtrl bank) p.field.ctrlMBit i == some true) is

/-- R159, U1: the bank was brought up canonically, was not touched behind the sequencer's back, and an invalidation has
followed its re-enabling. -/
def soundlyEnabled (p : Params) (bank : Fin 16) (h : History) : Bool :=
  canonicallyEnabled bank.val h && !touchedWhileEnabled p bank false false h.done && invalidatedAfterReenabling bank.val h.done

/-- Right after a reset. The block's own state is as R44 leaves it; the SMMU was reset with it, so everything is bypassed
(R45) and no bank was kept enabled (R241). The registers and memory hold anything else (R45, R46). -/
structure AtReset (s : State) : Prop where
  banks : ∀ i : Fin 16, s.bankState i = .disabled ∧ s.bankAw i = .w32
  response : s.rsp = ⟨Status.ok.code, 0#64, 0#64, 0#64⟩
  bypass : s.bypassAll = true
  noneKept : ∀ i : Fin 16, ctrlEnabled s i = false

/-- `HistoryOf h s`: the commands `h` lead from a reset to `s`, by steps of the machine. A waiting step and a header that is
no command add nothing to the history. -/
inductive HistoryOf : History → State → Prop where
  | reset (s : State) (fresh : AtReset s) : HistoryOf [] s
  | noCommand (h : History) (s t : State) (past : HistoryOf h s) (run : step s = .next t)
      (none : ∀ c i, s.nextCommand = some c → decode (s.load c).frame ≠ .ok i) : HistoryOf h t
  | command (h : History) (s t : State) (c : HostCommand) (e : Event) (past : HistoryOf h s) (run : step s = .next t)
      (issued : s.nextCommand = some c) (decoded : decode (s.load c).frame = .ok e.instr)
      (answered : t.rsp.status = e.status.code) : HistoryOf (h ++ [e]) t

/-! ## The boot order (R243) -/

/-- R243, row 4: the two registers of a bank that mapped updates set up in a boot. -/
def setUpByMapped : RegRef → Bool
  | .cbar _ => true
  | .cbTcr2 _ => true
  | _ => false

/-- R243: in a boot, mapped commands update `CBAR` and `CB_TCR2` (row 4) and the global control (row 9), and no register that
the other rows give to a command of its own. -/
def bootMapped (p : Params) (i : Instr) : Bool :=
  !mappedTouches p (fun r => !(setUpByMapped r || r == .scr0 || r == .scr1)) i

/-- R243: the boot step a mapped command belongs to: 9 if it clears the bypass bit of `SCR0`, 4 if it updates `CBAR` or
`CB_TCR2`; no step otherwise, so not if it sets the bypass bit. -/
def mappedBootStep (p : Params) (i : Instr) : Option Nat :=
  if mappedBit p .scr0 p.field.scr0BypassBit i = some false then some 9
  else if mappedTouches p setUpByMapped i then some 4
  else none

/-- R243: the boot step a command belongs to. A command that disables a bank or a stream entry, a snapshot and an image
command belong to none. -/
def bootStep (p : Params) (i : Instr) : Option Nat :=
  match i with
  | .frClearall => some 1
  | .smResetall => some 2
  | .ttZero _ => some 3
  | .ttBuild _ _ _ => some 3
  | .ttWrite _ _ _ => some 3
  | .cbAmode _ _ => some 4
  | .cbMattr _ _ => some 4
  | .cbTctrl _ _ _ _ _ _ => some 4
  | .cbTbase _ _ _ => some 4
  | .frTlbiall => some 5
  | .cbEnable _ en _ _ => if en then some 6 else none
  | .s2cCfg _ _ _ => some 7
  | .smCfg _ valid _ _ _ => if valid then some 8 else none
  | .sbrM _ _ _ _ _ => mappedBootStep p i
  | .sbM _ _ _ _ => mappedBootStep p i
  | .sbrI _ _ _ _ _ => none
  | .sbI _ _ _ _ => none
  | .frSnapg => none
  | .frSnapc _ => none

/-- R243: the steps every boot makes; the others are "for each" table, bank or stream. -/
def requiredBootSteps : List Nat := [1, 2, 5, 9]

/-- R243, step 3: each entry that is written was built before; `built` are the entries built so far. -/
def entriesBuilt (p : Params) (built : List Word) : List Instr → Bool
  | [] => true
  | .ttBuild aw flags oa :: is => entriesBuilt p (buildEntry p.template aw flags oa :: built) is
  | .ttWrite _ _ e :: is => built.contains e && entriesBuilt p built is
  | _ :: is => entriesBuilt p built is

/-- The table a command writes to. -/
def tableOf : Instr → Option Word
  | .ttWrite _ t _ => some t
  | .ttZero t => some t
  | _ => none

/-- R137, R256: any two tables of a list of commands are the same or do not overlap. -/
def tablesApart (is : List Instr) : Bool :=
  (is.filterMap tableOf).all fun t => (is.filterMap tableOf).all fun u => t == u || tablesDisjoint t u

/-- R243, step 3: no table is zeroed again once an entry is written to it; `written` are the tables written so far. -/
def zeroedFirst (written : List Word) : List Instr → Bool
  | [] => true
  | .ttZero t :: is => !written.contains t && zeroedFirst written is
  | .ttWrite _ t _ :: is => zeroedFirst (t :: written) is
  | _ :: is => zeroedFirst written is

/-- R243, step 3: the table at `t` was zeroed, and an entry was written to it. -/
def tableMade (is : List Instr) (t : Word) : Bool :=
  is.contains (.ttZero t) && is.any fun i => match i with | .ttWrite _ u _ => u == t | _ => false

/-- R243, steps 3, 4 and 6, for a bank: it was brought up canonically, over a table that was made. -/
def bankMade (is : List Instr) (b : Nat) : Bool :=
  sinceDisable (is.filterMap (seqStepOn b)) == canonicalOrder
    && is.all fun i => match i with | .cbTbase idx _ base => idx != b || tableMade is base | _ => true

/-- The valid bit an `SM.CFG` gives stream entry `i`. -/
def validSetOn (i : Nat) : Instr → Option Bool
  | .smCfg idx valid _ _ _ => if idx = i then some valid else none
  | _ => none

/-- The treatment an `S2C.CFG` gives stream entry `i`: the kind and the bank index. -/
def routeSetOn (i : Nat) : Instr → Option (StreamKind × Nat)
  | .s2cCfg idx kind cbndx => if idx = i then some (kind, cbndx.toNat) else none
  | _ => none

/-- R243, steps 7 and 8, for a stream entry: what makes it valid and what routes it come together, and the bank it is
routed through, if any, was made. -/
def streamMade (is : List Instr) (i : Nat) : Bool :=
  match (is.filterMap (routeSetOn i)).getLast? with
  | none => (is.filterMap (validSetOn i)).getLast? != some true
  | some (kind, b) => (is.filterMap (validSetOn i)).getLast? == some true && (kind != .translate || bankMade is b)

/-- R243: the successful commands `is` of a boot: the steps come in order, none of those required is missing, every table is
zeroed before it is written and not again afterwards, written with built entries, and apart from the others, every bank
that is set up is brought up canonically over a table made, every stream is both routed and made valid, to a bank made, no
mapped command does what another row's command does, and the bypass bit is clear in the end. -/
def bootOrdered (p : Params) (is : List Instr) : Bool :=
  decide (List.Pairwise (· ≤ ·) (is.filterMap (bootStep p)))
    && requiredBootSteps.all (fun k => (is.filterMap (bootStep p)).contains k)
    && tablesZeroed [] is && zeroedFirst [] is && tablesApart is && entriesBuilt p [] is
    && ((indices 16).all fun b => (is.filterMap (seqStepOn b.val)).isEmpty || bankMade is b.val)
    && ((indices 48).all fun i => streamMade is i.val)
    && is.all (bootMapped p)
    && (is.filterMap (mappedBit p .scr0 p.field.scr0BypassBit)).getLast? == some false

/-! ## The accesses each command owes (R60) -/

/-- An access without its value. -/
structure AccessShape where
  kind : AccessKind
  addr : Nat
  bytes : Nat
deriving DecidableEq, Repr

/-- The shape of an access. -/
def shapeOf (a : Access) : AccessShape := ⟨a.kind, a.addr, a.bytes⟩

/-- A read of a register. -/
def readOf (p : Params) (r : RegRef) : AccessShape := ⟨.regRead, regAddr p r, regBytes p r⟩

/-- A write of a register. -/
def writeOf (p : Params) (r : RegRef) : AccessShape := ⟨.regWrite, regAddr p r, regBytes p r⟩

/-- A read and a write of the same register. -/
def updateOf (p : Params) (r : RegRef) : List AccessShape := [readOf p r, writeOf p r]

/-- A read and a write of the same bytes. -/
def mappedShapes (p : Params) (sz : SizeCode) (offset : Word) : List AccessShape :=
  match widthOf sz with
  | none => []
  | some n =>
      [⟨.regRead, p.map.iommuBase + offset.toNat, n / 8⟩, ⟨.regWrite, p.map.iommuBase + offset.toNat, n / 8⟩]

/-- The accesses of a bank's command; none for an index that names no bank. -/
def onBank (idx : Nat) (f : Fin 16 → List AccessShape) : List AccessShape := if h : idx < 16 then f ⟨idx, h⟩ else []

/-- The accesses of a stream entry's command; none for an index that names no entry. -/
def onEntry (idx : Nat) (f : Fin 48 → List AccessShape) : List AccessShape := if h : idx < 48 then f ⟨idx, h⟩ else []

/-- R60: the accesses of each command that succeeds, in order. -/
def owedAccesses (p : Params) : Instr → List AccessShape
  | .sbrI _ _ _ _ _ => []
  | .sbI _ _ _ _ => []
  | .sbrM sz _ _ offset _ => mappedShapes p sz offset
  | .sbM sz _ offset _ => mappedShapes p sz offset
  | .ttBuild _ _ _ => []
  | .ttWrite idx t _ => [⟨.memWrite, t.toNat + 8 * idx, 8⟩]
  | .ttZero t => (List.range 4).map fun k => ⟨.memWrite, t.toNat + 8 * k, 8⟩
  | .cbAmode idx _ => onBank idx fun i => updateOf p (.cba2r i)
  | .cbMattr idx _ => onBank idx fun i => [writeOf p (.cbAttr0 i), writeOf p (.cbAttr1 i)]
  | .cbTctrl idx _ _ _ _ _ => onBank idx fun i => updateOf p (.cbTcr i)
  | .cbTbase idx _ _ => onBank idx fun i => updateOf p (.cbTtbr i)
  | .cbEnable idx _ _ _ => onBank idx fun i => updateOf p (.cbCtrl i)
  | .smCfg idx _ _ _ _ => onEntry idx fun i => [writeOf p (.smr i)]
  | .smResetall => (indices 48).map fun i => writeOf p (.smr i)
  | .s2cCfg idx _ _ => onEntry idx fun i => updateOf p (.s2cr i)
  | .frSnapg => [readOf p .gfsr, readOf p .gfar]
  | .frSnapc idx => onBank idx fun i => [readOf p (.cbFsr i), readOf p (.cbFar i), readOf p (.cbFsynr i)]
  | .frClearall =>
      [writeOf p .gfsr, writeOf p .gfsynr, writeOf p .gfar]
        ++ (indices 16).flatMap (fun i => [writeOf p (.cbFsr i), writeOf p (.cbFsynr i), writeOf p (.cbFar i)])
        ++ [writeOf p .topIsr]
  | .frTlbiall => [writeOf p .tlbiS, writeOf p .tlbiNs]

end Sys2Proof
end

