-- ==== Sys2Proof/Certificates/Slice0/Obligations.lean ====
section
/-! DEFINITION. The statements for the provers, one `def Obligations.<Name> : Prop` each. Where a statement rests on a
choice of the model or of the spec, its docstring says so. -/

namespace Sys2Proof.Claim

open Sys2Proof.Machine

/-! ## Words the statements share -/

/-- The width N a legal width code selects (R85). -/
def HasWidth (sz : SizeCode) (n : Nat) : Prop :=
  (sz = .w16 ∧ n = 16) ∨ (sz = .w32 ∧ n = 32) ∨ (sz = .w64 ∧ n = 64)

/-- The state a failure leaves: the status code, zero data words, nothing else (R216). -/
def failed (code : BitVec 4) (s : State) : State := { s with rsp := ⟨code, 0#64, 0#64, 0#64⟩ }

/-- Bit `p` of an `n`-bit image after the field `hi:lo` took the value (R110). -/
def updatedBit (n hi lo : Nat) (image value : Word) (p : Nat) : Bool :=
  if lo ≤ p ∧ p ≤ hi then value.getLsbD (p - lo) else decide (p < n) && image.getLsbD p

/-- The command registers, the host's list and position, and the parameters are unchanged. -/
structure SameHost (s t : State) : Prop where
  cw : t.cw = s.cw
  opa : t.opa = s.opa
  opb : t.opb = s.opb
  program : t.program = s.program
  position : t.position = s.position
  params : t.params = s.params

/-- Every byte of table memory reads as before. -/
def SameMemory (s t : State) : Prop := ∀ a : Nat, t.tableMem.read a = s.tableMem.read a

/-- Every register but the listed ones reads as before. -/
def SameRegsBut (rs : List RegRef) (s t : State) : Prop := ∀ q : RegRef, q ∉ rs → t.regs.get q = s.regs.get q

/-- `cb_state` and `cb_aw` of every bank are unchanged. -/
def SameBanks (s t : State) : Prop := ∀ i : Fin 16, t.bankState i = s.bankState i ∧ t.bankAw i = s.bankAw i

/-- `cb_state` and `cb_aw` of every bank but `i` are unchanged. -/
def SameBanksBut (i : Fin 16) (s t : State) : Prop :=
  ∀ j : Fin 16, j ≠ i → t.bankState j = s.bankState j ∧ t.bankAw j = s.bankAw j

/-- The record of a register read. -/
def readRec (p : Params) (r : RegRef) (v : Word) : Access := ⟨.regRead, regAddr p r, regBytes p r, v⟩

/-- The record of a register write. -/
def writeRec (p : Params) (r : RegRef) (v : Word) : Access := ⟨.regWrite, regAddr p r, regBytes p r, v⟩

/-- Bits `hi:lo` of a register's content as a number (R15). -/
def regField (s : State) (r : RegRef) (hi lo : Nat) : Nat := fieldOf (s.regs.get r).toNat hi lo

/-- A bit number lies in one of the bit ranges, each (high, low). -/
def inFields (fs : List (Nat × Nat)) (b : Nat) : Bool := fs.any fun f => decide (f.2 ≤ b) && decide (b ≤ f.1)

/-- What a read-modify-write of the STORAGE register `r` by a command that succeeds does, apart from the new value:
the response, the two accesses, and everything it leaves alone (R62, R63). -/
structure UpdatesOnly (r : RegRef) (s t : State) : Prop where
  rsp : t.rsp = ⟨0#4, 0#64, 0#64, 0#64⟩
  trace : t.trace = s.trace ++ [readRec s.params r (s.regs.get r), writeRec s.params r (t.regs.get r)]
  regs : SameRegsBut [r] s t
  memory : SameMemory s t
  tick : t.envTick = s.envTick
  host : SameHost s t

/-! ## The status of a command, by the spec's priority (R211-R218) -/

/-- R113: the contract of a bit range is broken. -/
def rangeBroken (sz : SizeCode) (hi lo : Nat) : Bool :=
  match sz with
  | .w16 => !(decide (lo ≤ hi) && decide (hi ≤ 15))
  | .w32 => !(decide (lo ≤ hi) && decide (hi ≤ 31))
  | .w64 => !(decide (lo ≤ hi) && decide (hi ≤ 63))
  | .reserved => true

/-- R58: the offset of a mapped command is not a multiple of the access's size. -/
def offsetBroken (sz : SizeCode) (offset : Word) : Bool :=
  match sz with
  | .w16 => offset.toNat % 2 != 0
  | .w32 => offset.toNat % 4 != 0
  | .w64 => offset.toNat % 8 != 0
  | .reserved => true

/-- R135, R136: a table address that is not a multiple of 8, or leaves no room for 32 bytes below 2^64. -/
def tableBroken (t : Word) : Bool := t.toNat % 8 != 0 || decide (2 ^ 64 - 32 < t.toNat)

/-- R215: all the causes of `ContractViolation`. -/
def contractBroken (p : Params) : Instr → Bool
  | .sbrI sz hi lo _ _ => rangeBroken sz hi lo
  | .sbI sz bit _ _ => rangeBroken sz bit bit
  | .sbrM sz hi lo offset _ => rangeBroken sz hi lo || offsetBroken sz offset
  | .sbM sz bit offset _ => rangeBroken sz bit bit || offsetBroken sz offset
  | .ttBuild aw _ _ => aw == .w64 && !p.w64Admitted
  | .ttWrite _ t _ => tableBroken t
  | .ttZero t => tableBroken t
  | .cbAmode _ aw => aw == .w64 && !p.w64Admitted
  | .s2cCfg _ kind _ => kind == .reserved
  | _ => false

/-- R211: all the causes of `IndexOutOfRange`. -/
def indexBroken : Instr → Bool
  | .ttWrite idx _ _ => decide (3 < idx)
  | .cbAmode idx _ => decide (15 < idx)
  | .cbMattr idx _ => decide (15 < idx)
  | .cbTctrl idx _ _ _ _ _ => decide (15 < idx)
  | .cbTbase idx _ _ => decide (15 < idx)
  | .cbEnable idx _ _ _ => decide (15 < idx)
  | .frSnapc idx => decide (15 < idx)
  | .smCfg idx _ _ _ _ => decide (47 < idx)
  | .s2cCfg idx kind cbndx => decide (47 < idx) || (kind == .translate && decide (15 < cbndx.toNat))
  | _ => false

/-- The bank `idx` is `Enabled`. -/
def bankIsEnabled (s : State) (idx : Nat) : Bool := if h : idx < 16 then s.bankState ⟨idx, h⟩ == .enabled else false

/-- R213: the cause of `InvalidOrdering`: a configuration step on an `Enabled` bank. -/
def orderingBroken (s : State) : Instr → Bool
  | .cbAmode idx _ => bankIsEnabled s idx
  | .cbMattr idx _ => bankIsEnabled s idx
  | .cbTctrl idx _ _ _ _ _ => bankIsEnabled s idx
  | .cbTbase idx _ _ => bankIsEnabled s idx
  | _ => false

/-- R151: the state a sequencer step leaves its bank in. -/
def stateNamedBy : SeqStep → CbState
  | .amode => .addressModeSet
  | .mattr => .attributesSet
  | .tctrl => .translationControlSet
  | .tbase => .tableBaseSet
  | .enable => .enabled
  | .disable => .disabled

/-- R212: the cause of `MisalignedTableBase`. -/
def baseMisaligned : Instr → Bool
  | .cbTbase _ _ base => base.toNat % 4096 != 0
  | _ => false

/-- R218: the first failure that applies; `IllegalCommand` (6) belongs to headers that are no command. -/
def expectedStatus (s : State) (i : Instr) : BitVec 4 :=
  if contractBroken s.params i then 5#4
  else if indexBroken i then 1#4
  else if orderingBroken s i then 3#4
  else if baseMisaligned i then 2#4
  else 0#4

/-! ## Operand bits a command uses (R86-R91) -/

/-- The bits of `OPA` a command's row uses; for the image commands N is not known from the row, and the bits above N
are the subject of a statement of their own. -/
def usedOpa : Op → Word
  | .sbrI => BitVec.allOnes 64
  | .sbI => BitVec.allOnes 64
  | .sbrM => BitVec.allOnes 64
  | .sbM => BitVec.allOnes 64
  | .ttBuild => BitVec.allOnes 64
  | .ttWrite => BitVec.allOnes 64
  | .ttZero => BitVec.allOnes 64
  | .cbAmode => 0#64
  | .cbMattr => BitVec.allOnes 64
  | .cbTctrl => 0x3FFF#64
  | .cbTbase => BitVec.allOnes 64
  | .cbEnable => 0#64
  | .smCfg => 0x1FFFF7FFF#64
  | .smResetall => 0#64
  | .s2cCfg => 0xFF#64
  | .frSnapg => 0#64
  | .frSnapc => 0#64
  | .frClearall => 0#64
  | .frTlbiall => 0#64

/-- The bits of `OPB` a command's row uses. -/
def usedOpb : Op → Word
  | .sbrI => BitVec.allOnes 64
  | .sbI => BitVec.allOnes 64
  | .sbrM => BitVec.allOnes 64
  | .sbM => BitVec.allOnes 64
  | .ttBuild => BitVec.allOnes 64
  | .ttWrite => BitVec.allOnes 64
  | .cbTbase => 0xFFFF#64
  | _ => 0#64

/-! ## The invariant -/

/-- The response is one that a command of the block can leave (R210, R214, R101): a status of 0, 1, 2, 3, 5 or 6, and
zero data words unless it is 0. -/
def responseLegal (r : Response) : Prop :=
  (r.status = 0#4 ∨ r.status = 1#4 ∨ r.status = 2#4 ∨ r.status = 3#4 ∨ r.status = 5#4 ∨ r.status = 6#4)
    ∧ (r.status ≠ 0#4 → r.d0 = 0#64 ∧ r.d1 = 0#64 ∧ r.d2 = 0#64)

/-- An access is naturally aligned, of a size the port has, and its value fits (R51, R52, R58). -/
def accessLegal (p : Params) (a : Access) : Prop :=
  a.value.toNat < 2 ^ (8 * a.bytes) ∧
  match a.kind with
  | .memWrite => a.bytes = 8 ∧ a.addr % 8 = 0 ∧ a.addr + 8 ≤ 2 ^ 64
  | _ => (a.bytes = 2 ∨ a.bytes = 4 ∨ a.bytes = 8)
      ∧ (Int.ofNat a.addr - Int.ofNat p.map.iommuBase) % Int.ofNat a.bytes = 0

/-- Every register holds a value of its own width (R30, R41): with `W_TTBR` or `W_CBFAR` 32, nothing above bit 31. -/
def RegistersFit (s : State) : Prop := ∀ r : RegRef, (s.regs.get r).toNat < 2 ^ regBits s.params r

/-- The five fields of `CB_TCR` (R33), as (high, low). -/
def tcrFields (f : FieldMap) : List (Nat × Nat) :=
  [(f.tcrT0szLo + f.t0szW - 1, f.tcrT0szLo), (f.tcrIrgn0Lo + 1, f.tcrIrgn0Lo), (f.tcrOrgn0Lo + 1, f.tcrOrgn0Lo),
    (f.tcrSh0Lo + 1, f.tcrSh0Lo), (f.tcrTg0Lo + 1, f.tcrTg0Lo)]

/-- The invariant of the machine: table memory is in its canonical form and below 2^64, every register holds a value of
its width, the response is legal, the map of registers is admissible (R40), and every access made so far is legal. -/
structure Inv (s : State) : Prop where
  memory : s.tableMem.wf
  inSpace : ∀ c ∈ s.tableMem, c.1 < 2 ^ 64
  registers : RegistersFit s
  response : responseLegal s.rsp
  map : mapAdmissible s.params
  accesses : ∀ a ∈ s.trace, accessLegal s.params a

end Sys2Proof.Claim

open Sys2Proof Sys2Proof.Machine Sys2Proof.Claim

/-! ## Encoding -/

/-- Decoding the encoding of a well-formed command gives it back, every operand at every value (R82-R92, R97). -/
def Obligations.DecodeInvertsEncode : Prop := ∀ i : Instr, i.wf = true → decode (encode i) = .ok i

/-- R92: the rows of the opcode map are pairwise exclusive. -/
def Obligations.OpcodeRowsExclusive : Prop :=
  ∀ (cw : Header) (r q : OpRow), r ∈ opRows → q ∈ opRows → cw &&& r.mask = r.pattern → cw &&& q.mask = q.pattern → r = q

/-- R91: operand bits a command does not use have no effect: the frames decode alike, and an image's bits above N and a
one-bit value's bits above 0 do not reach the answer. -/
def Obligations.IgnoredOperandBitsHaveNoEffect : Prop :=
  (∀ (f g : Frame) (op : Op), opOf f.cw = some op → g.cw = f.cw → f.opa &&& usedOpa op = g.opa &&& usedOpa op →
      f.opb &&& usedOpb op = g.opb &&& usedOpb op → decode f = decode g)
    ∧ (∀ (sz : SizeCode) (n hi lo : Nat) (image image' value : Word) (s : State), HasWidth sz n →
        (∀ p, p < n → image.getLsbD p = image'.getLsbD p) →
        exec (.sbrI sz hi lo image value) s = exec (.sbrI sz hi lo image' value) s
          ∧ exec (.sbI sz hi image value) s = exec (.sbI sz hi image' value) s)
    ∧ (∀ (sz : SizeCode) (bit : Nat) (x value value' : Word) (s : State), value.getLsbD 0 = value'.getLsbD 0 →
        exec (.sbI sz bit x value) s = exec (.sbI sz bit x value') s
          ∧ exec (.sbM sz bit x value) s = exec (.sbM sz bit x value') s)

/-- Headers written out from the spec's examples decode to the commands they stand for (R114-R117, R130, R135, R155-R157,
R180, R182, R196, R198). -/
def Obligations.SampleFramesDecode : Prop :=
  decode ⟨0x104F2000#32, 0xFFFFFFFF#64, 0#64⟩ = .ok (.sbrI .w32 15 8 0xFFFFFFFF#64 0#64)
    ∧ decode ⟨0x11407C00#32, 0#64, 1#64⟩ = .ok (.sbI .w32 31 0#64 1#64)
    ∧ decode ⟨0x12514000#32, 0xC00#64, 1#64⟩ = .ok (.sbrM .w32 17 16 0xC00#64 1#64)
    ∧ decode ⟨0x13400000#32, 0#64, 0#64⟩ = .ok (.sbM .w32 0 0#64 0#64)
    ∧ decode ⟨0x20000000#32, 0#64, 1#64⟩ = .ok (.ttBuild .w32 0#64 1#64)
    ∧ decode ⟨0x21000001#32, 0x40000000#64, 0x40000641#64⟩ = .ok (.ttWrite 1 0x40000000#64 0x40000641#64)
    ∧ decode ⟨0x32000000#32, 0x0940#64, 0#64⟩ = .ok (.cbTctrl 0 0#6 1#2 1#2 2#2 0#2)
    ∧ decode ⟨0x33000000#32, 0x40000000#64, 1#64⟩ = .ok (.cbTbase 0 1#16 0x40000000#64)
    ∧ decode ⟨0x34070000#32, 0#64, 0#64⟩ = .ok (.cbEnable 0 true true true)
    ∧ decode ⟨0x40000000#32, 0x100000200#64, 0#64⟩ = .ok (.smCfg 0 true 0#16 0#5 0x200#10)
    ∧ decode ⟨0x48010002#32, 7#64, 0#64⟩ = .ok (.s2cCfg 2 .bypass 7#8)
    ∧ decode ⟨0x51000002#32, 0#64, 0#64⟩ = .ok (.frSnapc 2)
    ∧ decode ⟨0x53000000#32, 0#64, 0#64⟩ = .ok .frTlbiall

/-! ## The step -/

/-- R22, R25, R97: when the next command's header decodes, the step runs the decoded command on the state in which the host
has loaded the command registers, and moves the host on: to the next element, or to the end of the list when the program
says that the host stops at a failure (the stop is the model's reading of R99, log 2). What the SMMU set meanwhile stands
in the state the step leaves (`State.smmuActs`, log 5). -/
def Obligations.StepRunsDecodedCommand : Prop :=
  ∀ (s t : State) (c : HostCommand) (i : Instr), s.program[s.position]? = some c →
    decode ⟨c.cw, c.opa.value s.rsp, c.opb.value s.rsp⟩ = .ok i →
    exec i { s with cw := c.cw, opa := c.opa.value s.rsp, opb := c.opb.value s.rsp } = .next t →
    step s = .next (State.smmuActs
      { t with position := if c.stopOnFailure = true ∧ t.rsp.status ≠ 0#4 then t.program.length else t.position + 1 })

/-- R93, R217, R216: a header that matches no row is answered `IllegalCommand` (6), with no access and no other change of
the block (beside it stand the SMMU's own move, log 5, and the host's); every header whose opcode is outside the nineteen
listed is such a header. -/
def Obligations.IllegalHeaderAnswered : Prop :=
  (∀ (s : State) (c : HostCommand), s.program[s.position]? = some c →
      (∀ r ∈ opRows, c.cw &&& r.mask ≠ r.pattern) →
      step s = .next (State.smmuActs { s with
        cw := c.cw, opa := c.opa.value s.rsp, opb := c.opb.value s.rsp
        rsp := ⟨6#4, 0#64, 0#64, 0#64⟩
        position := if c.stopOnFailure = true then s.program.length else s.position + 1 }))
    ∧ (∀ cw : Header, cw.extractLsb' 24 8 ∉ [0x10#8, 0x11#8, 0x12#8, 0x13#8, 0x20#8, 0x21#8, 0x22#8, 0x30#8, 0x31#8, 0x32#8,
          0x33#8, 0x34#8, 0x40#8, 0x41#8, 0x48#8, 0x50#8, 0x51#8, 0x52#8, 0x53#8] →
        ∀ r ∈ opRows, cw &&& r.mask ≠ r.pattern)

/-- R25, R29, R43: when the host's list is exhausted the block waits: nothing of the block, the host, the STORAGE registers,
table memory or the cache changes. The SMMU may set bits of the fault registers meanwhile, and loses none. That a waiting
step is this is the model's form of "waits for the next" (log 2) and of "at any time" (log 5). -/
def Obligations.ExhaustedListWaits : Prop :=
  ∀ s : State, s.program.length ≤ s.position → ∃ t : State, step s = .next t
    ∧ t.rsp = s.rsp ∧ t.trace = s.trace ∧ t.tlb = s.tlb ∧ SameBanks s t ∧ SameMemory s t ∧ SameHost s t
    ∧ (∀ q : RegRef, q.regClass ≠ .w1c → t.regs.get q = s.regs.get q)
    ∧ (∀ (q : RegRef) (p : Nat), q.regClass = .w1c → p < regBits s.params q →
        (s.regs.get q).getLsbD p = true → (t.regs.get q).getLsbD p = true)

/-- R67, R220: every step goes on: no command, legal or not, stops the machine. That nothing on the register or the table
port can stop it either is read from the spec's silence (log 13, DEDUCED), and that a step with an exhausted list goes on,
waiting, is the model's form (log 2). -/
def Obligations.EveryStepGoesOn : Prop := ∀ s : State, ∃ t : State, step s = .next t

/-! ## The accessor's functions -/

/-- R112: the nine laws of `setBitRange`, at every width. -/
def Obligations.SetBitRangeLaws : Prop :=
  ∀ (n : Nat) (img : BitVec n) (hi lo : Nat), lo ≤ hi → hi < n →
    (∀ val : Nat, fieldOf (setBitRange img hi lo val).toNat hi lo = val % 2 ^ (hi - lo + 1))
    ∧ (∀ val p : Nat, p < lo ∨ hi < p → (setBitRange img hi lo val).getLsbD p = img.getLsbD p)
    ∧ (∀ val : Nat, setBitRange img hi lo val = setBitRange img hi lo (val % 2 ^ (hi - lo + 1)))
    ∧ (∀ val : Nat, setBitRange (setBitRange img hi lo val) hi lo val = setBitRange img hi lo val)
    ∧ (∀ a b : Nat, setBitRange (setBitRange img hi lo a) hi lo b = setBitRange img hi lo b)
    ∧ (∀ hi' lo' a b : Nat, lo' ≤ hi' → hi' < n → hi < lo' ∨ hi' < lo →
        setBitRange (setBitRange img hi lo a) hi' lo' b = setBitRange (setBitRange img hi' lo' b) hi lo a)
    ∧ (∀ val : Nat, setBitRange img (n - 1) 0 val = BitVec.ofNat n (val % 2 ^ n))
    ∧ setBitRange img hi lo 0 = img &&& ~~~(BitVec.ofNat n ((2 ^ (hi - lo + 1) - 1) <<< lo))
    ∧ (∀ fs : List (Nat × Nat × Nat), (∀ f ∈ fs, f.2.1 ≤ f.1 ∧ f.1 < n) →
        List.Pairwise (fun f g : Nat × Nat × Nat => f.1 < g.2.1 ∨ g.1 < f.2.1) fs →
        fs.foldl (fun v f => setBitRange v f.1 f.2.1 f.2.2) (0#n)
          = fs.foldl (fun v f => v ||| BitVec.ofNat n ((f.2.2 % 2 ^ (f.1 - f.2.1 + 1)) <<< f.2.1)) (0#n))

/-- R111: `setBit` is the one-bit case, and the bit written is the value's least significant bit. -/
def Obligations.SetBitIsOneBitRange : Prop :=
  ∀ (n : Nat) (img : BitVec n) (b val : Nat), b < n →
    setBit img b val = setBitRange img b b val
      ∧ (setBit img b val).getLsbD b = decide (val % 2 = 1)
      ∧ (setBit img b 2).getLsbD b = false ∧ (setBit img b 3).getLsbD b = true

/-! ## The accessor's commands -/

/-- R113: a reserved width or a bit range out of contract is answered `ContractViolation` (5) with no other effect, by
all four commands; a range in contract is accepted whatever the value. -/
def Obligations.AccessorContractChecked : Prop :=
  (∀ (sz : SizeCode) (hi lo : Nat) (x value : Word) (s : State),
      (sz = .reserved ∨ ∃ n, HasWidth sz n ∧ (hi < lo ∨ n - 1 < hi)) →
      exec (.sbrI sz hi lo x value) s = .next (failed 5#4 s) ∧ exec (.sbrM sz hi lo x value) s = .next (failed 5#4 s))
    ∧ (∀ (sz : SizeCode) (bit : Nat) (x value : Word) (s : State),
        (sz = .reserved ∨ ∃ n, HasWidth sz n ∧ n - 1 < bit) →
        exec (.sbI sz bit x value) s = .next (failed 5#4 s) ∧ exec (.sbM sz bit x value) s = .next (failed 5#4 s))
    ∧ (∀ (sz : SizeCode) (n hi lo : Nat) (x value : Word) (s : State), HasWidth sz n → lo ≤ hi → hi ≤ n - 1 →
        (∃ t, exec (.sbrI sz hi lo x value) s = .next t ∧ t.rsp.status = 0#4)
          ∧ (∃ t, exec (.sbI sz hi x value) s = .next t ∧ t.rsp.status = 0#4)
          ∧ (x.toNat % (n / 8) = 0 →
              (∃ t, exec (.sbrM sz hi lo x value) s = .next t ∧ t.rsp.status = 0#4)
                ∧ (∃ t, exec (.sbM sz hi x value) s = .next t ∧ t.rsp.status = 0#4)))

/-- R114, R115: an image command answers the updated image, zero-extended, and changes nothing but the response. -/
def Obligations.ImageUpdateResult : Prop :=
  ∀ (sz : SizeCode) (n hi lo : Nat) (image value : Word) (s : State), HasWidth sz n → lo ≤ hi → hi < n →
    (∃ r : Word, exec (.sbrI sz hi lo image value) s = .next { s with rsp := ⟨0#4, r, 0#64, 0#64⟩ }
        ∧ ∀ p, p < 64 → r.getLsbD p = updatedBit n hi lo image value p)
      ∧ (∃ r : Word, exec (.sbI sz hi image value) s = .next { s with rsp := ⟨0#4, r, 0#64, 0#64⟩ }
        ∧ ∀ p, p < 64 → r.getLsbD p = updatedBit n hi hi image value p)

/-- R116-R119: a mapped command at an aligned offset completes, makes exactly one read and one write of N/8 bytes at that
offset, writes and returns the value read with the field updated, and touches neither the sequencer's state nor table
memory. The value read is whatever the port answers. -/
def Obligations.MappedAccessShape : Prop :=
  ∀ (sz : SizeCode) (n hi lo : Nat) (offset value : Word) (s : State), HasWidth sz n → lo ≤ hi → hi < n →
    offset.toNat % (n / 8) = 0 →
    ∀ i : Instr, (i = .sbrM sz hi lo offset value ∨ (i = .sbM sz hi offset value ∧ lo = hi)) →
      ∃ (t : State) (old new : Word), exec i s = .next t
        ∧ t.rsp = ⟨0#4, new, 0#64, 0#64⟩
        ∧ t.trace = s.trace ++ [⟨.regRead, s.params.map.iommuBase + offset.toNat, n / 8, old⟩,
            ⟨.regWrite, s.params.map.iommuBase + offset.toNat, n / 8, new⟩]
        ∧ (∀ p, p < 64 → new.getLsbD p = updatedBit n hi lo old value p)
        ∧ SameBanks s t ∧ SameMemory s t ∧ SameHost s t

/-- R58: a mapped command whose offset is not a multiple of N/8 is answered `ContractViolation` (5) with no other effect. -/
def Obligations.MappedMisalignedOffset : Prop :=
  ∀ (sz : SizeCode) (n hi lo : Nat) (offset value : Word) (s : State), HasWidth sz n → offset.toNat % (n / 8) ≠ 0 →
    exec (.sbrM sz hi lo offset value) s = .next (failed 5#4 s) ∧ exec (.sbM sz hi offset value) s = .next (failed 5#4 s)

/-- R116, R29: a mapped update of a STORAGE register at its own width: the field takes the value, every other bit and
every other register is preserved, no free value is used. After an update of a register that says how a bank translates the
cache is possibly stale: R249 says so of the table base, the others are the model's choice (log 11). -/
def Obligations.MappedStorageUpdate : Prop :=
  ∀ (sz : SizeCode) (n hi lo : Nat) (offset value : Word) (r : RegRef) (s : State), HasWidth sz n → lo ≤ hi → hi < n →
    offset.toNat % (n / 8) = 0 → registerAt s.params (s.params.map.iommuBase + offset.toNat) (n / 8) = some r →
    r.regClass = .storage →
    ∀ i : Instr, (i = .sbrM sz hi lo offset value ∨ (i = .sbM sz hi offset value ∧ lo = hi)) →
      ∃ t : State, exec i s = .next t
        ∧ t.rsp = ⟨0#4, t.regs.get r, 0#64, 0#64⟩
        ∧ (∀ p, p < 64 → (t.regs.get r).getLsbD p = updatedBit n hi lo (s.regs.get r) value p)
        ∧ t.trace = s.trace ++ [readRec s.params r (low n (s.regs.get r)), writeRec s.params r (t.regs.get r)]
        ∧ SameRegsBut [r] s t ∧ SameBanks s t ∧ SameMemory s t ∧ SameHost s t ∧ t.envTick = s.envTick
        ∧ t.tlb = (if r.shapesTranslation = true then ⟨true, true⟩ else s.tlb)

/-- R63, R252: a mapped update of a W1C register at its own width writes back every bit that read as 1 and so clears it,
but for those the field's value writes as 0: afterwards the register holds, of the bits the read showed, only those the field's value wrote as 0; that is the command's
own effect, and what the SMMU sets after the write the step adds (log 5, SmmuSetsBitsDuringAnyStep). The read shows every
bit the register held, and may show more (a free value: the statement holds for each). -/
def Obligations.MappedW1cUpdateClears : Prop :=
  ∀ (sz : SizeCode) (n hi lo : Nat) (offset value : Word) (r : RegRef) (s : State), HasWidth sz n → lo ≤ hi → hi < n →
    offset.toNat % (n / 8) = 0 → registerAt s.params (s.params.map.iommuBase + offset.toNat) (n / 8) = some r →
    r.regClass = .w1c →
    ∀ i : Instr, (i = .sbrM sz hi lo offset value ∨ (i = .sbM sz hi offset value ∧ lo = hi)) →
      ∃ (t : State) (old new : Word), exec i s = .next t
        ∧ t.rsp = ⟨0#4, new, 0#64, 0#64⟩
        ∧ t.trace = s.trace ++ [readRec s.params r old, writeRec s.params r new]
        ∧ (∀ p, p < n → (s.regs.get r).getLsbD p = true → old.getLsbD p = true)
        ∧ (∀ p, p < 64 → (t.regs.get r).getLsbD p =
            (decide (lo ≤ p) && decide (p ≤ hi) && old.getLsbD p && !value.getLsbD (p - lo)))
        ∧ SameRegsBut [r] s t ∧ SameBanks s t ∧ SameMemory s t ∧ SameHost s t ∧ t.tlb = s.tlb

/-- R38, R63: a mapped update of a trigger register triggers the invalidation whatever is written, and no register
changes; the value read is not defined. -/
def Obligations.MappedTriggerUpdate : Prop :=
  ∀ (hi lo : Nat) (offset value : Word) (s : State), lo ≤ hi → hi < 32 → offset.toNat % 4 = 0 →
    ∀ i : Instr, (i = .sbrM .w32 hi lo offset value ∨ (i = .sbM .w32 hi offset value ∧ lo = hi)) →
      (registerAt s.params (s.params.map.iommuBase + offset.toNat) 4 = some .tlbiS →
          ∃ t : State, exec i s = .next t ∧ t.rsp.status = 0#4
            ∧ t.tlb = ⟨false, s.tlb.nonSecureMayBeStale⟩ ∧ SameRegsBut [] s t ∧ SameBanks s t ∧ SameMemory s t ∧ SameHost s t)
        ∧ (registerAt s.params (s.params.map.iommuBase + offset.toNat) 4 = some .tlbiNs →
          ∃ t : State, exec i s = .next t ∧ t.rsp.status = 0#4
            ∧ t.tlb = ⟨s.tlb.secureMayBeStale, false⟩ ∧ SameRegsBut [] s t ∧ SameBanks s t ∧ SameMemory s t ∧ SameHost s t)

/-- R118: a mapped update of bytes that are not exactly one register completes like any other, and every register none
of whose bytes it covers is unchanged. That such an access runs at all, and leaves the other registers alone, is the
model's choice (logs 7 and 8). -/
def Obligations.MappedElsewhereFrame : Prop :=
  ∀ (sz : SizeCode) (n hi lo : Nat) (offset value : Word) (s : State), HasWidth sz n → lo ≤ hi → hi < n →
    offset.toNat % (n / 8) = 0 → registerAt s.params (s.params.map.iommuBase + offset.toNat) (n / 8) = none →
    ∀ i : Instr, (i = .sbrM sz hi lo offset value ∨ (i = .sbM sz hi offset value ∧ lo = hi)) →
      ∃ t : State, exec i s = .next t ∧ t.rsp.status = 0#4 ∧ SameBanks s t ∧ SameMemory s t ∧ SameHost s t
        ∧ ∀ q : RegRef, (regAddr s.params q + regBytes s.params q ≤ s.params.map.iommuBase + offset.toNat
              ∨ s.params.map.iommuBase + offset.toNat + n / 8 ≤ regAddr s.params q) →
            t.regs.get q = s.regs.get q

/-- R57, U7: a mapped update narrower than the STORAGE register it falls in works on the register's little-endian bytes:
the field at bit `8 * k + lo`, where `k` is the distance of the access from the register's first byte, takes the value,
and every other bit of the register, and every other register, is preserved. -/
def Obligations.MappedNarrowStorageUpdate : Prop :=
  ∀ (sz : SizeCode) (n hi lo k : Nat) (offset value : Word) (r : RegRef) (s : State), HasWidth sz n → lo ≤ hi → hi < n →
    offset.toNat % (n / 8) = 0 → r.regClass = .storage →
    s.params.map.iommuBase + offset.toNat = regAddr s.params r + k → k + n / 8 ≤ regBytes s.params r →
    n / 8 < regBytes s.params r → mapAdmissible s.params →
    ∀ i : Instr, (i = .sbrM sz hi lo offset value ∨ (i = .sbM sz hi offset value ∧ lo = hi)) →
      ∃ t : State, exec i s = .next t ∧ t.rsp.status = 0#4
        ∧ (∀ p, p < regBits s.params r → (t.regs.get r).getLsbD p =
            if 8 * k + lo ≤ p ∧ p ≤ 8 * k + hi then value.getLsbD (p - (8 * k + lo)) else (s.regs.get r).getLsbD p)
        ∧ SameRegsBut [r] s t ∧ SameBanks s t ∧ SameMemory s t ∧ SameHost s t

/-- R242, R35: `SB.M` on the bypass bit of `SCR0` enters or leaves bypass-all and changes nothing else: no other bit, no
other register, no sequencer state. -/
def Obligations.BypassSwitchChangesOneBit : Prop :=
  ∀ (offset value : Word) (s : State), s.params.field.scr0BypassBit < 32 → offset.toNat % 4 = 0 →
    registerAt s.params (s.params.map.iommuBase + offset.toNat) 4 = some .scr0 →
    ∃ t : State, exec (.sbM .w32 s.params.field.scr0BypassBit offset value) s = .next t ∧ t.rsp.status = 0#4
      ∧ t.bypassAll = value.getLsbD 0
      ∧ (∀ p, p < 32 → p ≠ s.params.field.scr0BypassBit → t.regs.scr0.getLsbD p = s.regs.scr0.getLsbD p)
      ∧ SameRegsBut [.scr0] s t ∧ SameBanks s t ∧ SameMemory s t ∧ SameHost s t ∧ t.tlb = s.tlb

/-- R40, R118: with an admissible map, the bytes of a register resolve to that register. -/
def Obligations.RegisterBytesResolve : Prop :=
  ∀ (p : Params) (r : RegRef), mapAdmissible p →
    registerAt p (regAddr p r) (regBytes p r) = some r ∧ ∀ k, k < regBytes p r → registerOfByte p (regAddr p r + k) = some r

/-- R29, R51, R65: a read of a STORAGE register returns the last value written to it, and a write to another register
does not change what it reads. -/
def Obligations.StorageReadsLastWrite : Prop :=
  ∀ (s : State) (r q : RegRef) (v : Word), q.regClass = .storage →
    (r = q → (s.regWrite r v).readValue q = low (regBits s.params q) v)
      ∧ (r ≠ q → (s.regWrite r v).readValue q = s.readValue q) ∧ (r ≠ q → (s.afterRead r).readValue q = s.readValue q)

/-! ## The table builder -/

/-- R130, R133, R134: a built entry is the template, the flags but bits 1:0 OR-ed onto it, and the address placed at bit
30, cut to the width's field; nothing but the response changes. -/
def Obligations.BuildEntryResult : Prop :=
  ∀ (aw : AddrWidth) (flags oa : Word) (s : State), (aw = .w32 ∨ s.params.w64Admitted = true) →
    ∃ e : Word, exec (.ttBuild aw flags oa) s = .next { s with rsp := ⟨0#4, e, 0#64, 0#64⟩ }
      ∧ ∀ p, p < 64 → e.getLsbD p =
          if 30 ≤ p ∧ p ≤ (if aw = .w32 then 39 else 47) then oa.getLsbD (p - 30)
          else s.params.template.getLsbD p || (decide (2 ≤ p) && flags.getLsbD p)

/-- R131, R133, §8's property: with an admissible template every built entry is a valid block, and at W32 its address
field is the operand cut to ten bits. -/
def Obligations.BuiltEntryIsValidBlock : Prop :=
  ∀ (aw : AddrWidth) (flags oa : Word) (s : State), (aw = .w32 ∨ s.params.w64Admitted = true) →
    s.params.template.getLsbD 0 = true → s.params.template.getLsbD 1 = false →
    ∃ t : State, exec (.ttBuild aw flags oa) s = .next t ∧ entryValid t.rsp.d0 = true ∧ entryIsBlock t.rsp.d0 = true
      ∧ (aw = .w32 → entryOutputAddr .w32 t.rsp.d0 = oa.toNat % 2 ^ 10)
      ∧ (aw = .w64 → entryOutputAddr .w64 t.rsp.d0 = oa.toNat % 2 ^ 18)

/-- R14: when `W64_ADMITTED` is false, both commands that select the 64-bit width are answered `ContractViolation` (5)
and do nothing; when it is true the guard does not stop them. -/
def Obligations.WideWidthGuarded : Prop :=
  ∀ s : State,
    (s.params.w64Admitted = false →
        (∀ flags oa : Word, exec (.ttBuild .w64 flags oa) s = .next (failed 5#4 s))
          ∧ ∀ idx : Nat, exec (.cbAmode idx .w64) s = .next (failed 5#4 s))
      ∧ (s.params.w64Admitted = true →
        (∀ flags oa : Word, ∃ t, exec (.ttBuild .w64 flags oa) s = .next t ∧ t.rsp.status = 0#4)
          ∧ ∀ i : Fin 16, s.bankState i ≠ .enabled →
              ∃ t, exec (.cbAmode i.val .w64) s = .next t ∧ t.rsp.status = 0#4 ∧ t.bankAw i = .w64)

/-- R135, R52, R55, R57: a table write stores the entry, little-endian, at `table + 8 * index`; it reads back unchanged,
every other byte and everything else is unchanged, and the cache may be stale (R249). That every address is memory that reads
back is the model's choice (log 9), that a table write reaches no register is read from R50 (log 10, DEDUCED). -/
def Obligations.TableWriteStoresEntry : Prop :=
  ∀ (idx : Nat) (table entry : Word) (s : State), s.tableMem.wf → table.toNat % 8 = 0 → table.toNat ≤ 2 ^ 64 - 32 → idx < 4 →
    ∃ t : State, exec (.ttWrite idx table entry) s = .next t
      ∧ t.rsp = ⟨0#4, 0#64, 0#64, 0#64⟩
      ∧ t.tableMem.read64 (table.toNat + 8 * idx) = some entry
      ∧ (∀ k, k < 8 → t.tableMem.read (table.toNat + 8 * idx + k) = some (entry.extractLsb' (8 * k) 8))
      ∧ (∀ a : Nat, a < table.toNat + 8 * idx ∨ table.toNat + 8 * idx + 8 ≤ a → t.tableMem.read a = s.tableMem.read a)
      ∧ t.trace = s.trace ++ [⟨.memWrite, table.toNat + 8 * idx, 8, entry⟩]
      ∧ t.regs = s.regs ∧ SameBanks s t ∧ SameHost s t ∧ t.envTick = s.envTick ∧ t.tlb = ⟨true, true⟩

/-- R55, R59, R135, R136, R218: a table address out of contract is answered `ContractViolation` (5) by both commands,
whatever the index; with a good address an index above 3 is answered `IndexOutOfRange` (1). -/
def Obligations.TableAddressAndIndexChecked : Prop :=
  ∀ (idx : Nat) (table entry : Word) (s : State),
    ((table.toNat % 8 ≠ 0 ∨ 2 ^ 64 - 32 < table.toNat) →
        exec (.ttWrite idx table entry) s = .next (failed 5#4 s) ∧ exec (.ttZero table) s = .next (failed 5#4 s))
      ∧ (table.toNat % 8 = 0 → table.toNat ≤ 2 ^ 64 - 32 → 4 ≤ idx → exec (.ttWrite idx table entry) s = .next (failed 1#4 s))

/-- R136: `TT.ZERO` makes the four entries zero, by four ascending writes, and touches nothing else. That every address is
memory that reads back is the model's choice (log 9), that a table write reaches no register is read from R50 (log 10,
DEDUCED). -/
def Obligations.TableZeroClearsFourEntries : Prop :=
  ∀ (table : Word) (s : State), s.tableMem.wf → table.toNat % 8 = 0 → table.toNat ≤ 2 ^ 64 - 32 →
    ∃ t : State, exec (.ttZero table) s = .next t
      ∧ t.rsp = ⟨0#4, 0#64, 0#64, 0#64⟩
      ∧ (∀ k, k < 4 → t.tableMem.read64 (table.toNat + 8 * k) = some 0#64)
      ∧ (∀ a : Nat, a < table.toNat ∨ table.toNat + 32 ≤ a → t.tableMem.read a = s.tableMem.read a)
      ∧ t.trace = s.trace ++ [⟨.memWrite, table.toNat, 8, 0#64⟩, ⟨.memWrite, table.toNat + 8, 8, 0#64⟩,
          ⟨.memWrite, table.toNat + 16, 8, 0#64⟩, ⟨.memWrite, table.toNat + 24, 8, 0#64⟩]
      ∧ t.regs = s.regs ∧ SameBanks s t ∧ SameHost s t ∧ t.envTick = s.envTick ∧ t.tlb = ⟨true, true⟩

/-- R139, R72, R75: a table whose entry k is what `TT.BUILD` answers for block k is the identity map. Premises: a history
that leads to the state and brings the bank up canonically, untouched since (R159, R248, U1); `T0SZ` zero (R75); a fresh
cache (R249); a template without reserved bits (R73); that the bank's regime is the single-stage one (N13), that the codes
in `CB_TCR` fit it (U21) and that it reads 64-bit descriptors (N15). Then every 32-bit input address whose access passes
the permission check gives itself, and one that fails it a permission fault (R76; its conditions are not in the source). The walk is the model's reading of R72 (log 16). -/
def Obligations.IdentityTableMapsToItself : Prop :=
  ∀ (h : History) (s : State) (i : Fin 16) (table : Word), HistoryOf h s → soundlyEnabled s.params i h = true →
    ctrlEnabled s i = true → formatIsW64 s i = false → t0szOf s i = 0 → s.tlb = ⟨false, false⟩ →
    tableBaseOf s i = table.toNat → s.params.template.getLsbD 0 = true → s.params.template.getLsbD 1 = false →
    entryBlockZero s.params.template = 0#18 → entryReserved .w32 s.params.template = 0 →
    (∀ k, k < 4 → ∃ u v : State, exec (.ttBuild .w32 0#64 (BitVec.ofNat 64 k)) u = .next v ∧ u.params = s.params
        ∧ s.tableMem.read64 (table.toNat + 8 * k) = some v.rsp.d0) →
    ∀ va : BitVec 32, walk ⟨soundlyEnabled s.params i h, true, true, true, true⟩ s i va = .output va.toNat
      ∧ walk ⟨soundlyEnabled s.params i h, true, true, true, false⟩ s i va = .permissionFault

/-! ## The sequencer -/

/-- R153: `CB.AMODE` writes the width bit of `CBA2R[i]`, preserves its other bits, latches the width and moves the bank
to `AddressModeSet`. That the cache is possibly stale then is the model's choice (log 11). -/
def Obligations.AddressModeWritten : Prop :=
  ∀ (i : Fin 16) (aw : AddrWidth) (s : State), (aw = .w32 ∨ s.params.w64Admitted = true) → s.bankState i ≠ .enabled →
    ∃ t : State, exec (.cbAmode i.val aw) s = .next t ∧ UpdatesOnly (.cba2r i) s t
      ∧ (∀ p, p < 64 → (t.regs.get (.cba2r i)).getLsbD p =
          if p < 32 ∧ p = s.params.field.cba2rVa64Bit then decide (aw = .w64) else (s.regs.get (.cba2r i)).getLsbD p)
      ∧ t.bankAw i = aw ∧ t.bankState i = .addressModeSet ∧ SameBanksBut i s t ∧ t.tlb = ⟨true, true⟩

/-- R154: `CB.MATTR` writes the low half of the table to `CB_ATTR0[i]`, then the high half to `CB_ATTR1[i]`, reads
nothing, and moves the bank to `AttributesSet`. That the cache is possibly stale then is the model's choice (log 11). -/
def Obligations.AttributeTableWritten : Prop :=
  ∀ (i : Fin 16) (attrs : Word) (s : State), s.bankState i ≠ .enabled →
    ∃ t : State, exec (.cbMattr i.val attrs) s = .next t
      ∧ t.rsp = ⟨0#4, 0#64, 0#64, 0#64⟩
      ∧ (t.regs.get (.cbAttr0 i)).toNat = attrs.toNat % 2 ^ 32 ∧ (t.regs.get (.cbAttr1 i)).toNat = attrs.toNat / 2 ^ 32
      ∧ t.trace = s.trace ++ [writeRec s.params (.cbAttr0 i) (t.regs.get (.cbAttr0 i)),
          writeRec s.params (.cbAttr1 i) (t.regs.get (.cbAttr1 i))]
      ∧ SameRegsBut [.cbAttr0 i, .cbAttr1 i] s t ∧ SameMemory s t ∧ SameHost s t ∧ t.envTick = s.envTick ∧ t.tlb = ⟨true, true⟩
      ∧ t.bankState i = .attributesSet ∧ t.bankAw i = s.bankAw i ∧ SameBanksBut i s t

/-- R155: with admissible fields, `CB.TCTRL` puts each operand into its field of `CB_TCR[i]`, cut to the field, preserves
every bit outside the five fields, and moves the bank to `TranslationControlSet`. That the cache is possibly stale then is the
model's choice (log 11). -/
def Obligations.TranslationControlWritten : Prop :=
  ∀ (i : Fin 16) (t0sz : BitVec 6) (inner outer sh granule : BitVec 2) (s : State), fieldsAdmissible s.params = true →
    s.bankState i ≠ .enabled →
    ∃ t : State, exec (.cbTctrl i.val t0sz inner outer sh granule) s = .next t ∧ UpdatesOnly (.cbTcr i) s t
      ∧ regField t (.cbTcr i) (s.params.field.tcrT0szLo + s.params.field.t0szW - 1) s.params.field.tcrT0szLo
          = t0sz.toNat % 2 ^ s.params.field.t0szW
      ∧ regField t (.cbTcr i) (s.params.field.tcrIrgn0Lo + 1) s.params.field.tcrIrgn0Lo = inner.toNat
      ∧ regField t (.cbTcr i) (s.params.field.tcrOrgn0Lo + 1) s.params.field.tcrOrgn0Lo = outer.toNat
      ∧ regField t (.cbTcr i) (s.params.field.tcrSh0Lo + 1) s.params.field.tcrSh0Lo = sh.toNat
      ∧ regField t (.cbTcr i) (s.params.field.tcrTg0Lo + 1) s.params.field.tcrTg0Lo = granule.toNat
      ∧ (∀ p, p < 64 → inFields (tcrFields s.params.field) p = false →
          (t.regs.get (.cbTcr i)).getLsbD p = (s.regs.get (.cbTcr i)).getLsbD p)
      ∧ t.bankState i = .translationControlSet ∧ t.bankAw i = s.bankAw i ∧ SameBanksBut i s t ∧ t.tlb = ⟨true, true⟩

/-- R156: with admissible fields and a base that is a multiple of 4096, `CB.TBASE` puts the address bits in place, the
ASID cut to 8 or 16 bits by `cb_aw[i]` (as the parameters ASID_W say), preserves every other bit of `CB_TTBR[i]`, leaves
the cache possibly stale (R249), and moves the bank to `TableBaseSet`. -/
def Obligations.TableBaseWritten : Prop :=
  ∀ (i : Fin 16) (asid : BitVec 16) (base : Word) (s : State), fieldsAdmissible s.params = true →
    s.bankState i ≠ .enabled → base.toNat % 4096 = 0 → RegistersFit s →
    ∃ t : State, exec (.cbTbase i.val asid base) s = .next t ∧ UpdatesOnly (.cbTtbr i) s t
      ∧ (∀ p, 12 ≤ p → p ≤ s.params.field.ttbrAddrHi → (t.regs.get (.cbTtbr i)).getLsbD p = base.getLsbD p)
      ∧ (∀ w, w = (if s.bankAw i = .w32 then s.params.field.asidWW32 else s.params.field.asidWW64) →
          regField t (.cbTtbr i) (s.params.field.ttbrAsidLo + w - 1) s.params.field.ttbrAsidLo = asid.toNat % 2 ^ w
          ∧ ∀ p, p < 64 → inFields [(s.params.field.ttbrAddrHi, 12), (s.params.field.ttbrAsidLo + w - 1, s.params.field.ttbrAsidLo)] p = false →
              (t.regs.get (.cbTtbr i)).getLsbD p = (s.regs.get (.cbTtbr i)).getLsbD p)
      ∧ t.bankState i = .tableBaseSet ∧ t.bankAw i = s.bankAw i ∧ SameBanksBut i s t ∧ t.tlb = ⟨true, true⟩

/-- R157: in every state of the bank, `CB.ENABLE` writes the three bits of `CB_CTRL[i]`, preserves its other bits, and
moves the bank to `Enabled` or `Disabled`. -/
def Obligations.EnableWritten : Prop :=
  ∀ (i : Fin 16) (en fr fi : Bool) (s : State), fieldsAdmissible s.params = true →
    ∃ t : State, exec (.cbEnable i.val en fr fi) s = .next t ∧ UpdatesOnly (.cbCtrl i) s t
      ∧ (∀ p, p < 64 → (t.regs.get (.cbCtrl i)).getLsbD p =
          if p = s.params.field.ctrlMBit then en else if p = s.params.field.ctrlCfreBit then fr
          else if p = s.params.field.ctrlCfieBit then fi else (s.regs.get (.cbCtrl i)).getLsbD p)
      ∧ t.bankState i = (if en = true then .enabled else .disabled) ∧ t.bankAw i = s.bankAw i ∧ SameBanksBut i s t ∧ t.tlb = s.tlb

/-- R151, R150: the transition table, cell by cell: outside `Enabled` each configuration step succeeds and moves the
bank to the state named after it; in `Enabled` each answers `InvalidOrdering` (3) and changes nothing; `CB.ENABLE`
succeeds from every state. No other bank's state moves, and a command that fails, for whatever reason, moves none. -/
def Obligations.TransitionTable : Prop :=
  ∀ (s : State) (i : Fin 16),
    (s.bankState i ≠ .enabled →
        (∀ aw : AddrWidth, (aw = .w32 ∨ s.params.w64Admitted = true) → ∃ t, exec (.cbAmode i.val aw) s = .next t
            ∧ t.rsp.status = 0#4 ∧ t.bankState i = .addressModeSet ∧ SameBanksBut i s t)
        ∧ (∀ attrs : Word, ∃ t, exec (.cbMattr i.val attrs) s = .next t
            ∧ t.rsp.status = 0#4 ∧ t.bankState i = .attributesSet ∧ SameBanksBut i s t)
        ∧ (∀ (t0sz : BitVec 6) (a b c d : BitVec 2), ∃ t, exec (.cbTctrl i.val t0sz a b c d) s = .next t
            ∧ t.rsp.status = 0#4 ∧ t.bankState i = .translationControlSet ∧ SameBanksBut i s t)
        ∧ (∀ (asid : BitVec 16) (base : Word), base.toNat % 4096 = 0 → ∃ t, exec (.cbTbase i.val asid base) s = .next t
            ∧ t.rsp.status = 0#4 ∧ t.bankState i = .tableBaseSet ∧ SameBanksBut i s t))
    ∧ (s.bankState i = .enabled →
        (∀ aw : AddrWidth, (aw = .w32 ∨ s.params.w64Admitted = true) → exec (.cbAmode i.val aw) s = .next (failed 3#4 s))
        ∧ (∀ attrs : Word, exec (.cbMattr i.val attrs) s = .next (failed 3#4 s))
        ∧ (∀ (t0sz : BitVec 6) (a b c d : BitVec 2), exec (.cbTctrl i.val t0sz a b c d) s = .next (failed 3#4 s))
        ∧ (∀ (asid : BitVec 16) (base : Word), exec (.cbTbase i.val asid base) s = .next (failed 3#4 s)))
    ∧ (∀ fr fi : Bool, ∃ t, exec (.cbEnable i.val true fr fi) s = .next t
        ∧ t.rsp.status = 0#4 ∧ t.bankState i = .enabled ∧ SameBanksBut i s t)
    ∧ (∀ fr fi : Bool, ∃ t, exec (.cbEnable i.val false fr fi) s = .next t
        ∧ t.rsp.status = 0#4 ∧ t.bankState i = .disabled ∧ SameBanksBut i s t)
    ∧ (∀ (c : Instr) (t : State), exec c s = .next t → t.rsp.status ≠ 0#4 → SameBanks s t)

/-- R158: `InvalidOrdering` (3) is answered in exactly one situation, a configuration step that addresses an `Enabled`
bank (for `CB.AMODE`, one that the width guard of R152 lets by), and then no register is written and no state changes but
the response. -/
def Obligations.InvalidOrderingOnlyWhenEnabled : Prop :=
  ∀ (i : Instr) (s : State),
    ((∃ t, exec i s = .next t ∧ t.rsp.status = 3#4) ↔
      ∃ b : Fin 16, s.bankState b = .enabled
        ∧ ((∃ aw, i = .cbAmode b.val aw ∧ (aw = .w32 ∨ s.params.w64Admitted = true)) ∨ (∃ attrs, i = .cbMattr b.val attrs)
          ∨ (∃ t0sz a c d e, i = .cbTctrl b.val t0sz a c d e) ∨ (∃ asid base, i = .cbTbase b.val asid base)))
      ∧ ∀ t, exec i s = .next t → t.rsp.status = 3#4 → t = failed 3#4 s

/-- R212, R59: `MisalignedTableBase` (2) comes from `CB.TBASE` alone, with a base that is not a multiple of 4096; and a
misaligned base on a bank that is not `Enabled` is answered so, before any register write. -/
def Obligations.MisalignedBaseRefused : Prop :=
  (∀ (i : Instr) (s t : State), exec i s = .next t → t.rsp.status = 2#4 →
      ∃ idx asid base, i = .cbTbase idx asid base ∧ base.toNat % 4096 ≠ 0)
    ∧ (∀ (i : Fin 16) (asid : BitVec 16) (base : Word) (s : State), s.bankState i ≠ .enabled → base.toNat % 4096 ≠ 0 →
        exec (.cbTbase i.val asid base) s = .next (failed 2#4 s))

/-- R20, R21: only the five sequencer commands write `cb_state`, each only the entry of the bank its index names, and
only `CB.AMODE` writes `cb_aw`. -/
def Obligations.SequencerStateOwnedByItsCommands : Prop :=
  ∀ (i : Instr) (s t : State), exec i s = .next t →
    (∀ b : Fin 16, t.bankState b ≠ s.bankState b → seqStepOn b.val i ≠ none)
      ∧ (∀ b : Fin 16, t.bankAw b ≠ s.bankAw b → ∃ aw, i = .cbAmode b.val aw ∧ t.bankAw b = aw)

/-- R160: "canonically enabled" as a predicate on the history and as a path through the cells marked c of R151 are the
same. -/
def Obligations.CanonicalHistoryIsCanonicalPath : Prop :=
  ∀ steps : List SeqStep, sinceDisable steps = canonicalOrder ↔ canonicalPath steps = some .enabled

/-- R160, R151, R20: along any history of the machine from a reset, a bank's state is the one its latest successful
sequencer command names, `Disabled` if there was none; so a bank that was canonically enabled is `Enabled`. -/
def Obligations.SequencerFollowsHistory : Prop :=
  ∀ (h : History) (s : State) (i : Fin 16), HistoryOf h s →
    s.bankState i = (match (h.stepsOn i.val).getLast? with
      | none => .disabled
      | some x => stateNamedBy x)
    ∧ (canonicallyEnabled i.val h = true → s.bankState i = .enabled)

/-- R241, R251, R157: since the block and the SMMU are reset together, `cb_state[i]` agrees with the hardware along any history
from a reset: as long as no mapped command touched `CB_CTRL[i]`, the bank is `Enabled` exactly while its enable bit is set. -/
def Obligations.SequencerAgreesWithEnableBit : Prop :=
  ∀ (h : History) (s : State) (i : Fin 16), HistoryOf h s → fieldsAdmissible s.params = true → mapAdmissible s.params →
    (∀ c ∈ h.done, mappedTouches s.params (fun r => r == .cbCtrl i) c = false) →
    (ctrlEnabled s i = true ↔ s.bankState i = .enabled)

/-! ## The stream tables -/

/-- R180, R31, R70: `SM.CFG` writes one composed register, bit 15 zero, with no read; the entry then matches exactly the
streams the rule says: valid, and equal to the identifier wherever the mask bit is zero. -/
def Obligations.StreamMatchEntryWritten : Prop :=
  ∀ (i : Fin 48) (valid : Bool) (mask : BitVec 16) (tbu : BitVec 5) (master : BitVec 10) (s : State),
    ∃ t : State, exec (.smCfg i.val valid mask tbu master) s = .next t
      ∧ t.rsp = ⟨0#4, 0#64, 0#64, 0#64⟩
      ∧ (t.regs.get (.smr i)).toNat = (if valid = true then 2 ^ 31 else 0) + (mask.toNat % 2 ^ 15) * 2 ^ 16 + tbu.toNat * 2 ^ 10 + master.toNat
      ∧ t.trace = s.trace ++ [writeRec s.params (.smr i) (t.regs.get (.smr i))]
      ∧ SameRegsBut [.smr i] s t ∧ SameBanks s t ∧ SameMemory s t ∧ SameHost s t ∧ t.envTick = s.envTick ∧ t.tlb = s.tlb
      ∧ ∀ sid : BitVec 15, (smrMatches (entryOf t.regs.smr i) sid = true ↔
          valid = true ∧ ∀ p, p < 15 → mask.getLsbD p = false → sid.getLsbD p = (tbu ++ master).getLsbD p)

/-- R181: `SM.RESETALL` zeroes the 48 entries in ascending order and touches nothing else; afterwards no stream matches
(R31: a disabled entry matches nothing). -/
def Obligations.StreamMatchTableReset : Prop :=
  ∀ s : State, ∃ t : State, exec .smResetall s = .next t
    ∧ t.rsp = ⟨0#4, 0#64, 0#64, 0#64⟩
    ∧ (∀ i : Fin 48, t.regs.get (.smr i) = 0#64)
    ∧ t.trace = s.trace ++ (indices 48).map (fun i => writeRec s.params (.smr i) 0#64)
    ∧ (∀ q : RegRef, (∀ i, q ≠ .smr i) → t.regs.get q = s.regs.get q)
    ∧ SameBanks s t ∧ SameMemory s t ∧ SameHost s t ∧ t.envTick = s.envTick ∧ t.tlb = s.tlb
    ∧ ∀ sid : BitVec 15, matchingEntries t sid = []

/-- R182, R71, R183: with admissible fields, `S2C.CFG` writes the type code and the index (zero unless `Translate`),
preserves the other bits, and the entry then routes as its kind says. -/
def Obligations.StreamToContextWritten : Prop :=
  ∀ (i : Fin 48) (kind : StreamKind) (cbndx : BitVec 8) (s : State), fieldsAdmissible s.params = true → kind ≠ .reserved →
    (kind = .translate → cbndx.toNat < 16) →
    ∃ t : State, exec (.s2cCfg i.val kind cbndx) s = .next t ∧ UpdatesOnly (.s2cr i) s t
      ∧ regField t (.s2cr i) (s.params.field.s2crCbndxLo + 7) s.params.field.s2crCbndxLo = (if kind = .translate then cbndx.toNat else 0)
      ∧ (∀ p, p < 64 → inFields [(s.params.field.s2crTypeLo + 1, s.params.field.s2crTypeLo), (s.params.field.s2crCbndxLo + 7, s.params.field.s2crCbndxLo)] p = false →
          (t.regs.get (.s2cr i)).getLsbD p = (s.regs.get (.s2cr i)).getLsbD p)
      ∧ (kind = .translate → ∃ b : Fin 16, b.val = cbndx.toNat ∧ routeOf s.params.field (entryOf t.regs.s2cr i) = .throughBank b)
      ∧ (kind = .bypass → routeOf s.params.field (entryOf t.regs.s2cr i) = .untranslated)
      ∧ (kind = .fault → routeOf s.params.field (entryOf t.regs.s2cr i) = .faulted)
      ∧ SameBanks s t ∧ t.tlb = s.tlb

/-! ## Faults and the translation cache -/

/-- R195: `FR.SNAPG` reads status, then address, answers them, and has no side effect: a STORAGE register, memory and the
sequencer are unchanged, and the two registers keep every bit they held. The values are free but for the bits held. -/
def Obligations.GlobalFaultSnapshot : Prop :=
  ∀ s : State, ∃ (t : State) (st ad : Word), exec .frSnapg s = .next t
    ∧ t.rsp = ⟨0#4, st, ad, 0#64⟩
    ∧ t.trace = s.trace ++ [readRec s.params .gfsr st, readRec s.params .gfar ad]
    ∧ st.toNat < 2 ^ 32 ∧ ad.toNat < 2 ^ 32
    ∧ (∀ p, (s.regs.get .gfsr).getLsbD p = true → st.getLsbD p = true)
    ∧ (∀ p, (s.regs.get .gfar).getLsbD p = true → ad.getLsbD p = true)
    ∧ t.regs.get .gfsr = st ∧ t.regs.get .gfar = ad
    ∧ SameRegsBut [.gfsr, .gfar] s t ∧ SameBanks s t ∧ SameMemory s t ∧ SameHost s t ∧ t.tlb = s.tlb

/-- R196: `FR.SNAPC` reads status, address and syndrome of the bank, in that order, in every sequencer state, answers
them, and has no side effect. The values are free but for the bits held. -/
def Obligations.ContextFaultSnapshot : Prop :=
  ∀ (i : Fin 16) (s : State), ∃ (t : State) (st ad sy : Word), exec (.frSnapc i.val) s = .next t
    ∧ t.rsp = ⟨0#4, st, ad, sy⟩
    ∧ t.trace = s.trace ++ [readRec s.params (.cbFsr i) st, readRec s.params (.cbFar i) ad, readRec s.params (.cbFsynr i) sy]
    ∧ (∀ p, (s.regs.get (.cbFsr i)).getLsbD p = true → st.getLsbD p = true)
    ∧ (∀ p, p < regBits s.params (.cbFar i) → (s.regs.get (.cbFar i)).getLsbD p = true → ad.getLsbD p = true)
    ∧ (∀ p, (s.regs.get (.cbFsynr i)).getLsbD p = true → sy.getLsbD p = true)
    ∧ t.regs.get (.cbFsr i) = st ∧ t.regs.get (.cbFar i) = ad ∧ t.regs.get (.cbFsynr i) = sy
    ∧ SameRegsBut [.cbFsr i, .cbFar i, .cbFsynr i] s t ∧ SameBanks s t ∧ SameMemory s t ∧ SameHost s t ∧ t.tlb = s.tlb

/-- R197, R37: `FR.CLEARALL` makes 52 writes of all ones in the rule's order, reads nothing, and leaves every fault
register with no bit set, so that the interrupt line is not pending (R226, R47): the command's own effect, to which the step
adds every bit the SMMU set after a register's write, before the command's end or later (log 5, SmmuSetsBitsDuringAnyStep); nothing else changes, whatever the banks' states. `RegistersFit` is part of the invariant `Inv`. That
address and syndrome registers are W1C follows the document, not the architecture (U9, log 5). -/
def Obligations.FaultRegistersCleared : Prop :=
  ∀ s : State, RegistersFit s → ∃ t : State, exec .frClearall s = .next t
    ∧ t.rsp = ⟨0#4, 0#64, 0#64, 0#64⟩
    ∧ (∀ q : RegRef, q.regClass = .w1c → t.regs.get q = 0#64)
    ∧ (∀ q : RegRef, q.regClass ≠ .w1c → t.regs.get q = s.regs.get q)
    ∧ t.trace = s.trace ++ ([RegRef.gfsr, .gfsynr, .gfar] ++ (indices 16).flatMap (fun i => [RegRef.cbFsr i, RegRef.cbFsynr i, RegRef.cbFar i]) ++ [RegRef.topIsr]).map
        (fun r => writeRec s.params r (low (regBits s.params r) (BitVec.allOnes 64)))
    ∧ t.trace.length = s.trace.length + 52
    ∧ t.faultLine = false
    ∧ SameBanks s t ∧ SameMemory s t ∧ SameHost s t ∧ t.envTick = s.envTick ∧ t.tlb = s.tlb

/-- R198, R69: `FR.TLBIALL` writes zero to the secure trigger, then to the non-secure one, and afterwards the cache holds
no translation made before; nothing else changes. -/
def Obligations.TranslationCacheInvalidated : Prop :=
  ∀ s : State, ∃ t : State, exec .frTlbiall s = .next t
    ∧ t.rsp = ⟨0#4, 0#64, 0#64, 0#64⟩
    ∧ t.trace = s.trace ++ [writeRec s.params .tlbiS 0#64, writeRec s.params .tlbiNs 0#64]
    ∧ t.tlb = ⟨false, false⟩
    ∧ SameRegsBut [] s t ∧ SameBanks s t ∧ SameMemory s t ∧ SameHost s t ∧ t.envTick = s.envTick

/-- R43, R226: the line is pending exactly while the global, the top-level or some bank's fault status has a bit set; the
SMMU's own move and every command but `FR.CLEARALL` and the mapped ones (R63) leave a pending line pending. -/
def Obligations.PendingLineStaysUntilCleared : Prop :=
  (∀ s : State, s.faultLine = true ↔
      s.regs.get .gfsr ≠ 0#64 ∨ s.regs.get .topIsr ≠ 0#64 ∨ ∃ i : Fin 16, s.regs.get (.cbFsr i) ≠ 0#64)
    ∧ (∀ s : State, s.faultLine = true → s.smmuActs.faultLine = true)
    ∧ ∀ (i : Instr) (s t : State), exec i s = .next t → i.op ∉ [Op.frClearall, .sbrM, .sbM] → s.faultLine = true →
        t.faultLine = true

/-- R29, "at any time": whatever the step's command did, the clear of every fault register included, each fault register
holds, in the state the step leaves, what the command left in it and a free value's bits, no two registers sharing one. That
the bits set before, between and after the command's accesses all show at the step's end is the model's form (log 5). -/
def Obligations.SmmuSetsBitsDuringAnyStep : Prop :=
  (∀ (s t : State) (q : RegRef), step s = .next t → q.regClass = .w1c →
      ∃ u : State, issueNext s = .next u ∧
        t.regs.get q = low (regBits s.params q) (u.regs.get q ||| Config.freeWord u.envTick q.drawNumber))
    ∧ ∀ q r : RegRef, q.regClass = .w1c → r.regClass = .w1c → q.drawNumber = r.drawNumber → q = r

/-! ## Whole-machine rules -/

/-- R218, R211-R215, R219, R220: every command answers a next state, and its status is the first failure that applies, in
the rule's order, else `OK`: a function of the command, `cb_state` and the parameters alone. -/
def Obligations.StatusFollowsPriority : Prop :=
  ∀ (i : Instr) (s : State), ∃ t : State, exec i s = .next t ∧ t.rsp.status = expectedStatus s i

/-- R216: a command that fails, an illegal header included, changes nothing but the response, whose data words are zero;
in the step, beside it, only the SMMU has acted (`State.smmuActs`, log 5) and the host: the loaded command registers and its
own position. -/
def Obligations.FailureHasNoEffect : Prop :=
  (∀ (i : Instr) (s t : State), exec i s = .next t → t.rsp.status ≠ 0#4 → t = failed t.rsp.status s)
    ∧ ∀ (s t : State) (c : HostCommand), s.program[s.position]? = some c → step s = .next t → t.rsp.status ≠ 0#4 →
        t = State.smmuActs { failed t.rsp.status s with
          cw := c.cw, opa := c.opa.value s.rsp, opb := c.opb.value s.rsp, position := t.position }

/-- R101: data words a command does not use are zero, and on any status other than `OK` all three are zero, an illegal
header's answer included. -/
def Obligations.UnusedDataWordsZero : Prop :=
  (∀ (i : Instr) (s t : State), exec i s = .next t →
      (t.rsp.status = 0#4 →
        (i.op ∉ [Op.sbrI, .sbI, .sbrM, .sbM, .ttBuild, .frSnapg, .frSnapc] → t.rsp.d0 = 0#64)
          ∧ (i.op ∉ [Op.frSnapg, .frSnapc] → t.rsp.d1 = 0#64) ∧ (i.op ≠ .frSnapc → t.rsp.d2 = 0#64))
        ∧ (t.rsp.status ≠ 0#4 → t.rsp.d0 = 0#64 ∧ t.rsp.d1 = 0#64 ∧ t.rsp.d2 = 0#64))
    ∧ ∀ (s t : State) (c : HostCommand), s.program[s.position]? = some c → step s = .next t → t.rsp.status ≠ 0#4 →
        t.rsp.d0 = 0#64 ∧ t.rsp.d1 = 0#64 ∧ t.rsp.d2 = 0#64

/-- R60, R56: a successful command makes exactly the accesses the table lists, in order; a failed one makes none. -/
def Obligations.AccessesAreThoseOwed : Prop :=
  ∀ (i : Instr) (s t : State), exec i s = .next t →
    ∃ l : List Access, t.trace = s.trace ++ l
      ∧ (t.rsp.status = 0#4 → l.map shapeOf = owedAccesses s.params i) ∧ (t.rsp.status ≠ 0#4 → l = [])

/-- R220: no value read from the register space decides anything: two states that agree on the sequencer's state and the
parameters give the same status, the same accesses by kind, address and size, and the same sequencer state. -/
def Obligations.NoRegisterValueDecides : Prop :=
  ∀ (i : Instr) (s u : State), u.cbState = s.cbState → u.cbAw = s.cbAw → u.params = s.params →
    ∃ t v : State, exec i s = .next t ∧ exec i u = .next v ∧ v.rsp.status = t.rsp.status
      ∧ (v.trace.drop u.trace.length).map shapeOf = (t.trace.drop s.trace.length).map shapeOf
      ∧ v.cbState = t.cbState ∧ v.cbAw = t.cbAw

/-- R22, R13: the block never writes the command registers, and no command touches the host's list and position or the
parameters; a step keeps the list and the parameters. -/
def Obligations.CommandRegistersNeverWritten : Prop :=
  (∀ (i : Instr) (s t : State), exec i s = .next t → SameHost s t)
    ∧ ∀ s t : State, step s = .next t → t.program = s.program ∧ t.params = s.params

/-- The invariant holds after every step from every state that meets it. -/
def Obligations.StepKeepsInvariant : Prop := ∀ s t : State, Inv s → step s = .next t → Inv t

/-- R13, R40: the invariant holds right after reset, for every parameters whose register map is admissible; and for the
default ones, which the spec marks as general knowledge (log 1), whose map is. What the registers hold at reset is the
model's choice (log 3). -/
def Obligations.ResetMeetsInvariant : Prop :=
  (∀ p : Params, mapAdmissible p → Inv (State.resetWith p))
    ∧ ∀ p : Params, p = defaultParams → State.reset = State.resetWith p ∧ Inv State.reset

/-- R44: after reset, whatever the parameters, every bank is `Disabled` and W32, and the response is `OK` with zero data
words. All but the first are the spec's own choice (D31). -/
def Obligations.ResetBlockState : Prop :=
  ∀ p : Params,
    (∀ i : Fin 16, (State.resetWith p).bankState i = .disabled ∧ (State.resetWith p).bankAw i = .w32)
      ∧ (State.resetWith p).rsp = ⟨0#4, 0#64, 0#64, 0#64⟩

/-- R45, R47: after reset, whatever the parameters, the SMMU bypasses everything, until the bypass bit of `SCR0` is cleared.
That the condition is the bypass bit being set is the model's choice of register values at reset (log 3). -/
def Obligations.ResetBypassesEverything : Prop :=
  ∀ p : Params, p.field.scr0BypassBit < 32 →
    (State.resetWith p).bypassAll = true ∧ ((State.resetWith p).regs.get .scr0).getLsbD p.field.scr0BypassBit = true
end

