-- ==== Sys2Proof/Laws/Bits.lean ====
section
/-! SUPPORT. What the accessor's pure functions do, bit by bit (spec/40_bitfield_accessor.md R110-R112). -/

namespace Sys2Proof.Machine

/-- R110, R112 laws 1 and 2: a bit of the field is the value's bit, any other bit is the image's. -/
theorem setBitRange_getLsbD {n : Nat} (img : BitVec n) (hi lo val p : Nat) (h : lo ≤ hi) :
    (setBitRange img hi lo val).getLsbD p =
      if lo ≤ p ∧ p ≤ hi ∧ p < n then val.testBit (p - lo) else img.getLsbD p := by
  have hi' : lo ≤ p → (p - lo < hi - lo + 1 ↔ p ≤ hi) := by omega
  simp only [setBitRange, BitVec.getLsbD_or, BitVec.getLsbD_and, BitVec.getLsbD_not, BitVec.getLsbD_ofNat,
    Nat.testBit_shiftLeft, Nat.testBit_two_pow_sub_one, Nat.testBit_mod_two_pow]
  by_cases hn : p < n
  · by_cases h1 : lo ≤ p
    · by_cases h2 : p ≤ hi
      · simp only [hn, h1, h2, (hi' h1).mpr h2]; simp
      · have h3 : ¬ p - lo < hi - lo + 1 := fun h => h2 ((hi' h1).mp h)
        simp only [hn, h1, h2, h3]; simp
    · simp only [hn, h1]; simp
  · simp only [hn, BitVec.getLsbD_of_ge img p (by omega)]; simp

/-- The bits of a word cut to `n` bits. -/
@[simp] theorem low_getLsbD (n : Nat) (v : Word) (p : Nat) :
    (low n v).getLsbD p = (decide (p < n) && v.getLsbD p) := by
  simp only [low, BitVec.getLsbD_setWidth]
  by_cases h : p < 64
  · simp [h]
  · simp [BitVec.getLsbD_of_ge v p (by omega), h]

/-- Cutting to the full width changes nothing. -/
@[simp] theorem low_full (v : Word) : low 64 v = v := by simp [low]

/-- A zero-extended 32-bit value is its own low half. -/
@[simp] theorem low_setWidth32 (v : BitVec 32) : low 32 (v.setWidth 64) = v.setWidth 64 := by
  apply BitVec.eq_of_getLsbD_eq; intro i hi
  by_cases h : i < 32
  · simp [h]
  · simp [h, BitVec.getLsbD_of_ge v i (by omega)]

/-- Cutting twice is cutting once. -/
@[simp] theorem low_low (n : Nat) (v : Word) : low n (low n v) = low n v := by
  apply BitVec.eq_of_getLsbD_eq; intro i hi; simp

/-- The low half, cut to 32 bits. -/
@[simp] theorem setWidth32_low (v : Word) : (low 32 v).setWidth 32 = v.setWidth 32 := by
  apply BitVec.eq_of_getLsbD_eq; intro i hi; simp [hi]

/-- The bits of an updated image held in a word (R114). -/
theorem insertAt_getLsbD (n : Nat) (img : Word) (hi lo val p : Nat) (h : lo ≤ hi) (hp : p < 64) :
    (insertAt n img hi lo val).getLsbD p =
      if lo ≤ p ∧ p ≤ hi ∧ p < n then val.testBit (p - lo) else decide (p < n) && img.getLsbD p := by
  simp only [insertAt, BitVec.getLsbD_setWidth, setBitRange_getLsbD _ _ _ _ _ h, hp, decide_true, Bool.true_and]

/-- An updated `n`-bit image is an `n`-bit image. -/
@[simp] theorem low_insertAt (n : Nat) (img : Word) (hi lo val : Nat) :
    low n (insertAt n img hi lo val) = insertAt n img hi lo val := by
  apply BitVec.eq_of_getLsbD_eq; intro i h64
  simp only [low_getLsbD, insertAt, BitVec.getLsbD_setWidth]
  by_cases h : i < n
  · simp [h]
  · simp [h, BitVec.getLsbD_of_ge (setBitRange (img.setWidth n) _ _ _) i (by omega)]

/-- A word cut to `n` bits is below `2 ^ n`. -/
theorem low_toNat_lt (n : Nat) (v : Word) : (low n v).toNat < 2 ^ n := by
  simp only [low, BitVec.toNat_setWidth]
  exact Nat.lt_of_le_of_lt (Nat.mod_le _ _) (Nat.mod_lt _ (Nat.two_pow_pos n))

/-- A word below `2 ^ n` is its own cut to `n` bits. -/
theorem low_of_toNat_lt (n : Nat) (v : Word) (h : v.toNat < 2 ^ n) : low n v = v := by
  apply BitVec.eq_of_getLsbD_eq
  intro p hp
  rw [low_getLsbD]
  by_cases h2 : p < n
  · simp [h2]
  · simp only [h2, decide_false, Bool.false_and]
    exact (Nat.testBit_lt_two_pow (Nat.lt_of_lt_of_le h (Nat.pow_le_pow_right (by decide) (by omega)))).symm

/-- R15: the bits of a field. -/
theorem fieldOf_testBit (v hi lo p : Nat) : (fieldOf v hi lo).testBit p = (decide (p < hi - lo + 1) && v.testBit (lo + p)) := by
  simp [fieldOf, Nat.testBit_mod_two_pow, Nat.testBit_shiftRight]

/-- R57: the bits of a byte of a word. -/
theorem byteOf_getLsbD (v : Word) (k p : Nat) : (byteOf v k).getLsbD p = (decide (p < 8) && v.getLsbD (8 * k + p)) := by
  simp [byteOf]

/-- R57: the word of a byte list, lowest byte first. -/
theorem wordOfBytes_getLsbD (bs : List Byte) (p : Nat) (hp : p < 64) :
    (wordOfBytes bs).getLsbD p = (bs[p / 8]?.map fun b => b.getLsbD (p % 8)).getD false := by
  induction bs generalizing p with
  | nil => simp [wordOfBytes]
  | cons b bs ih =>
    by_cases h : p < 8
    · have h0 : p / 8 = 0 := by omega
      have h1 : p % 8 = p := by omega
      simp [wordOfBytes, hp, h, h0, h1]
    · have h0 : p / 8 = (p - 8) / 8 + 1 := by omega
      have h1 : p % 8 = (p - 8) % 8 := by omega
      have h2 := ih (p - 8) (by omega)
      have h3 : (b.setWidth 64).getLsbD p = false := by
        rw [BitVec.getLsbD_setWidth, BitVec.getLsbD_of_ge b p (by omega), Bool.and_false]
      rw [wordOfBytes, BitVec.getLsbD_or, h3, Bool.false_or, BitVec.getLsbD_shiftLeft, h2]
      simp [hp, h, h0, h1]

end Sys2Proof.Machine
end

