-- ==== Sys2Proof/Laws/Encoding.lean ====
section
/-! SUPPORT. The bits of the three header formats and of the operand fields they carry (spec/30_encoding.md R82-R85). -/

namespace Sys2Proof

/-- R82: the bits of a format-F header. -/
theorem headerF_getLsbD (op : BitVec 8) (sz : SizeCode) (hi lo p : Nat) :
    (headerF op sz hi lo).getLsbD p =
      if p < 10 then false else if p < 16 then (BitVec.ofNat 6 lo).getLsbD (p - 10)
      else if p < 22 then (BitVec.ofNat 6 hi).getLsbD (p - 16)
      else if p < 24 then sz.code.getLsbD (p - 22) else op.getLsbD (p - 24) := by
  show @BitVec.getLsbD (8 + (2 + (6 + (6 + 10))))
    (op ++ (sz.code ++ (BitVec.ofNat 6 hi ++ (BitVec.ofNat 6 lo ++ 0#10)))) p = _
  simp only [BitVec.getLsbD_append]
  repeat' split
  all_goals first | omega | rfl | simp

/-- R83: the bits of a format-X header. -/
theorem headerX_getLsbD (op : BitVec 8) (fl : BitVec 4) (idx p : Nat) :
    (headerX op fl idx).getLsbD p =
      if p < 10 then (BitVec.ofNat 10 idx).getLsbD p else if p < 16 then false
      else if p < 20 then fl.getLsbD (p - 16)
      else if p < 24 then false else op.getLsbD (p - 24) := by
  show @BitVec.getLsbD (8 + (4 + (4 + (6 + 10)))) (op ++ (0#4 ++ (fl ++ (0#6 ++ BitVec.ofNat 10 idx)))) p = _
  simp only [BitVec.getLsbD_append]
  repeat' split
  all_goals first | omega | rfl | simp

/-- One flag bit in the flags of a format-X header. -/
theorem oneFlag_getLsbD (b : Bool) (p : Nat) : (0#3 ++ flagBit b : BitVec 4).getLsbD p = (decide (p = 0) && b) := by
  show @BitVec.getLsbD (3 + 1) (0#3 ++ flagBit b) p = _
  rw [BitVec.getLsbD_append]
  by_cases h : p = 0 <;> simp [h, flagBit]

/-- The three flag bits of `CB.ENABLE` (R83). -/
theorem enableFlags_getLsbD (en fr fi : Bool) (p : Nat) :
    (0#1 ++ (flagBit fi ++ (flagBit fr ++ flagBit en)) : BitVec 4).getLsbD p =
      if p = 0 then en else if p = 1 then fr else decide (p = 2) && fi := by
  show @BitVec.getLsbD (1 + (1 + (1 + 1))) (0#1 ++ (flagBit fi ++ (flagBit fr ++ flagBit en))) p = _
  simp only [BitVec.getLsbD_append]
  match p with
  | 0 => simp [flagBit]
  | 1 => simp [flagBit]
  | 2 => simp [flagBit]
  | p + 3 => simp

/-- The kind in the flags of `S2C.CFG` (R83). -/
theorem kindFlags_getLsbD (c : BitVec 2) (p : Nat) : (0#2 ++ c : BitVec 4).getLsbD p = c.getLsbD p := by
  show @BitVec.getLsbD (2 + 2) (0#2 ++ c) p = _
  rw [BitVec.getLsbD_append]
  by_cases h : p < 2
  · simp [h]
  · simp [h, BitVec.getLsbD_of_ge c p (by omega)]

/-- A header selects the row whose pattern it is under the row's mask. -/
theorem selects_of_bits (r : OpRow) (cw : Header)
    (h : ∀ p, p < 32 → (cw.getLsbD p && r.mask.getLsbD p) = r.pattern.getLsbD p) : r.selects cw = true := by
  rw [OpRow.selects, beq_iff_eq]
  apply BitVec.eq_of_getLsbD_eq
  intro p hp
  rw [BitVec.getLsbD_and]
  exact h p hp

/-- R85: the width code is read back. -/
@[simp] theorem sizeOfCode_code (sz : SizeCode) : sizeOfCode sz.code = sz := by cases sz <;> rfl

/-- R83: the kind is read back. -/
@[simp] theorem kindOfCode_code (k : StreamKind) : kindOfCode k.code = k := by cases k <;> rfl

/-- R83: the address width is read back. -/
@[simp] theorem addrWidthOfBit_bit (aw : AddrWidth) : addrWidthOfBit aw.bit = aw := by cases aw <;> rfl

end Sys2Proof
end

