-- ==== Sys2Proof/Laws/Memory.lean ====
section
/-! SUPPORT. Table memory: read after write, the frame of a write, and the canonical form (spec/20_memory.md R52, R57). -/

namespace Sys2Proof.Machine

/-- A byte written reads back. -/
theorem read_write_same (m : Memory) (a : Nat) (b : Byte) : (m.write a b).read a = some b := by
  induction m with
  | nil => simp [Memory.write, Memory.read]
  | cons c m ih =>
    obtain ⟨k, v⟩ := c
    simp only [Memory.write]
    split
    · simp [Memory.read]
    · split
      · simp [Memory.read]
      · have hk : k ≠ a := by omega
        simp [Memory.read, hk, ih]

/-- A write leaves every other byte alone. -/
theorem read_write_other (m : Memory) (a x : Nat) (b : Byte) (h : x ≠ a) (hm : m.wf) : (m.write a b).read x = m.read x := by
  induction m with
  | nil => simp [Memory.write, Memory.read, h.symm]
  | cons c m ih =>
    obtain ⟨k, v⟩ := c
    have hm' : Memory.wf m := (List.pairwise_cons.mp hm).2
    simp only [Memory.write]
    split
    · simp [Memory.read, h.symm]
    · split
      · subst_vars; simp [Memory.read, h.symm]
      · simp only [Memory.read, ih hm']

/-- Every entry after a write is the byte written or an entry before. -/
theorem mem_write {m : Memory} {a : Nat} {b : Byte} {c : Host.Cell} (h : c ∈ m.write a b) : c = (a, b) ∨ c ∈ m := by
  induction m with
  | nil => simpa [Memory.write] using h
  | cons d m ih =>
    obtain ⟨k, v⟩ := d
    simp only [Memory.write] at h
    split at h
    · simpa using h
    · split at h
      · rcases List.mem_cons.mp h with h | h
        · exact .inl h
        · exact .inr (List.mem_cons_of_mem _ h)
      · rcases List.mem_cons.mp h with h | h
        · exact .inr (h ▸ List.mem_cons_self)
        · rcases ih h with h | h
          · exact .inl h
          · exact .inr (List.mem_cons_of_mem _ h)

/-- A write keeps the canonical form. -/
theorem write_wf {m : Memory} (a : Nat) (b : Byte) (hm : m.wf) : (m.write a b).wf := by
  induction m with
  | nil => simp [Memory.write, Memory.wf]
  | cons c m ih =>
    obtain ⟨k, v⟩ := c
    obtain ⟨h1, h2⟩ := List.pairwise_cons.mp hm
    simp only [Memory.write]
    split
    · refine List.pairwise_cons.mpr ⟨?_, hm⟩
      intro d hd
      rcases List.mem_cons.mp hd with hd | hd
      · subst hd; assumption
      · have := h1 d hd; simp only at this ⊢; omega
    · split
      · subst_vars; exact List.pairwise_cons.mpr ⟨fun d hd => h1 d hd, h2⟩
      · refine List.pairwise_cons.mpr ⟨?_, ih h2⟩
        intro d hd
        rcases mem_write hd with hd | hd
        · subst hd; simp only; omega
        · exact h1 d hd

/-- Writing bytes keeps the canonical form. -/
theorem writeBytes_wf {m : Memory} (a : Nat) (bs : List Byte) (hm : m.wf) : (m.writeBytes a bs).wf := by
  induction bs generalizing m a with
  | nil => exact hm
  | cons b bs ih => exact ih (a + 1) (write_wf a b hm)

/-- R52: an 8-byte write keeps the canonical form. -/
theorem write64_wf {m : Memory} (a : Nat) (v : Word) (hm : m.wf) : (m.write64 a v).wf := writeBytes_wf a _ hm

/-- The frame of a run of byte writes. -/
theorem read_writeBytes_other (m : Memory) (a x : Nat) (bs : List Byte) (hm : m.wf) (h : x < a ∨ a + bs.length ≤ x) :
    (m.writeBytes a bs).read x = m.read x := by
  induction bs generalizing m a with
  | nil => rfl
  | cons b bs ih =>
    simp only [List.length_cons] at h
    rw [Memory.writeBytes, ih _ _ (write_wf a b hm) (by omega), read_write_other _ _ _ _ (by omega) hm]

/-- What a run of byte writes leaves at its own addresses. -/
theorem read_writeBytes_same (m : Memory) (a k : Nat) (bs : List Byte) (hm : m.wf) (h : k < bs.length) :
    (m.writeBytes a bs).read (a + k) = some bs[k] := by
  induction bs generalizing m a k with
  | nil => simp at h
  | cons b bs ih =>
    cases k with
    | zero =>
      rw [Memory.writeBytes, read_writeBytes_other _ _ _ _ (write_wf a b hm) (by omega)]
      exact read_write_same m a b
    | succ k =>
      have := ih (m.write a b) (a + 1) k (write_wf a b hm) (by simpa using h)
      simpa [Memory.writeBytes, Nat.add_assoc, Nat.add_comm 1 k] using this

/-- Eight bytes. -/
@[simp] theorem bytesOf_length (v : Word) : (bytesOf v).length = 8 := by simp [bytesOf]

/-- R57: byte `k` of the eight. -/
theorem bytesOf_getElem (v : Word) (k : Nat) (h : k < (bytesOf v).length) : (bytesOf v)[k] = byteOf v k := by
  simp [bytesOf]

/-- R57: a table write puts byte `k` of the value at `a + k`. -/
theorem read_write64_same (m : Memory) (a k : Nat) (v : Word) (hm : m.wf) (h : k < 8) :
    (m.write64 a v).read (a + k) = some (byteOf v k) := by
  rw [Memory.write64, read_writeBytes_same m a k _ hm (by simpa using h), bytesOf_getElem]

/-- R52: a table write leaves every byte outside its eight alone. -/
theorem read_write64_other (m : Memory) (a x : Nat) (v : Word) (hm : m.wf) (h : x < a ∨ a + 8 ≤ x) :
    (m.write64 a v).read x = m.read x := read_writeBytes_other m a x _ hm (by simpa using h)

/-- Eight readable bytes read as their word. -/
theorem read64_of_bytes (m : Memory) (a : Nat) (v : Word) (h : ∀ k, k < 8 → m.read (a + k) = some (byteOf v k)) :
    m.read64 a = some v := by
  have hb : m.readBytes a 8 = some (bytesOf v) := by
    have h0 := h 0 (by omega)
    have h1 := h 1 (by omega)
    have h2 := h 2 (by omega)
    have h3 := h 3 (by omega)
    have h4 := h 4 (by omega)
    have h5 := h 5 (by omega)
    have h6 := h 6 (by omega)
    have h7 := h 7 (by omega)
    simp [Memory.readBytes, bytesOf, List.range, List.range.loop, Nat.add_assoc] at *
    simp [h0, h1, h2, h3, h4, h5, h6, h7]
  rw [Memory.read64, hb, Option.map_some]
  congr 1
  apply BitVec.eq_of_getLsbD_eq
  intro i hi
  have h8 : i / 8 < 8 := by omega
  have h9 : i % 8 < 8 := by omega
  have h10 : 8 * (i / 8) + i % 8 = i := by omega
  rw [wordOfBytes_getLsbD _ _ hi, List.getElem?_eq_getElem (by simpa using h8)]
  simp only [Option.map_some, Option.getD_some, bytesOf_getElem, byteOf_getLsbD, h9, h10, decide_true, Bool.true_and]

/-- R135: a stored word reads back unchanged. -/
theorem read64_write64_same (m : Memory) (a : Nat) (v : Word) (hm : m.wf) : (m.write64 a v).read64 a = some v :=
  read64_of_bytes _ _ _ fun k hk => read_write64_same m a k v hm hk

end Sys2Proof.Machine
end

