-- ==== Sys2Proof/Laws/Registers.lean ====
section
/-! SUPPORT. The register file: read after write, and a write to one register leaves every other alone
(spec/10_state.md R29). -/

namespace Sys2Proof.Machine

/-- An element just replaced. -/
@[simp] theorem entryOf_withEntry_same {α : Type} {n : Nat} (v : Vector α n) (i : Fin n) (x : α) :
    entryOf (withEntry v i x) i = x := by
  simp [entryOf, withEntry]

/-- The other elements. -/
@[simp] theorem entryOf_withEntry_other {α : Type} {n : Nat} (v : Vector α n) (i j : Fin n) (x : α) (h : j ≠ i) :
    entryOf (withEntry v i x) j = entryOf v j := by
  have h' : i.val ≠ j.val := fun e => h (Fin.ext e.symm)
  simp [entryOf, withEntry, h']

/-- Both cases. -/
theorem entryOf_withEntry {α : Type} {n : Nat} (v : Vector α n) (i j : Fin n) (x : α) :
    entryOf (withEntry v i x) j = if j = i then x else entryOf v j := by
  by_cases h : j = i
  · subst h; simp
  · simp [h]

/-- Two arrays that agree everywhere are equal. -/
theorem vector_ext_entryOf {α : Type} {n : Nat} {v w : Vector α n} (h : ∀ i, entryOf v i = entryOf w i) : v = w := by
  apply Vector.ext
  intro i hi
  exact h ⟨i, hi⟩

/-- The bits of a register that the file holds: 64 for a table base and a fault address, none for a trigger, else 32. -/
def heldBits : RegRef → Nat
  | .cbTtbr _ => 64
  | .cbFar _ => 64
  | .tlbiS => 0
  | .tlbiNs => 0
  | _ => 32

/-- A register holds what was put into it. -/
theorem get_set_same (f : RegFile) (r : RegRef) (v : Word) : (f.set r v).get r = low (heldBits r) v := by
  have h32 : (v.setWidth 32).setWidth 64 = low 32 v := rfl
  have h0 : low 0 v = 0#64 := by apply BitVec.eq_of_getLsbD_eq; simp
  cases r <;> simp [RegFile.set, RegFile.get, RegFile.setBank, heldBits, h32, h0]

/-- Putting a value into one register leaves every other alone. -/
theorem get_set_other (f : RegFile) (r q : RegRef) (v : Word) (h : q ≠ r) : (f.set r v).get q = f.get q := by
  cases r <;> cases q <;> first
    | rfl
    | (simp only [RegFile.set, RegFile.get, RegFile.setBank, entryOf_withEntry]; split <;> simp_all)
    | simp_all

/-- Every fault register takes `g` of its content, every other register is left alone. -/
theorem get_mapFault (f : RegFile) (g : RegRef → Word → Word) (r : RegRef) :
    (f.mapFault g).get r = if r.regClass = .w1c then low (heldBits r) (g r (f.get r)) else f.get r := by
  have h32 (v : Word) : (v.setWidth 32).setWidth 64 = low 32 v := rfl
  cases r <;> simp [RegFile.mapFault, RegFile.get, RegRef.regClass, heldBits, entryOf, h32]

/-- A register read is within its held bits. -/
@[simp] theorem low_get (f : RegFile) (r : RegRef) : low (heldBits r) (f.get r) = f.get r := by
  cases r <;> simp [RegFile.get, heldBits]
  all_goals simp [low]

/-- The inventory holds every register (R30). -/
theorem mem_allRegs (r : RegRef) : r ∈ allRegs := by
  cases r <;> simp [allRegs, bankRegs, indices]

end Sys2Proof.Machine
end

