-- ==== Sys2Proof/Laws/State.lean ====
section
/-! SUPPORT. One lemma per field per update of the state, so that no later proof unfolds a record update. -/

namespace Sys2Proof.Machine

/-! ## The updates as a whole -/

/-- `raise S` (R216) always answers, and changes the response only. -/
theorem raise_eq (st : Status) (s : State) : raise st s = .next { s with rsp := ⟨st.code, 0#64, 0#64, 0#64⟩ } := rfl

/-- `done` (R17) always answers, and changes the response only. -/
theorem complete_eq (d0 d1 d2 : Word) (s : State) : complete d0 d1 d2 s = .next { s with rsp := ⟨0#4, d0, d1, d2⟩ } := rfl

/-! ## What `State.smmuActs` leaves alone (R29), and what it writes -/

@[simp] theorem smmuActs_cbState (s : State) : s.smmuActs.cbState = s.cbState := rfl
@[simp] theorem smmuActs_cbAw (s : State) : s.smmuActs.cbAw = s.cbAw := rfl
@[simp] theorem smmuActs_cw (s : State) : s.smmuActs.cw = s.cw := rfl
@[simp] theorem smmuActs_opa (s : State) : s.smmuActs.opa = s.opa := rfl
@[simp] theorem smmuActs_opb (s : State) : s.smmuActs.opb = s.opb := rfl
@[simp] theorem smmuActs_rsp (s : State) : s.smmuActs.rsp = s.rsp := rfl
@[simp] theorem smmuActs_tableMem (s : State) : s.smmuActs.tableMem = s.tableMem := rfl
@[simp] theorem smmuActs_tlb (s : State) : s.smmuActs.tlb = s.tlb := rfl
@[simp] theorem smmuActs_program (s : State) : s.smmuActs.program = s.program := rfl
@[simp] theorem smmuActs_position (s : State) : s.smmuActs.position = s.position := rfl
@[simp] theorem smmuActs_params (s : State) : s.smmuActs.params = s.params := rfl
@[simp] theorem smmuActs_trace (s : State) : s.smmuActs.trace = s.trace := rfl
@[simp] theorem smmuActs_envTick (s : State) : s.smmuActs.envTick = s.envTick + 1 := rfl
@[simp] theorem smmuActs_regs (s : State) : s.smmuActs.regs = s.regs.mapFault (smmuSets s.params s.envTick) := rfl

/-! ## What `State.afterRead` leaves alone (R51) -/

@[simp] theorem afterRead_cbState (s : State) (r : RegRef) : (s.afterRead r).cbState = s.cbState := rfl
@[simp] theorem afterRead_cbAw (s : State) (r : RegRef) : (s.afterRead r).cbAw = s.cbAw := rfl
@[simp] theorem afterRead_cw (s : State) (r : RegRef) : (s.afterRead r).cw = s.cw := rfl
@[simp] theorem afterRead_opa (s : State) (r : RegRef) : (s.afterRead r).opa = s.opa := rfl
@[simp] theorem afterRead_opb (s : State) (r : RegRef) : (s.afterRead r).opb = s.opb := rfl
@[simp] theorem afterRead_rsp (s : State) (r : RegRef) : (s.afterRead r).rsp = s.rsp := rfl
@[simp] theorem afterRead_tableMem (s : State) (r : RegRef) : (s.afterRead r).tableMem = s.tableMem := rfl
@[simp] theorem afterRead_tlb (s : State) (r : RegRef) : (s.afterRead r).tlb = s.tlb := rfl
@[simp] theorem afterRead_program (s : State) (r : RegRef) : (s.afterRead r).program = s.program := rfl
@[simp] theorem afterRead_position (s : State) (r : RegRef) : (s.afterRead r).position = s.position := rfl
@[simp] theorem afterRead_params (s : State) (r : RegRef) : (s.afterRead r).params = s.params := rfl

/-! ## What `State.regWrite` leaves alone (R51) -/

@[simp] theorem regWrite_cbState (s : State) (r : RegRef) (v : Word) : (s.regWrite r v).cbState = s.cbState := rfl
@[simp] theorem regWrite_cbAw (s : State) (r : RegRef) (v : Word) : (s.regWrite r v).cbAw = s.cbAw := rfl
@[simp] theorem regWrite_cw (s : State) (r : RegRef) (v : Word) : (s.regWrite r v).cw = s.cw := rfl
@[simp] theorem regWrite_opa (s : State) (r : RegRef) (v : Word) : (s.regWrite r v).opa = s.opa := rfl
@[simp] theorem regWrite_opb (s : State) (r : RegRef) (v : Word) : (s.regWrite r v).opb = s.opb := rfl
@[simp] theorem regWrite_rsp (s : State) (r : RegRef) (v : Word) : (s.regWrite r v).rsp = s.rsp := rfl
@[simp] theorem regWrite_tableMem (s : State) (r : RegRef) (v : Word) : (s.regWrite r v).tableMem = s.tableMem := rfl
@[simp] theorem regWrite_program (s : State) (r : RegRef) (v : Word) : (s.regWrite r v).program = s.program := rfl
@[simp] theorem regWrite_position (s : State) (r : RegRef) (v : Word) : (s.regWrite r v).position = s.position := rfl
@[simp] theorem regWrite_params (s : State) (r : RegRef) (v : Word) : (s.regWrite r v).params = s.params := rfl
@[simp] theorem regWrite_envTick (s : State) (r : RegRef) (v : Word) : (s.regWrite r v).envTick = s.envTick := rfl

/-! ## What `State.rmw` leaves alone (R62) -/

@[simp] theorem rmw_cbState (s : State) (r : RegRef) (f : Word → Word) : (s.rmw r f).cbState = s.cbState := rfl
@[simp] theorem rmw_cbAw (s : State) (r : RegRef) (f : Word → Word) : (s.rmw r f).cbAw = s.cbAw := rfl
@[simp] theorem rmw_cw (s : State) (r : RegRef) (f : Word → Word) : (s.rmw r f).cw = s.cw := rfl
@[simp] theorem rmw_opa (s : State) (r : RegRef) (f : Word → Word) : (s.rmw r f).opa = s.opa := rfl
@[simp] theorem rmw_opb (s : State) (r : RegRef) (f : Word → Word) : (s.rmw r f).opb = s.opb := rfl
@[simp] theorem rmw_rsp (s : State) (r : RegRef) (f : Word → Word) : (s.rmw r f).rsp = s.rsp := rfl
@[simp] theorem rmw_tableMem (s : State) (r : RegRef) (f : Word → Word) : (s.rmw r f).tableMem = s.tableMem := rfl
@[simp] theorem rmw_program (s : State) (r : RegRef) (f : Word → Word) : (s.rmw r f).program = s.program := rfl
@[simp] theorem rmw_position (s : State) (r : RegRef) (f : Word → Word) : (s.rmw r f).position = s.position := rfl
@[simp] theorem rmw_params (s : State) (r : RegRef) (f : Word → Word) : (s.rmw r f).params = s.params := rfl

/-! ## What `State.mixedWrite` leaves alone (R118) -/

@[simp] theorem mixedWrite_cbState (s : State) (a n : Nat) (v : Word) : (s.mixedWrite a n v).cbState = s.cbState := rfl
@[simp] theorem mixedWrite_cbAw (s : State) (a n : Nat) (v : Word) : (s.mixedWrite a n v).cbAw = s.cbAw := rfl
@[simp] theorem mixedWrite_cw (s : State) (a n : Nat) (v : Word) : (s.mixedWrite a n v).cw = s.cw := rfl
@[simp] theorem mixedWrite_opa (s : State) (a n : Nat) (v : Word) : (s.mixedWrite a n v).opa = s.opa := rfl
@[simp] theorem mixedWrite_opb (s : State) (a n : Nat) (v : Word) : (s.mixedWrite a n v).opb = s.opb := rfl
@[simp] theorem mixedWrite_rsp (s : State) (a n : Nat) (v : Word) : (s.mixedWrite a n v).rsp = s.rsp := rfl
@[simp] theorem mixedWrite_tableMem (s : State) (a n : Nat) (v : Word) : (s.mixedWrite a n v).tableMem = s.tableMem := rfl
@[simp] theorem mixedWrite_program (s : State) (a n : Nat) (v : Word) : (s.mixedWrite a n v).program = s.program := rfl
@[simp] theorem mixedWrite_position (s : State) (a n : Nat) (v : Word) : (s.mixedWrite a n v).position = s.position := rfl
@[simp] theorem mixedWrite_params (s : State) (a n : Nat) (v : Word) : (s.mixedWrite a n v).params = s.params := rfl

/-! ## What `State.memWrite` leaves alone (R52) -/

@[simp] theorem memWrite_cbState (s : State) (a : Nat) (v : Word) : (s.memWrite a v).cbState = s.cbState := rfl
@[simp] theorem memWrite_cbAw (s : State) (a : Nat) (v : Word) : (s.memWrite a v).cbAw = s.cbAw := rfl
@[simp] theorem memWrite_cw (s : State) (a : Nat) (v : Word) : (s.memWrite a v).cw = s.cw := rfl
@[simp] theorem memWrite_opa (s : State) (a : Nat) (v : Word) : (s.memWrite a v).opa = s.opa := rfl
@[simp] theorem memWrite_opb (s : State) (a : Nat) (v : Word) : (s.memWrite a v).opb = s.opb := rfl
@[simp] theorem memWrite_rsp (s : State) (a : Nat) (v : Word) : (s.memWrite a v).rsp = s.rsp := rfl
@[simp] theorem memWrite_regs (s : State) (a : Nat) (v : Word) : (s.memWrite a v).regs = s.regs := rfl
@[simp] theorem memWrite_program (s : State) (a : Nat) (v : Word) : (s.memWrite a v).program = s.program := rfl
@[simp] theorem memWrite_position (s : State) (a : Nat) (v : Word) : (s.memWrite a v).position = s.position := rfl
@[simp] theorem memWrite_params (s : State) (a : Nat) (v : Word) : (s.memWrite a v).params = s.params := rfl
@[simp] theorem memWrite_envTick (s : State) (a : Nat) (v : Word) : (s.memWrite a v).envTick = s.envTick := rfl

/-! ## What `State.setBankState` leaves alone (R20) -/

@[simp] theorem setBankState_cbAw (s : State) (i : Fin 16) (v : CbState) : (s.setBankState i v).cbAw = s.cbAw := rfl
@[simp] theorem setBankState_cw (s : State) (i : Fin 16) (v : CbState) : (s.setBankState i v).cw = s.cw := rfl
@[simp] theorem setBankState_opa (s : State) (i : Fin 16) (v : CbState) : (s.setBankState i v).opa = s.opa := rfl
@[simp] theorem setBankState_opb (s : State) (i : Fin 16) (v : CbState) : (s.setBankState i v).opb = s.opb := rfl
@[simp] theorem setBankState_rsp (s : State) (i : Fin 16) (v : CbState) : (s.setBankState i v).rsp = s.rsp := rfl
@[simp] theorem setBankState_regs (s : State) (i : Fin 16) (v : CbState) : (s.setBankState i v).regs = s.regs := rfl
@[simp] theorem setBankState_tableMem (s : State) (i : Fin 16) (v : CbState) : (s.setBankState i v).tableMem = s.tableMem := rfl
@[simp] theorem setBankState_tlb (s : State) (i : Fin 16) (v : CbState) : (s.setBankState i v).tlb = s.tlb := rfl
@[simp] theorem setBankState_program (s : State) (i : Fin 16) (v : CbState) : (s.setBankState i v).program = s.program := rfl
@[simp] theorem setBankState_position (s : State) (i : Fin 16) (v : CbState) : (s.setBankState i v).position = s.position := rfl
@[simp] theorem setBankState_params (s : State) (i : Fin 16) (v : CbState) : (s.setBankState i v).params = s.params := rfl
@[simp] theorem setBankState_trace (s : State) (i : Fin 16) (v : CbState) : (s.setBankState i v).trace = s.trace := rfl
@[simp] theorem setBankState_envTick (s : State) (i : Fin 16) (v : CbState) : (s.setBankState i v).envTick = s.envTick := rfl

/-! ## What `State.setBankAw` leaves alone (R21) -/

@[simp] theorem setBankAw_cbState (s : State) (i : Fin 16) (v : AddrWidth) : (s.setBankAw i v).cbState = s.cbState := rfl
@[simp] theorem setBankAw_cw (s : State) (i : Fin 16) (v : AddrWidth) : (s.setBankAw i v).cw = s.cw := rfl
@[simp] theorem setBankAw_opa (s : State) (i : Fin 16) (v : AddrWidth) : (s.setBankAw i v).opa = s.opa := rfl
@[simp] theorem setBankAw_opb (s : State) (i : Fin 16) (v : AddrWidth) : (s.setBankAw i v).opb = s.opb := rfl
@[simp] theorem setBankAw_rsp (s : State) (i : Fin 16) (v : AddrWidth) : (s.setBankAw i v).rsp = s.rsp := rfl
@[simp] theorem setBankAw_regs (s : State) (i : Fin 16) (v : AddrWidth) : (s.setBankAw i v).regs = s.regs := rfl
@[simp] theorem setBankAw_tableMem (s : State) (i : Fin 16) (v : AddrWidth) : (s.setBankAw i v).tableMem = s.tableMem := rfl
@[simp] theorem setBankAw_tlb (s : State) (i : Fin 16) (v : AddrWidth) : (s.setBankAw i v).tlb = s.tlb := rfl
@[simp] theorem setBankAw_program (s : State) (i : Fin 16) (v : AddrWidth) : (s.setBankAw i v).program = s.program := rfl
@[simp] theorem setBankAw_position (s : State) (i : Fin 16) (v : AddrWidth) : (s.setBankAw i v).position = s.position := rfl
@[simp] theorem setBankAw_params (s : State) (i : Fin 16) (v : AddrWidth) : (s.setBankAw i v).params = s.params := rfl
@[simp] theorem setBankAw_trace (s : State) (i : Fin 16) (v : AddrWidth) : (s.setBankAw i v).trace = s.trace := rfl
@[simp] theorem setBankAw_envTick (s : State) (i : Fin 16) (v : AddrWidth) : (s.setBankAw i v).envTick = s.envTick := rfl

/-! ## What `State.load` leaves alone (R22) -/

@[simp] theorem load_cbState (s : State) (c : HostCommand) : (s.load c).cbState = s.cbState := rfl
@[simp] theorem load_cbAw (s : State) (c : HostCommand) : (s.load c).cbAw = s.cbAw := rfl
@[simp] theorem load_rsp (s : State) (c : HostCommand) : (s.load c).rsp = s.rsp := rfl
@[simp] theorem load_regs (s : State) (c : HostCommand) : (s.load c).regs = s.regs := rfl
@[simp] theorem load_tableMem (s : State) (c : HostCommand) : (s.load c).tableMem = s.tableMem := rfl
@[simp] theorem load_tlb (s : State) (c : HostCommand) : (s.load c).tlb = s.tlb := rfl
@[simp] theorem load_program (s : State) (c : HostCommand) : (s.load c).program = s.program := rfl
@[simp] theorem load_position (s : State) (c : HostCommand) : (s.load c).position = s.position := rfl
@[simp] theorem load_params (s : State) (c : HostCommand) : (s.load c).params = s.params := rfl
@[simp] theorem load_trace (s : State) (c : HostCommand) : (s.load c).trace = s.trace := rfl
@[simp] theorem load_envTick (s : State) (c : HostCommand) : (s.load c).envTick = s.envTick := rfl

/-! ## What `State.advance` leaves alone (R25) -/

@[simp] theorem advance_cbState (s : State) (c : HostCommand) : (s.advance c).cbState = s.cbState := rfl
@[simp] theorem advance_cbAw (s : State) (c : HostCommand) : (s.advance c).cbAw = s.cbAw := rfl
@[simp] theorem advance_cw (s : State) (c : HostCommand) : (s.advance c).cw = s.cw := rfl
@[simp] theorem advance_opa (s : State) (c : HostCommand) : (s.advance c).opa = s.opa := rfl
@[simp] theorem advance_opb (s : State) (c : HostCommand) : (s.advance c).opb = s.opb := rfl
@[simp] theorem advance_rsp (s : State) (c : HostCommand) : (s.advance c).rsp = s.rsp := rfl
@[simp] theorem advance_regs (s : State) (c : HostCommand) : (s.advance c).regs = s.regs := rfl
@[simp] theorem advance_tableMem (s : State) (c : HostCommand) : (s.advance c).tableMem = s.tableMem := rfl
@[simp] theorem advance_tlb (s : State) (c : HostCommand) : (s.advance c).tlb = s.tlb := rfl
@[simp] theorem advance_program (s : State) (c : HostCommand) : (s.advance c).program = s.program := rfl
@[simp] theorem advance_params (s : State) (c : HostCommand) : (s.advance c).params = s.params := rfl
@[simp] theorem advance_trace (s : State) (c : HostCommand) : (s.advance c).trace = s.trace := rfl
@[simp] theorem advance_envTick (s : State) (c : HostCommand) : (s.advance c).envTick = s.envTick := rfl

/-! ## What the updates write -/

@[simp] theorem afterRead_trace (s : State) (r : RegRef) :
    (s.afterRead r).trace = s.trace ++ [⟨.regRead, regAddr s.params r, regBytes s.params r, s.readValue r⟩] := rfl

@[simp] theorem regWrite_trace (s : State) (r : RegRef) (v : Word) :
    (s.regWrite r v).trace = s.trace ++ [⟨.regWrite, regAddr s.params r, regBytes s.params r, low (regBits s.params r) v⟩] := rfl

@[simp] theorem regWrite_tlb (s : State) (r : RegRef) (v : Word) : (s.regWrite r v).tlb = tlbAfterWrite r s.tlb := rfl

@[simp] theorem memWrite_tableMem (s : State) (a : Nat) (v : Word) : (s.memWrite a v).tableMem = s.tableMem.write64 a v := rfl

@[simp] theorem memWrite_tlb (s : State) (a : Nat) (v : Word) : (s.memWrite a v).tlb = Tlb.stale := rfl

@[simp] theorem memWrite_trace (s : State) (a : Nat) (v : Word) :
    (s.memWrite a v).trace = s.trace ++ [⟨.memWrite, a, 8, v⟩] := rfl

@[simp] theorem setBankState_cbState (s : State) (i : Fin 16) (v : CbState) :
    (s.setBankState i v).cbState = withEntry s.cbState i v := rfl

@[simp] theorem setBankAw_cbAw (s : State) (i : Fin 16) (v : AddrWidth) : (s.setBankAw i v).cbAw = withEntry s.cbAw i v := rfl

@[simp] theorem load_cw (s : State) (c : HostCommand) : (s.load c).cw = c.cw := rfl

@[simp] theorem load_opa (s : State) (c : HostCommand) : (s.load c).opa = c.opa.value s.rsp := rfl

@[simp] theorem load_opb (s : State) (c : HostCommand) : (s.load c).opb = c.opb.value s.rsp := rfl

/-! ## What a mapped access leaves alone (R119) -/

@[simp] theorem afterMappedRead_cbState (s : State) (a n : Nat) : (s.afterMappedRead a n).cbState = s.cbState := by
  unfold State.afterMappedRead; split <;> rfl

@[simp] theorem afterMappedRead_cbAw (s : State) (a n : Nat) : (s.afterMappedRead a n).cbAw = s.cbAw := by
  unfold State.afterMappedRead; split <;> rfl

@[simp] theorem afterMappedRead_cw (s : State) (a n : Nat) : (s.afterMappedRead a n).cw = s.cw := by
  unfold State.afterMappedRead; split <;> rfl

@[simp] theorem afterMappedRead_opa (s : State) (a n : Nat) : (s.afterMappedRead a n).opa = s.opa := by
  unfold State.afterMappedRead; split <;> rfl

@[simp] theorem afterMappedRead_opb (s : State) (a n : Nat) : (s.afterMappedRead a n).opb = s.opb := by
  unfold State.afterMappedRead; split <;> rfl

@[simp] theorem afterMappedRead_rsp (s : State) (a n : Nat) : (s.afterMappedRead a n).rsp = s.rsp := by
  unfold State.afterMappedRead; split <;> rfl

@[simp] theorem afterMappedRead_tableMem (s : State) (a n : Nat) : (s.afterMappedRead a n).tableMem = s.tableMem := by
  unfold State.afterMappedRead; split <;> rfl

@[simp] theorem afterMappedRead_tlb (s : State) (a n : Nat) : (s.afterMappedRead a n).tlb = s.tlb := by
  unfold State.afterMappedRead; split <;> rfl

@[simp] theorem afterMappedRead_program (s : State) (a n : Nat) : (s.afterMappedRead a n).program = s.program := by
  unfold State.afterMappedRead; split <;> rfl

@[simp] theorem afterMappedRead_position (s : State) (a n : Nat) : (s.afterMappedRead a n).position = s.position := by
  unfold State.afterMappedRead; split <;> rfl

@[simp] theorem afterMappedRead_params (s : State) (a n : Nat) : (s.afterMappedRead a n).params = s.params := by
  unfold State.afterMappedRead; split <;> rfl

@[simp] theorem mappedWrite_cbState (s : State) (a n : Nat) (v : Word) : (s.mappedWrite a n v).cbState = s.cbState := by
  unfold State.mappedWrite; split <;> rfl

@[simp] theorem mappedWrite_cbAw (s : State) (a n : Nat) (v : Word) : (s.mappedWrite a n v).cbAw = s.cbAw := by
  unfold State.mappedWrite; split <;> rfl

@[simp] theorem mappedWrite_cw (s : State) (a n : Nat) (v : Word) : (s.mappedWrite a n v).cw = s.cw := by
  unfold State.mappedWrite; split <;> rfl

@[simp] theorem mappedWrite_opa (s : State) (a n : Nat) (v : Word) : (s.mappedWrite a n v).opa = s.opa := by
  unfold State.mappedWrite; split <;> rfl

@[simp] theorem mappedWrite_opb (s : State) (a n : Nat) (v : Word) : (s.mappedWrite a n v).opb = s.opb := by
  unfold State.mappedWrite; split <;> rfl

@[simp] theorem mappedWrite_rsp (s : State) (a n : Nat) (v : Word) : (s.mappedWrite a n v).rsp = s.rsp := by
  unfold State.mappedWrite; split <;> rfl

@[simp] theorem mappedWrite_tableMem (s : State) (a n : Nat) (v : Word) : (s.mappedWrite a n v).tableMem = s.tableMem := by
  unfold State.mappedWrite; split <;> rfl

@[simp] theorem mappedWrite_program (s : State) (a n : Nat) (v : Word) : (s.mappedWrite a n v).program = s.program := by
  unfold State.mappedWrite; split <;> rfl

@[simp] theorem mappedWrite_position (s : State) (a n : Nat) (v : Word) : (s.mappedWrite a n v).position = s.position := by
  unfold State.mappedWrite; split <;> rfl

@[simp] theorem mappedWrite_params (s : State) (a n : Nat) (v : Word) : (s.mappedWrite a n v).params = s.params := by
  unfold State.mappedWrite; split <;> rfl

/-! ## What a run of register writes leaves alone (R181, R197) -/

@[simp] theorem writeAll_cbState (s : State) (rs : List RegRef) (v : Word) : (s.writeAll rs v).cbState = s.cbState := by
  induction rs generalizing s with
  | nil => rfl
  | cons r rs ih => exact (ih (s.regWrite r v)).trans rfl

@[simp] theorem writeAll_cbAw (s : State) (rs : List RegRef) (v : Word) : (s.writeAll rs v).cbAw = s.cbAw := by
  induction rs generalizing s with
  | nil => rfl
  | cons r rs ih => exact (ih (s.regWrite r v)).trans rfl

@[simp] theorem writeAll_cw (s : State) (rs : List RegRef) (v : Word) : (s.writeAll rs v).cw = s.cw := by
  induction rs generalizing s with
  | nil => rfl
  | cons r rs ih => exact (ih (s.regWrite r v)).trans rfl

@[simp] theorem writeAll_opa (s : State) (rs : List RegRef) (v : Word) : (s.writeAll rs v).opa = s.opa := by
  induction rs generalizing s with
  | nil => rfl
  | cons r rs ih => exact (ih (s.regWrite r v)).trans rfl

@[simp] theorem writeAll_opb (s : State) (rs : List RegRef) (v : Word) : (s.writeAll rs v).opb = s.opb := by
  induction rs generalizing s with
  | nil => rfl
  | cons r rs ih => exact (ih (s.regWrite r v)).trans rfl

@[simp] theorem writeAll_rsp (s : State) (rs : List RegRef) (v : Word) : (s.writeAll rs v).rsp = s.rsp := by
  induction rs generalizing s with
  | nil => rfl
  | cons r rs ih => exact (ih (s.regWrite r v)).trans rfl

@[simp] theorem writeAll_tableMem (s : State) (rs : List RegRef) (v : Word) : (s.writeAll rs v).tableMem = s.tableMem := by
  induction rs generalizing s with
  | nil => rfl
  | cons r rs ih => exact (ih (s.regWrite r v)).trans rfl

@[simp] theorem writeAll_program (s : State) (rs : List RegRef) (v : Word) : (s.writeAll rs v).program = s.program := by
  induction rs generalizing s with
  | nil => rfl
  | cons r rs ih => exact (ih (s.regWrite r v)).trans rfl

@[simp] theorem writeAll_position (s : State) (rs : List RegRef) (v : Word) : (s.writeAll rs v).position = s.position := by
  induction rs generalizing s with
  | nil => rfl
  | cons r rs ih => exact (ih (s.regWrite r v)).trans rfl

@[simp] theorem writeAll_params (s : State) (rs : List RegRef) (v : Word) : (s.writeAll rs v).params = s.params := by
  induction rs generalizing s with
  | nil => rfl
  | cons r rs ih => exact (ih (s.regWrite r v)).trans rfl

@[simp] theorem writeAll_envTick (s : State) (rs : List RegRef) (v : Word) : (s.writeAll rs v).envTick = s.envTick := by
  induction rs generalizing s with
  | nil => rfl
  | cons r rs ih => exact (ih (s.regWrite r v)).trans rfl

end Sys2Proof.Machine
end

