-- ==== Sys2Proof/Laws/Ops.lean ====
section
/-! SUPPORT. One lemma per shared operation that says what it does, and the inversion lemma of `exec`: a command either
fails and changes the response only, or completes and leaves the host's side alone. -/

namespace Sys2Proof.Machine

/-! ## Reads and writes of named registers -/

/-- A register is 32 or 64 bits wide (R30, R41). -/
theorem regBits_cases (p : Params) (r : RegRef) : regBits p r = 32 ∨ regBits p r = 64 := by
  cases r <;> simp [regBits, OpenWidth.bits] <;> split <;> simp

/-- A register's width is a whole number of bytes. -/
theorem regBytes_mul (p : Params) (r : RegRef) : 8 * regBytes p r = regBits p r := by
  rcases regBits_cases p r with h | h <;> simp [regBytes, h]

/-- A read of a STORAGE register shows its content (R29). -/
theorem readValue_storage (s : State) (r : RegRef) (h : r.regClass = .storage) :
    s.readValue r = low (regBits s.params r) (s.regs.get r) := by simp [State.readValue, h]

/-- A read of a STORAGE register has no effect but its record (R63). -/
theorem afterRead_storage (s : State) (r : RegRef) (h : r.regClass = .storage) :
    s.afterRead r =
      { s with trace := s.trace ++ [⟨.regRead, regAddr s.params r, regBytes s.params r, s.readValue r⟩] } := by
  simp [State.afterRead, State.regsAfterRead, tickAfterRead, h]

/-- A read leaves every other register alone. -/
theorem afterRead_get_other (s : State) (r q : RegRef) (h : q ≠ r) : (s.afterRead r).regs.get q = s.regs.get q := by
  simp only [State.afterRead, State.regsAfterRead]
  split
  · rfl
  · exact get_set_other _ _ _ _ h
  · rfl
  · rfl

/-- A write leaves every other register alone. -/
theorem regWrite_get_other (s : State) (r q : RegRef) (v : Word) (h : q ≠ r) :
    (s.regWrite r v).regs.get q = s.regs.get q := by
  simp only [State.regWrite, State.regsAfterWrite]
  split
  · exact get_set_other _ _ _ _ h
  · exact get_set_other _ _ _ _ h
  · rfl
  · rfl

/-- The width of a register is at most what the file holds of it. -/
theorem low_heldBits_regBits (p : Params) (r : RegRef) (v : Word) (h : r.regClass ≠ .wtrig) :
    low (heldBits r) (low (regBits p r) v) = low (regBits p r) v := by
  cases r <;> first
    | exact absurd rfl h
    | simp [heldBits, regBits]

/-- A STORAGE register holds the value written, cut to its width (R29). -/
theorem regWrite_get_storage (s : State) (r : RegRef) (v : Word) (h : r.regClass = .storage) :
    (s.regWrite r v).regs.get r = low (regBits s.params r) v := by
  simp only [State.regWrite, State.regsAfterWrite, h, get_set_same]
  exact low_heldBits_regBits _ _ _ (by simp [h])

/-- A W1C register loses the bits written as 1 (R29). -/
theorem regWrite_get_w1c (s : State) (r : RegRef) (v : Word) (h : r.regClass = .w1c) :
    (s.regWrite r v).regs.get r = s.regs.get r &&& ~~~(low (regBits s.params r) v) := by
  simp only [State.regWrite, State.regsAfterWrite, h, get_set_same]
  apply BitVec.eq_of_getLsbD_eq
  intro i hi
  have hg := congrArg (fun w => BitVec.getLsbD w i) (low_get s.regs r)
  simp only [low_getLsbD] at hg
  simp only [low_getLsbD, BitVec.getLsbD_and]
  rw [← Bool.and_assoc, hg]

/-- A read of a W1C register leaves in it what the read showed. -/
theorem afterRead_get_w1c (s : State) (r : RegRef) (h : r.regClass = .w1c) :
    (s.afterRead r).regs.get r = s.readValue r := by
  simp only [State.afterRead, State.regsAfterRead, h, get_set_same]
  simp only [State.readValue, smmuSets, h]
  exact low_heldBits_regBits _ _ _ (by simp [h])

/-- A read of a W1C register shows every bit the register is known to hold. -/
theorem readValue_w1c_shows (s : State) (r : RegRef) (h : r.regClass = .w1c) (p : Nat) (hp : p < regBits s.params r)
    (hb : (s.regs.get r).getLsbD p = true) : (s.readValue r).getLsbD p = true := by
  simp [State.readValue, smmuSets, h, hp, hb]

/-- R62: a read-modify-write of a STORAGE register leaves `f` of the value read in it. -/
theorem rmw_get_storage (s : State) (r : RegRef) (f : Word → Word) (h : r.regClass = .storage) :
    (s.rmw r f).regs.get r = low (regBits s.params r) (f (low (regBits s.params r) (s.regs.get r))) := by
  rw [State.rmw, regWrite_get_storage _ _ _ h, readValue_storage _ _ h, afterRead_params]

/-- R62: a read-modify-write leaves every other register alone. -/
theorem rmw_get_other (s : State) (r q : RegRef) (f : Word → Word) (h : q ≠ r) :
    (s.rmw r f).regs.get q = s.regs.get q := by
  rw [State.rmw, regWrite_get_other _ _ _ _ h, afterRead_get_other _ _ _ h]

/-- R62: a read-modify-write is one read and one write. -/
theorem rmw_trace (s : State) (r : RegRef) (f : Word → Word) :
    (s.rmw r f).trace = s.trace ++ [⟨.regRead, regAddr s.params r, regBytes s.params r, s.readValue r⟩,
      ⟨.regWrite, regAddr s.params r, regBytes s.params r, low (regBits s.params r) (f (s.readValue r))⟩] := by
  simp [State.rmw]

/-- A read-modify-write and the cache. -/
theorem rmw_tlb (s : State) (r : RegRef) (f : Word → Word) : (s.rmw r f).tlb = tlbAfterWrite r s.tlb := rfl

/-- A read-modify-write of a STORAGE register uses no free value. -/
theorem rmw_envTick (s : State) (r : RegRef) (f : Word → Word) (h : r.regClass = .storage) :
    (s.rmw r f).envTick = s.envTick := by
  simp [State.rmw, afterRead_storage _ _ h]

/-! ## The SMMU's own move -/

/-- By itself the SMMU sets bits of fault registers and touches no other register (R29). -/
theorem smmuActs_get (s : State) (r : RegRef) :
    s.smmuActs.regs.get r = if r.regClass = .w1c then smmuSets s.params s.envTick r (s.regs.get r) else s.regs.get r := by
  rw [smmuActs_regs, get_mapFault]
  split
  · exact low_heldBits_regBits _ _ _ (by simp_all)
  · rfl

/-- It loses no bit that lies in the register's width. -/
theorem smmuActs_keeps (s : State) (r : RegRef) (p : Nat) (hp : p < regBits s.params r)
    (hb : (s.regs.get r).getLsbD p = true) : (s.smmuActs.regs.get r).getLsbD p = true := by
  rw [smmuActs_get]
  split
  · simp [smmuSets, hp, hb]
  · exact hb

/-- It moves no bank, and does not switch the bypass. -/
@[simp] theorem smmuActs_bankState (s : State) (i : Fin 16) : s.smmuActs.bankState i = s.bankState i := by
  simp only [State.bankState, smmuActs_cbState]

@[simp] theorem smmuActs_bankAw (s : State) (i : Fin 16) : s.smmuActs.bankAw i = s.bankAw i := by
  simp only [State.bankAw, smmuActs_cbAw]

@[simp] theorem smmuActs_bypassAll (s : State) : s.smmuActs.bypassAll = s.bypassAll := by
  simp only [State.bypassAll, smmuActs_params, smmuActs_regs, RegFile.mapFault]

/-! ## The step -/

/-- The SMMU's own move does not change which command comes next. -/
@[simp] theorem smmuActs_nextCommand (s : State) : s.smmuActs.nextCommand = s.nextCommand := by simp [State.nextCommand]

/-- The host's list is exhausted exactly where its position has passed it (R25). -/
theorem nextCommand_eq_none (s : State) : s.nextCommand = none ↔ s.program.length ≤ s.position := by
  simp [State.nextCommand]

/-- With an exhausted list the SMMU's own move is all that a step is. -/
theorem step_of_none (s : State) (h : s.nextCommand = none) : step s = .next s.smmuActs := by
  simp [step, issueNext, andSmmuActs, h]

/-- With a command to issue, a step is the load, the command, the host's move on, and the SMMU's own move. -/
theorem step_of_some (s : State) (c : HostCommand) (h : s.nextCommand = some c) :
    step s = andSmmuActs (andAdvance c (runLoaded (s.load c))) := by
  simp [step, issueNext, h]

/-- A step that goes on with a command is the command's own next state, then the host's move on, then the SMMU's. -/
theorem step_of_run (s t : State) (c : HostCommand) (h : s.nextCommand = some c) (run : runLoaded (s.load c) = .next t) :
    step s = .next (t.advance c).smmuActs := by
  rw [step_of_some s c h, run]; rfl

/-- A command register content that decodes is run. -/
theorem runLoaded_of_ok (s : State) (i : Instr) (h : decode s.frame = .ok i) : runLoaded s = exec i s := by
  simp [runLoaded, h]

/-- One that does not is answered `IllegalCommand`. -/
theorem runLoaded_of_error (s : State) (r : DecodeError) (h : decode s.frame = .error r) :
    runLoaded s = raise .illegalCommand s := by
  simp [runLoaded, h, illegal]

/-! ## Runs of writes -/

/-- The accesses of a run of writes, in list order. -/
theorem writeAll_trace (s : State) (rs : List RegRef) (v : Word) :
    (s.writeAll rs v).trace = s.trace ++
      rs.map fun r => ⟨.regWrite, regAddr s.params r, regBytes s.params r, low (regBits s.params r) v⟩ := by
  induction rs generalizing s with
  | nil => simp [State.writeAll]
  | cons r rs ih => exact (ih (s.regWrite r v)).trans (by simp)

/-- A run of writes leaves a register it does not name alone. -/
theorem writeAll_get_other (s : State) (rs : List RegRef) (v : Word) (q : RegRef) (h : q ∉ rs) :
    (s.writeAll rs v).regs.get q = s.regs.get q := by
  induction rs generalizing s with
  | nil => rfl
  | cons r rs ih =>
    have h1 : q ≠ r := fun e => h (e ▸ List.mem_cons_self)
    have h2 : q ∉ rs := fun e => h (List.mem_cons_of_mem _ e)
    exact (ih (s.regWrite r v) h2).trans (regWrite_get_other _ _ _ _ h1)

/-- A run of writes that does not touch a table base or a trigger leaves the cache alone. -/
theorem writeAll_tlb (s : State) (rs : List RegRef) (v : Word) (h : ∀ r ∈ rs, tlbAfterWrite r = id) :
    (s.writeAll rs v).tlb = s.tlb := by
  induction rs generalizing s with
  | nil => rfl
  | cons r rs ih =>
    refine (ih (s.regWrite r v) fun q hq => h q (List.mem_cons_of_mem _ hq)).trans ?_
    rw [regWrite_tlb, h r List.mem_cons_self]; rfl

/-- A STORAGE register named in a run of writes holds the value. -/
theorem writeAll_get_storage (s : State) (rs : List RegRef) (v : Word) (q : RegRef) (hq : q ∈ rs)
    (hc : q.regClass = .storage) : (s.writeAll rs v).regs.get q = low (regBits s.params q) v := by
  induction rs generalizing s with
  | nil => simp at hq
  | cons r rs ih =>
    by_cases h : q ∈ rs
    · exact (ih (s.regWrite r v) h).trans (by simp)
    · rcases List.mem_cons.mp hq with hq | hq
      · subst hq
        exact (writeAll_get_other (s.regWrite q v) rs v q h).trans (regWrite_get_storage _ _ _ hc)
      · exact absurd hq h

/-- Once a W1C register has lost a bit, a run of writes does not bring it back. -/
theorem writeAll_w1c_keeps_clear (s : State) (rs : List RegRef) (v : Word) (q : RegRef) (hc : q.regClass = .w1c)
    (h0 : s.regs.get q = 0#64) : (s.writeAll rs v).regs.get q = 0#64 := by
  induction rs generalizing s with
  | nil => exact h0
  | cons r rs ih =>
    refine ih (s.regWrite r v) ?_
    by_cases h : q = r
    · subst h; rw [regWrite_get_w1c _ _ _ hc, h0]; simp
    · rw [regWrite_get_other _ _ _ _ h, h0]

/-- What a W1C register holds is within its width. -/
theorem w1c_cleared_by_ones (s : State) (q : RegRef) (hc : q.regClass = .w1c) (hb : heldBits q = regBits s.params q) :
    (s.regWrite q (BitVec.allOnes 64)).regs.get q = 0#64 := by
  rw [regWrite_get_w1c _ _ _ hc]
  apply BitVec.eq_of_getLsbD_eq
  intro i hi
  have hg := congrArg (fun w => BitVec.getLsbD w i) (low_get s.regs q)
  simp only [low_getLsbD, hb] at hg
  simp only [BitVec.getLsbD_and, BitVec.getLsbD_not, low_getLsbD, BitVec.getLsbD_allOnes]
  rw [← hg]
  by_cases h : i < regBits s.params q <;> simp [h, hi]

/-! ## The inversion of `exec` -/

/-- What no command touches: the command registers, the host's side and the parameters (R22, R25). -/
structure KeepsHost (s t : State) : Prop where
  cw : t.cw = s.cw
  opa : t.opa = s.opa
  opb : t.opb = s.opb
  program : t.program = s.program
  position : t.position = s.position
  params : t.params = s.params

/-- A state keeps its own host side. -/
theorem keepsHost_refl (s : State) : KeepsHost s s := ⟨rfl, rfl, rfl, rfl, rfl, rfl⟩

/-- What a command can answer from `s`: a failure, which changes the response only (R216), or a completion, which
leaves the host's side alone. There is no third answer: no command stops the machine. -/
inductive Answers (s : State) : Result → Prop where
  | failed (st : Status) (ne : st ≠ .ok) : Answers s (raise st s)
  | completed (d0 d1 d2 : Word) (u : State) (host : KeepsHost s u) : Answers s (complete d0 d1 d2 u)

/-- The accessor's two shapes answer in one of the two ways. -/
theorem imageUpdate_answers (n hi lo : Nat) (image value : Word) (s : State) :
    Answers s (imageUpdate n hi lo image value s) := .completed _ _ _ _ (keepsHost_refl s)

theorem mappedUpdate_answers (n hi lo : Nat) (offset value : Word) (s : State) :
    Answers s (mappedUpdate n hi lo offset value s) := .completed _ _ _ _ (by constructor <;> simp)

/-- A configuration step answers in one of the two ways if its body does. -/
theorem configStep_answers (i : Fin 16) (s : State) (body : State → Result) (h : Answers s (body s)) :
    Answers s (configStep i s body) := by
  unfold configStep
  split
  · exact .failed _ (by decide)
  · exact h

/-- A conditional answers in one of the two ways if both branches do. -/
theorem answers_ite {s : State} {c : Prop} [Decidable c] {a b : Result} (ha : c → Answers s a) (hb : ¬ c → Answers s b) :
    Answers s (if c then a else b) := by
  split
  · exact ha ‹_›
  · exact hb ‹_›

/-- The same where the branch uses the condition's proof. -/
theorem answers_dite {s : State} {c : Prop} [Decidable c] {a : c → Result} {b : ¬ c → Result} (ha : ∀ h, Answers s (a h))
    (hb : ∀ h, Answers s (b h)) : Answers s (if h : c then a h else b h) := by
  split
  · exact ha _
  · exact hb _

/-- A failure of `s` is an answer of `s`. -/
theorem answers_raise (s : State) (st : Status) (ne : st ≠ .ok := by decide) : Answers s (raise st s) := .failed st ne

/-- Every command answers in one of the two ways. -/
theorem exec_answers (i : Instr) (s : State) : Answers s (exec i s) := by
  cases i with
  | sbrI sz hi lo image value =>
    simp only [exec, execSbrI]
    split
    · exact answers_raise s _
    · exact answers_ite (fun _ => imageUpdate_answers _ _ _ _ _ s) fun _ => answers_raise s _
  | sbI sz bit image value =>
    simp only [exec, execSbI]
    split
    · exact answers_raise s _
    · exact answers_ite (fun _ => imageUpdate_answers _ _ _ _ _ s) fun _ => answers_raise s _
  | sbrM sz hi lo offset value =>
    simp only [exec, execSbrM]
    split
    · exact answers_raise s _
    · exact answers_ite (fun _ => mappedUpdate_answers _ _ _ _ _ s) fun _ => answers_raise s _
  | sbM sz bit offset value =>
    simp only [exec, execSbM]
    split
    · exact answers_raise s _
    · exact answers_ite (fun _ => mappedUpdate_answers _ _ _ _ _ s) fun _ => answers_raise s _
  | ttBuild aw flags oa =>
    exact answers_ite (fun _ => answers_raise s _) fun _ => .completed _ _ _ _ (keepsHost_refl s)
  | ttWrite idx table entry =>
    exact answers_ite
      (fun _ => answers_ite (fun _ => .completed _ _ _ _ (by constructor <;> simp)) fun _ => answers_raise s _)
      fun _ => answers_raise s _
  | ttZero table =>
    exact answers_ite (fun _ => .completed _ _ _ _ (by constructor <;> simp)) fun _ => answers_raise s _
  | cbAmode idx aw =>
    exact answers_ite (fun _ => answers_raise s _) fun _ =>
      answers_dite (fun _ => configStep_answers _ s _ (.completed _ _ _ _ (by constructor <;> simp)))
        fun _ => answers_raise s _
  | cbMattr idx attrs =>
    exact answers_dite (fun _ => configStep_answers _ s _ (.completed _ _ _ _ (by constructor <;> simp)))
      fun _ => answers_raise s _
  | cbTctrl idx t0sz inner outer sh granule =>
    exact answers_dite (fun _ => configStep_answers _ s _ (.completed _ _ _ _ (by constructor <;> simp)))
      fun _ => answers_raise s _
  | cbTbase idx asid base =>
    exact answers_dite
      (fun _ => configStep_answers _ s _
        (answers_ite (fun _ => .completed _ _ _ _ (by constructor <;> simp)) fun _ => answers_raise s _))
      fun _ => answers_raise s _
  | cbEnable idx en fr fi =>
    exact answers_dite (fun _ => .completed _ _ _ _ (by constructor <;> simp)) fun _ => answers_raise s _
  | smCfg idx valid mask tbu master =>
    exact answers_dite (fun _ => .completed _ _ _ _ (by constructor <;> simp)) fun _ => answers_raise s _
  | smResetall => exact .completed _ _ _ _ (by constructor <;> simp)
  | s2cCfg idx kind cbndx =>
    exact answers_ite (fun _ => answers_raise s _) fun _ =>
      answers_dite
        (fun _ => answers_ite (fun _ => answers_raise s _) fun _ => .completed _ _ _ _ (by constructor <;> simp))
        fun _ => answers_raise s _
  | frSnapg => exact .completed _ _ _ _ (by constructor <;> simp)
  | frSnapc idx =>
    exact answers_dite (fun _ => .completed _ _ _ _ (by constructor <;> simp)) fun _ => answers_raise s _
  | frClearall => exact .completed _ _ _ _ (by constructor <;> simp)
  | frTlbiall => exact .completed _ _ _ _ (by constructor <;> simp)

end Sys2Proof.Machine
end

