-- ==== Sys2Proof/Laws/Mapped.lean ====
section
/-! SUPPORT. The mapped commands (spec/40_bitfield_accessor.md R116-R119): what an update does when the bytes are exactly
one register, and the map of registers with the default parameters. -/

namespace Sys2Proof.Machine

/-- The register found at an address is there, with that width. -/
theorem registerAt_some {p : Params} {a n : Nat} {r : RegRef} (h : registerAt p a n = some r) :
    regAddr p r = a ∧ regBytes p r = n := by
  have := List.find?_some h
  simpa using this

/-- The register found at a byte holds it. -/
theorem registerOfByte_some {p : Params} {a : Nat} {r : RegRef} (h : registerOfByte p a = some r) :
    regAddr p r ≤ a ∧ a < regAddr p r + regBytes p r := by
  have := List.find?_some h
  simpa using this

/-- A register has bytes. -/
theorem regBytes_pos (p : Params) (r : RegRef) : 0 < regBytes p r := by
  rcases regBits_cases p r with h | h <;> simp [regBytes, h]

/-- R116: where the bytes are exactly one register, a mapped update is the read-modify-write of that register. -/
theorem mappedUpdate_register (n hi lo : Nat) (offset value : Word) (s : State) (r : RegRef)
    (h : registerAt s.params (mappedAddr s offset) (n / 8) = some r) :
    mappedUpdate n hi lo offset value s =
      complete (insertAt n (s.readValue r) hi lo value.toNat) 0#64 0#64
        (s.rmw r fun old => insertAt n old hi lo value.toNat) := by
  simp only [mappedUpdate, State.mappedValue, State.afterMappedRead, h, State.mappedWrite, State.rmw, afterRead_params]

/-- R118: where they are not, the read is a mixed word and the write a mixed write. -/
theorem mappedUpdate_elsewhere (n hi lo : Nat) (offset value : Word) (s : State)
    (h : registerAt s.params (mappedAddr s offset) (n / 8) = none) :
    mappedUpdate n hi lo offset value s =
      complete (insertAt n (s.mixedWord (mappedAddr s offset) (n / 8)) hi lo value.toNat) 0#64 0#64
        ((s.afterMappedRead (mappedAddr s offset) (n / 8)).mixedWrite (mappedAddr s offset) (n / 8)
          (insertAt n (s.mixedWord (mappedAddr s offset) (n / 8)) hi lo value.toNat)) := by
  simp only [mappedUpdate, State.mappedValue, State.afterMappedRead, h, State.mappedWrite]

/-- A mixed write leaves a register alone when none of its bytes is written. -/
theorem mixedWrite_get_other (s : State) (a n : Nat) (v : Word) (q : RegRef)
    (h : regAddr s.params q + regBytes s.params q ≤ a ∨ a + n ≤ regAddr s.params q) :
    (s.mixedWrite a n v).regs.get q = s.regs.get q := by
  simp only [State.mixedWrite]
  have key : ∀ (l : List Nat) (f : RegFile), (∀ k ∈ l, k < n) →
      (l.foldl (writeMixedByte s.params s.envTick v a) f).get q = f.get q := by
    intro l
    induction l with
    | nil => intro f _; rfl
    | cons k l ih =>
      intro f hl
      rw [List.foldl_cons, ih _ fun j hj => hl j (List.mem_cons_of_mem _ hj)]
      have hk := hl k List.mem_cons_self
      unfold writeMixedByte
      cases hr : registerOfByte s.params (a + k) with
      | none => rfl
      | some r =>
        obtain ⟨h1, h2⟩ := registerOfByte_some hr
        have hq : q ≠ r := by rintro rfl; omega
        simp only
        split
        · exact get_set_other _ _ _ _ hq
        · exact get_set_other _ _ _ _ hq
        · rfl
        · rfl
  exact key _ _ fun k hk => by simpa using hk

/-- Every register, in the order of the default addresses. -/
def regsByAddress : List RegRef :=
  [RegRef.topIsr, .scr0, .scr1, .gfar, .gfsr, .gfsynr, .tlbiS, .tlbiNs]
    ++ (indices 48).map RegRef.smr ++ (indices 48).map RegRef.s2cr ++ (indices 16).map RegRef.cbar ++ (indices 16).map RegRef.cba2r
    ++ (indices 16).flatMap fun i =>
      [RegRef.cbCtrl i, .cbTcr2 i, .cbTtbr i, .cbTcr i, .cbAttr0 i, .cbAttr1 i, .cbFsr i, .cbFar i, .cbFsynr i]

/-- The list holds every register. -/
theorem mem_regsByAddress (r : RegRef) : r ∈ regsByAddress := by
  cases r <;> simp [regsByAddress, indices]

/-- With the default parameters each register ends before the next begins. -/
theorem regsByAddress_chain :
    List.IsChain (fun r q => regAddr defaultParams r + regBytes defaultParams r ≤ regAddr defaultParams q) regsByAddress := by
  decide +kernel

/-- With an admissible map a byte belongs to one register at most (R40). -/
theorem register_of_byte_unique {p : Params} (hm : mapAdmissible p) {r q : RegRef} {a : Nat}
    (hr : regAddr p r ≤ a ∧ a < regAddr p r + regBytes p r) (hq : regAddr p q ≤ a ∧ a < regAddr p q + regBytes p q) : r = q := by
  refine Decidable.byContradiction fun h => ?_
  have := hm.1 r q h
  simp only [regsDisjoint, Bool.or_eq_true, decide_eq_true_eq] at this
  omega

/-- R40: the default parameters give an admissible map. -/
theorem mapAdmissible_default : mapAdmissible defaultParams := by
  refine ⟨?_, ?_, by decide, by decide⟩
  · have ht : Trans (fun r q => regAddr defaultParams r + regBytes defaultParams r ≤ regAddr defaultParams q)
        (fun r q => regAddr defaultParams r + regBytes defaultParams r ≤ regAddr defaultParams q)
        (fun r q => regAddr defaultParams r + regBytes defaultParams r ≤ regAddr defaultParams q) :=
      ⟨fun h1 h2 => by omega⟩
    have hp := (List.isChain_iff_pairwise.mp regsByAddress_chain).imp
      (S := fun r q => regsDisjoint defaultParams r q = true) fun h => by simp [regsDisjoint, h]
    have hs : Std.Symm fun r q => regsDisjoint defaultParams r q = true :=
      ⟨fun a b h => by
        simp only [regsDisjoint, Bool.or_eq_true, decide_eq_true_eq] at h ⊢
        exact h.symm⟩
    intro r q h
    exact hp.forall (mem_regsByAddress r) (mem_regsByAddress q) h
  · intro r
    cases r <;>
      simp only [regAddr, bankAddr, regBytes, regBits, defaultParams, defaultRegMap, defaultBankMap, defaultFieldMap,
        OpenWidth.bits, stride4] <;> simp <;> omega

end Sys2Proof.Machine
end

