-- ==== Sys2Proof/Laws/PerInstr.lean ====
section
/-! SUPPORT. The statement made per command: the encoder's header is selected by the command's own row of the opcode map
(spec/30_encoding.md R92), whatever the operands. -/

namespace Sys2Proof.Laws.EncodesOwnRow

/-- The header the encoder writes for `i` is selected by a row of the opcode map that stands for `i`. -/
def Statement (i : Instr) : Prop := ∃ r : OpRow, r ∈ opRows ∧ r.op = i.op ∧ r.selects (encode i).cw = true

theorem sbrI (sz : SizeCode) (hi lo : Nat) (image value : Word) : Statement (.sbrI sz hi lo image value) := by
  refine ⟨⟨.sbrI, 0x10000000#32, 0xFF0003FF#32⟩, by decide, rfl, selects_of_bits _ _ fun p hp => ?_⟩
  rw [encode, headerF_getLsbD]
  interval_cases p <;> simp

theorem sbI (sz : SizeCode) (bit : Nat) (image value : Word) : Statement (.sbI sz bit image value) := by
  refine ⟨⟨.sbI, 0x11000000#32, 0xFF3F03FF#32⟩, by decide, rfl, selects_of_bits _ _ fun p hp => ?_⟩
  rw [encode, headerF_getLsbD]
  interval_cases p <;> simp

theorem sbrM (sz : SizeCode) (hi lo : Nat) (offset value : Word) : Statement (.sbrM sz hi lo offset value) := by
  refine ⟨⟨.sbrM, 0x12000000#32, 0xFF0003FF#32⟩, by decide, rfl, selects_of_bits _ _ fun p hp => ?_⟩
  rw [encode, headerF_getLsbD]
  interval_cases p <;> simp

theorem sbM (sz : SizeCode) (bit : Nat) (offset value : Word) : Statement (.sbM sz bit offset value) := by
  refine ⟨⟨.sbM, 0x13000000#32, 0xFF3F03FF#32⟩, by decide, rfl, selects_of_bits _ _ fun p hp => ?_⟩
  rw [encode, headerF_getLsbD]
  interval_cases p <;> simp

theorem ttBuild (aw : AddrWidth) (baseFlags outputAddress : Word) : Statement (.ttBuild aw baseFlags outputAddress) := by
  refine ⟨⟨.ttBuild, 0x20000000#32, 0xFFFEFFFF#32⟩, by decide, rfl, selects_of_bits _ _ fun p hp => ?_⟩
  rw [encode, headerX_getLsbD, oneFlag_getLsbD]
  interval_cases p <;> simp

theorem ttWrite (idx : Nat) (table entry : Word) : Statement (.ttWrite idx table entry) := by
  refine ⟨⟨.ttWrite, 0x21000000#32, 0xFFFFFC00#32⟩, by decide, rfl, selects_of_bits _ _ fun p hp => ?_⟩
  rw [encode, headerX_getLsbD]
  interval_cases p <;> simp

theorem ttZero (table : Word) : Statement (.ttZero table) := by
  exact ⟨⟨.ttZero, 0x22000000#32, 0xFFFFFFFF#32⟩, by decide, rfl, by simp only [encode]; decide⟩

theorem cbAmode (idx : Nat) (aw : AddrWidth) : Statement (.cbAmode idx aw) := by
  refine ⟨⟨.cbAmode, 0x30000000#32, 0xFFFEFC00#32⟩, by decide, rfl, selects_of_bits _ _ fun p hp => ?_⟩
  rw [encode, headerX_getLsbD, oneFlag_getLsbD]
  interval_cases p <;> simp

theorem cbMattr (idx : Nat) (attrTable : Word) : Statement (.cbMattr idx attrTable) := by
  refine ⟨⟨.cbMattr, 0x31000000#32, 0xFFFFFC00#32⟩, by decide, rfl, selects_of_bits _ _ fun p hp => ?_⟩
  rw [encode, headerX_getLsbD]
  interval_cases p <;> simp

theorem cbTctrl (idx : Nat) (t0sz : BitVec 6) (innerCache outerCache shareability granule : BitVec 2) : Statement (.cbTctrl idx t0sz innerCache outerCache shareability granule) := by
  refine ⟨⟨.cbTctrl, 0x32000000#32, 0xFFFFFC00#32⟩, by decide, rfl, selects_of_bits _ _ fun p hp => ?_⟩
  rw [encode, headerX_getLsbD]
  interval_cases p <;> simp

theorem cbTbase (idx : Nat) (asid : BitVec 16) (tableBase : Word) : Statement (.cbTbase idx asid tableBase) := by
  refine ⟨⟨.cbTbase, 0x33000000#32, 0xFFFFFC00#32⟩, by decide, rfl, selects_of_bits _ _ fun p hp => ?_⟩
  rw [encode, headerX_getLsbD]
  interval_cases p <;> simp

theorem cbEnable (idx : Nat) (enabled faultReport faultInterrupt : Bool) : Statement (.cbEnable idx enabled faultReport faultInterrupt) := by
  refine ⟨⟨.cbEnable, 0x34000000#32, 0xFFF8FC00#32⟩, by decide, rfl, selects_of_bits _ _ fun p hp => ?_⟩
  rw [encode, headerX_getLsbD, enableFlags_getLsbD]
  interval_cases p <;> simp

theorem smCfg (idx : Nat) (valid : Bool) (mask : BitVec 16) (tbuNumber : BitVec 5) (masterId : BitVec 10) : Statement (.smCfg idx valid mask tbuNumber masterId) := by
  refine ⟨⟨.smCfg, 0x40000000#32, 0xFFFFFC00#32⟩, by decide, rfl, selects_of_bits _ _ fun p hp => ?_⟩
  rw [encode, headerX_getLsbD]
  interval_cases p <;> simp

theorem smResetall : Statement (.smResetall) := by
  exact ⟨⟨.smResetall, 0x41000000#32, 0xFFFFFFFF#32⟩, by decide, rfl, by simp only [encode]; decide⟩

theorem s2cCfg (idx : Nat) (kind : StreamKind) (contextBankIndex : BitVec 8) : Statement (.s2cCfg idx kind contextBankIndex) := by
  refine ⟨⟨.s2cCfg, 0x48000000#32, 0xFFFCFC00#32⟩, by decide, rfl, selects_of_bits _ _ fun p hp => ?_⟩
  rw [encode, headerX_getLsbD, kindFlags_getLsbD]
  interval_cases p <;> simp

theorem frSnapg : Statement (.frSnapg) := by
  exact ⟨⟨.frSnapg, 0x50000000#32, 0xFFFFFFFF#32⟩, by decide, rfl, by simp only [encode]; decide⟩

theorem frSnapc (idx : Nat) : Statement (.frSnapc idx) := by
  refine ⟨⟨.frSnapc, 0x51000000#32, 0xFFFFFC00#32⟩, by decide, rfl, selects_of_bits _ _ fun p hp => ?_⟩
  rw [encode, headerX_getLsbD]
  interval_cases p <;> simp

theorem frClearall : Statement (.frClearall) := by
  exact ⟨⟨.frClearall, 0x52000000#32, 0xFFFFFFFF#32⟩, by decide, rfl, by simp only [encode]; decide⟩

theorem frTlbiall : Statement (.frTlbiall) := by
  exact ⟨⟨.frTlbiall, 0x53000000#32, 0xFFFFFFFF#32⟩, by decide, rfl, by simp only [encode]; decide⟩

end Sys2Proof.Laws.EncodesOwnRow
end

