-- ==== Sys2Proof/Tests/Slice0.lean ====
section
/-! SUPPORT. Tests of the model, expected values from the spec's own examples and vectors (spec/95_test_vectors.md and the
rules' examples), and for every obligation with hypotheses a witness that they can be met. -/

namespace Sys2Proof.Tests

open Sys2Proof.Machine Sys2Proof.Claim

/-! ## Helpers -/

/-- The state a command leaves. -/
def after (i : Instr) (s : State) : State :=
  match exec i s with
  | .next t => t
  | .fault _ => s
  | .refused _ => s

/-- The state after reset with one register holding a value. -/
def holding (r : RegRef) (v : Word) : State := { State.reset with regs := State.reset.regs.set r v }

/-- The state after reset with bank `i` in a state of the sequencer. -/
def inState (i : Fin 16) (st : CbState) : State := State.reset.setBankState i st

/-- The state after reset with the 64-bit width admitted. -/
def wideAdmitted : State := { State.reset with params := { defaultParams with w64Admitted := true } }

/-- The state after reset with one frame in the host's list. -/
def loaded (f : Frame) : State := { State.reset with program := [commandOfFrame f] }

/-- The status a frame of numbers gets as the first command after reset. -/
def statusOf (f : Frame) : Option (BitVec 4) :=
  match step (loaded f) with
  | .next t => some t.rsp.status
  | .fault _ => none
  | .refused _ => none

/-- A command of an initialization path, before the fault interrupt is live, and the status it got. -/
def by0 (st : Status) (i : Instr) : Event := ⟨i, st, .initPath 0, false⟩

/-- The five canonical steps on bank 5 (R19). -/
def canonicalHistory : List Instr :=
  [.cbAmode 5 .w32, .cbMattr 5 0#64, .cbTctrl 5 0#6 0#2 0#2 0#2 0#2, .cbTbase 5 0#16 0#64, .cbEnable 5 true true true]

/-! ## WellFormed: an ill-formed term for each check -/

theorem test_wf_high_bit_refused : (Instr.sbrI .w64 64 0 0#64 0#64).wf = false := by decide
theorem test_wf_low_bit_refused : (Instr.sbrM .w64 63 64 0#64 0#64).wf = false := by decide
theorem test_wf_bit_refused : (Instr.sbI .w64 64 0#64 0#64).wf = false ∧ (Instr.sbM .w64 64 0#64 0#64).wf = false := by decide
theorem test_wf_index_refused :
    (Instr.ttWrite 1024 0#64 0#64).wf = false ∧ (Instr.cbAmode 1024 .w32).wf = false ∧ (Instr.cbMattr 1024 0#64).wf = false
      ∧ (Instr.cbTctrl 1024 0#6 0#2 0#2 0#2 0#2).wf = false ∧ (Instr.cbTbase 1024 0#16 0#64).wf = false
      ∧ (Instr.cbEnable 1024 true true true).wf = false ∧ (Instr.smCfg 1024 true 0#16 0#5 0#10).wf = false
      ∧ (Instr.s2cCfg 1024 .fault 0#8).wf = false ∧ (Instr.frSnapc 1024).wf = false := by decide
theorem test_wf_greatest_values_accepted :
    (Instr.sbrI .reserved 63 63 0#64 0#64).wf = true ∧ (Instr.s2cCfg 1023 .reserved 255#8).wf = true := by decide

/-! ## Decode: words written out from the encodings of R82-R92 and the examples of the rules -/

theorem test_decode_sbrI : decode ⟨0x104F2000#32, 0xFFFFFFFF#64, 0#64⟩ = .ok (.sbrI .w32 15 8 0xFFFFFFFF#64 0#64) := by decide
theorem test_decode_sbrI_w16 : decode ⟨0x100B1000#32, 0xABCD#64, 0x1FF#64⟩ = .ok (.sbrI .w16 11 4 0xABCD#64 0x1FF#64) := by decide
theorem test_decode_sbrI_w64 : decode ⟨0x10A77800#32, 0x641#64, 1#64⟩ = .ok (.sbrI .w64 39 30 0x641#64 1#64) := by decide
theorem test_decode_sbI : decode ⟨0x1180FC00#32, 0#64, 1#64⟩ = .ok (.sbI .w64 63 0#64 1#64) := by decide
theorem test_decode_sbrM : decode ⟨0x12BFC000#32, 0x10020#64, 0xAB#64⟩ = .ok (.sbrM .w64 63 48 0x10020#64 0xAB#64) := by decide
theorem test_decode_sbM : decode ⟨0x13407C00#32, 0x800#64, 1#64⟩ = .ok (.sbM .w32 31 0x800#64 1#64) := by decide
theorem test_decode_ttBuild : decode ⟨0x20010000#32, 3#64, 0x3FFFF#64⟩ = .ok (.ttBuild .w64 3#64 0x3FFFF#64) := by decide
theorem test_decode_ttWrite : decode ⟨0x210003FF#32, 0x40000000#64, 7#64⟩ = .ok (.ttWrite 1023 0x40000000#64 7#64) := by decide
theorem test_decode_ttZero : decode ⟨0x22000000#32, 0x40000000#64, 9#64⟩ = .ok (.ttZero 0x40000000#64) := by decide
theorem test_decode_cbAmode : decode ⟨0x30010010#32, 1#64, 1#64⟩ = .ok (.cbAmode 16 .w64) := by decide
theorem test_decode_cbMattr : decode ⟨0x3100000F#32, 0x0123456789ABCDEF#64, 0#64⟩ = .ok (.cbMattr 15 0x0123456789ABCDEF#64) := by decide
theorem test_decode_cbTctrl : decode ⟨0x32000000#32, 0x2FD0#64, 0#64⟩ = .ok (.cbTctrl 0 16#6 3#2 3#2 3#2 2#2) := by decide
theorem test_decode_cbTbase : decode ⟨0x33000003#32, 0x40000800#64, 0xF0001BEEF#64⟩ = .ok (.cbTbase 3 0xBEEF#16 0x40000800#64) := by decide
theorem test_decode_cbEnable : decode ⟨0x34020000#32, 0#64, 0#64⟩ = .ok (.cbEnable 0 false true false) := by decide
theorem test_decode_smCfg : decode ⟨0x40000001#32, 0x103FF1400#64, 0#64⟩ = .ok (.smCfg 1 true 0x03FF#16 5#5 0#10) := by decide
theorem test_decode_smResetall : decode ⟨0x41000000#32, 1#64, 1#64⟩ = .ok .smResetall := by decide
theorem test_decode_s2cCfg : decode ⟨0x48020009#32, 0x1FF#64, 0#64⟩ = .ok (.s2cCfg 9 .fault 0xFF#8) := by decide
theorem test_decode_frSnapg : decode ⟨0x50000000#32, 0#64, 0#64⟩ = .ok .frSnapg := by decide
theorem test_decode_frSnapc : decode ⟨0x51000010#32, 0#64, 0#64⟩ = .ok (.frSnapc 16) := by decide
theorem test_decode_frClearall : decode ⟨0x52000000#32, 0#64, 0#64⟩ = .ok .frClearall := by decide
theorem test_decode_frTlbiall : decode ⟨0x53000000#32, 0#64, 0#64⟩ = .ok .frTlbiall := by decide

/-- R93, spec 95 section 2.3: no opcode, an unlisted opcode, and must-be-zero bits of the three formats. -/
theorem test_decode_rejects :
    decode ⟨0x00000000#32, 0#64, 0#64⟩ = .error (.unlistedOpcode 0#8)
      ∧ decode ⟨0x14000000#32, 0#64, 0#64⟩ = .error (.unlistedOpcode 0x14#8)
      ∧ decode ⟨0xFFFFFFFF#32, 0#64, 0#64⟩ = .error (.unlistedOpcode 0xFF#8)
      ∧ decode ⟨0x104F2001#32, 0#64, 0#64⟩ = .error (.mustBeZero 0x10#8)
      ∧ decode ⟨0x11410000#32, 0#64, 0#64⟩ = .error (.mustBeZero 0x11#8)
      ∧ decode ⟨0x10C70001#32, 0#64, 0#64⟩ = .error (.mustBeZero 0x10#8)
      ∧ decode ⟨0x20000001#32, 0#64, 0#64⟩ = .error (.mustBeZero 0x20#8)
      ∧ decode ⟨0x33010000#32, 0#64, 0#64⟩ = .error (.mustBeZero 0x33#8)
      ∧ decode ⟨0x34080000#32, 0#64, 0#64⟩ = .error (.mustBeZero 0x34#8)
      ∧ decode ⟨0x50000001#32, 0#64, 0#64⟩ = .error (.mustBeZero 0x50#8) := by decide

/-- The host's numbering of a command's bits: `CW` lowest, then `OPA`, then `OPB`. -/
theorem test_table_word_places :
    decodeTableWord 160 (0x104F2000 + 0xFFFFFFFF * 2 ^ 32 + 5 * 2 ^ 96) = some (.sbrI .w32 15 8 0xFFFFFFFF#64 5#64) := by decide

/-! ## The step -/

/-- A failed header is answered, and the host goes on (R93, R25). -/
theorem test_step_illegal : statusOf ⟨0x14000000#32, 0#64, 0#64⟩ = some 6#4 := by decide

/-- `$d0` (R98): `TT.BUILD` then `TT.WRITE` of its answer stores the built entry, 41 06 00 40 (R99 `TT.MAP`). -/
theorem test_step_passes_d0 :
    (match step { State.reset with program := ttMap 0x40000000#64 1 .w32 1#64 } with
      | .next t => (match step t with
        | .next u => u.tableMem.take 4
        | _ => [])
      | _ => []) = [(0x40000008, 0x41#8), (0x40000009, 0x06#8), (0x4000000A, 0x00#8), (0x4000000B, 0x40#8)] := by decide

/-! ## The accessor (spec 95 sections 2.1 to 2.4) -/

theorem test_sbrI_clears_a_byte : (after (.sbrI .w32 15 8 0xAAAABBBBFFFFFFFF#64 0#64) .reset).rsp = ⟨0#4, 0xFFFF00FF#64, 0#64, 0#64⟩ := by decide
theorem test_sbrI_full_width : (after (.sbrI .w64 63 0 0x1234567890ABCDEF#64 0xDEADBEEF#64) .reset).rsp.d0 = 0xDEADBEEF#64 := by decide
theorem test_sbI_value_two_clears : (after (.sbI .w32 4 0#64 2#64) .reset).rsp.d0 = 0#64 := by decide
theorem test_sbI_top_bit : (after (.sbI .w64 63 0#64 1#64) .reset).rsp.d0 = 0x8000000000000000#64 := by decide
theorem test_sbrM_table_base :
    (after (.sbrM .w64 63 48 0x10020#64 0xAB#64) (holding (.cbTtbr 0) 0x0001000040000000#64)).regs.get (.cbTtbr 0)
      = 0x00AB000040000000#64 := by decide
theorem test_sbrM_upper_half :
    (after (.sbrM .w16 7 0 0x802#64 0xFF#64) (holding (.smr 0) 0x12345678#64)).regs.get (.smr 0) = 0x12FF5678#64 := by decide
theorem test_sbM_reenters_bypass :
    (after (.sbM .w32 0 0#64 1#64) (holding .scr0 0x00200000#64)).rsp = ⟨0#4, 0x00200001#64, 0#64, 0#64⟩ := by decide
theorem test_sbM_on_enabled_bank :
    (after (.sbM .w32 0 0x10000#64 1#64) (inState 0 .enabled)).rsp.status = 0#4 := by decide

/-! ## The table builder (sections 2.7, 2.8) -/

theorem test_ttBuild_all_flags : (after (.ttBuild .w32 (BitVec.allOnes 64) 0#64) .reset).rsp.d0 = 0xFFFFFF003FFFFFFD#64 := by decide
theorem test_ttBuild_wide : (after (.ttBuild .w64 0#64 0x400#64) wideAdmitted).rsp.d0 = 0x0000010000000641#64 := by decide
theorem test_ttWrite_bytes :
    (after (.ttWrite 1 0x40000000#64 0x40000641#64) .reset).tableMem =
      [(0x40000008, 0x41#8), (0x40000009, 0x06#8), (0x4000000A, 0x00#8), (0x4000000B, 0x40#8), (0x4000000C, 0x00#8),
        (0x4000000D, 0x00#8), (0x4000000E, 0x00#8), (0x4000000F, 0x00#8)] := by decide
theorem test_ttWrite_address_before_index : (after (.ttWrite 4 0x40000004#64 0#64) .reset).rsp.status = 5#4 := by decide
theorem test_ttZero_order :
    (after (.ttZero 0x40000000#64) .reset).trace.map (fun a => a.addr) = [0x40000000, 0x40000008, 0x40000010, 0x40000018] := by decide
theorem test_ttZero_unaligned : (after (.ttZero 0x40000001#64) .reset).rsp.status = 5#4 := by decide

/-! ## The sequencer (sections 2.9 to 2.13) -/

theorem test_cbAmode_preserves :
    (after (.cbAmode 3 .w32) (holding (.cba2r 3) 0xFFFFFFFF#64)).regs.get (.cba2r 3) = 0xFFFFFFFE#64 := by decide
theorem test_cbAmode_guard_before_index : (after (.cbAmode 16 .w64) .reset).rsp.status = 5#4 := by decide
theorem test_cbMattr_accesses :
    (after (.cbMattr 15 0x0123456789ABCDEF#64) .reset).trace =
      [⟨.regWrite, 0xFD81F038, 4, 0x89ABCDEF#64⟩, ⟨.regWrite, 0xFD81F03C, 4, 0x01234567#64⟩] := by decide
theorem test_cbTctrl_preserves :
    (after (.cbTctrl 0 0#6 1#2 1#2 2#2 0#2) (holding (.cbTcr 0) 0xFFFFFFFF#64)).regs.get (.cbTcr 0) = 0xFFFF25C0#64 := by decide
theorem test_cbTctrl_all_fields : (after (.cbTctrl 0 16#6 3#2 3#2 3#2 2#2) .reset).regs.get (.cbTcr 0) = 0xBF10#64 := by decide
theorem test_cbTbase_preserves :
    (after (.cbTbase 0 0x12#16 0x80000000#64) (holding (.cbTtbr 0) 0xAB00000000000000#64)).regs.get (.cbTtbr 0)
      = 0xAB12000080000000#64 := by decide
theorem test_cbTbase_ordering_before_alignment : (after (.cbTbase 0 0#16 0x40000800#64) (inState 0 .enabled)).rsp.status = 3#4 := by decide
theorem test_cbEnable_bits :
    (after (.cbEnable 0 false true false) (holding (.cbCtrl 0) 0xFFFFFFFF#64)).regs.get (.cbCtrl 0) = 0xFFFFFFBE#64 := by decide
/-- R226: the operands of `CB.ENABLE` are what the two readings show, and the line does not depend on them. -/
theorem test_fault_enables_read :
    (after (.cbEnable 0 true false true) .reset).faultReportOn 0 = false
      ∧ (after (.cbEnable 0 true false true) .reset).faultInterruptOn 0 = true
      ∧ (after (.cbEnable 15 true false false) (holding (.cbFsr 15) 2#64)).faultLine = true := by decide
theorem test_cbEnable_from_disabled : (after (.cbEnable 0 true true true) .reset).bankState 0 = .enabled := by decide

/-- Section 2.13, last column: the canonical history, one with a failed step, and three that are not canonical. -/
theorem test_canonically_enabled :
    canonicallyEnabled 5 (canonicalHistory.map (by0 .ok)) = true
      ∧ canonicallyEnabled 5 (by0 .misalignedTableBase (.cbTbase 5 0#16 1#64) :: canonicalHistory.map (by0 .ok)) = true
      ∧ canonicallyEnabled 5 ((canonicalHistory ++ [Instr.cbEnable 5 true true true]).map (by0 .ok)) = false
      ∧ canonicallyEnabled 5 ((canonicalHistory ++ [Instr.cbEnable 5 false true true, .cbTbase 5 0#16 0#64,
          .cbEnable 5 true true true]).map (by0 .ok)) = false
      ∧ canonicallyEnabled 5 ((Instr.cbAmode 5 .w32 :: canonicalHistory).map (by0 .ok)) = false := by decide

/-! ## The stream tables (sections 2.5, 2.6) -/

theorem test_smCfg_mask_bit_15 :
    (after (.smCfg 47 true 0xFFFF#16 31#5 0x3FF#10) .reset).trace = [⟨.regWrite, 0xFD8008BC, 4, 0xFFFF7FFF#64⟩] := by decide
theorem test_smCfg_index : (after (.smCfg 48 true 0#16 0#5 0#10) .reset).rsp.status = 1#4 := by decide
theorem test_smResetall_count :
    (after .smResetall (holding (.smr 47) 0x80000200#64)).trace.length = 48
      ∧ (after .smResetall (holding (.smr 47) 0x80000200#64)).regs.get (.smr 47) = 0#64 := by decide
theorem test_s2cCfg_bypass_index :
    (after (.s2cCfg 2 .bypass 16#8) (holding (.s2cr 2) 0xFFFFFFFF#64)).regs.get (.s2cr 2) = 0xFFFDFF00#64 := by decide
theorem test_s2cCfg_translate_16 : (after (.s2cCfg 0 .translate 16#8) .reset).rsp.status = 1#4 := by decide

/-! ## Faults and the translation cache (section 2.14); a W1C read is free but for the bits held -/

theorem test_frSnapg_accesses :
    (after .frSnapg .reset).trace.map shapeOf = [⟨.regRead, 0xFD800048, 4⟩, ⟨.regRead, 0xFD800040, 4⟩] := by decide
theorem test_frSnapc_accesses :
    (after (.frSnapc 2) .reset).trace.map shapeOf =
      [⟨.regRead, 0xFD812058, 4⟩, ⟨.regRead, 0xFD812060, 8⟩, ⟨.regRead, 0xFD812068, 4⟩] := by decide
theorem test_frClearall_last_write :
    (after .frClearall .reset).trace.length = 52
      ∧ (after .frClearall .reset).trace.getLast? = some ⟨.regWrite, 0xFD5F0010, 4, 0xFFFFFFFF#64⟩ := by decide
theorem test_frClearall_clears : (after .frClearall (holding (.cbFar 0) (BitVec.allOnes 64))).regs.get (.cbFar 0) = 0#64 := by decide
theorem test_frTlbiall_writes :
    (after .frTlbiall .reset).trace = [⟨.regWrite, 0xFD800060, 4, 0#64⟩, ⟨.regWrite, 0xFD800068, 4, 0#64⟩]
      ∧ (after .frTlbiall .reset).tlb = ⟨false, false⟩ := by decide

/-! ## Hazards and boot order -/
/-- The commands of programs P1 and P2 of spec/95_test_vectors.md (one table, bank 0, stream entry 0) in the order of R243:
the two start-up duties come before the table. -/
def bootList : List Instr :=
  [.frClearall, .smResetall, .ttZero 0x40000000#64, .ttBuild .w32 0#64 0#64, .ttWrite 0 0x40000000#64 0x641#64,
    .ttBuild .w32 0#64 1#64, .ttWrite 1 0x40000000#64 0x40000641#64, .cbAmode 0 .w32, .cbMattr 0 0x44FF#64,
    .cbTctrl 0 0#6 1#2 1#2 2#2 0#2, .cbTbase 0 1#16 0x40000000#64, .frTlbiall, .cbEnable 0 true true true,
    .s2cCfg 0 .translate 0#8, .smCfg 0 true 0#16 0#5 0x200#10, .sbM .w32 0 0#64 0#64]

/-- A boot with one command left out (but for one of the two table writes) is no boot; nor is one without any table write, or
one whose bypass bit is set again. -/
theorem test_boot_order :
    bootOrdered defaultParams bootList = true
      ∧ bootList.all (fun i => !bootOrdered defaultParams (bootList.erase i)
          || i == .ttWrite 1 0x40000000#64 0x40000641#64 || i == .ttWrite 0 0x40000000#64 0x641#64) = true
      ∧ bootOrdered defaultParams (bootList.filter fun i => match i with | .ttWrite _ _ _ => false | _ => true) = false
      ∧ bootOrdered defaultParams (bootList ++ [.sbM .w32 0 0#64 1#64]) = false := by decide

/-- R243, "for each": a bank over a table that was not made, and a stream routed to a bank that was not made. -/
theorem test_boot_each :
    bootOrdered defaultParams (bootList.map fun i => if i = .cbTbase 0 1#16 0x40000000#64 then .cbTbase 0 1#16 0#64 else i) = false
      ∧ bootOrdered defaultParams
          (bootList.map fun i => if i = .s2cCfg 0 .translate 0#8 then .s2cCfg 0 .translate 1#8 else i) = false
      ∧ bootOrdered defaultParams
          (bootList.map fun i => if i = .s2cCfg 0 .translate 0#8 then .s2cCfg 0 .bypass 0#8 else i) = true := by decide

/-- R243: a table zeroed again after its entries, a table that overlaps it, and mapped updates of `CB_TTBR[0]`, of `SMR[1]` and of a
trigger register are no part of a boot; one of `CBAR[0]` is. -/
theorem test_boot_rows :
    bootOrdered defaultParams (bootList.take 7 ++ .ttZero 0x40000000#64 :: bootList.drop 7) = false
      ∧ bootOrdered defaultParams (bootList.take 7 ++ .ttZero 0x40000008#64 :: bootList.drop 7) = false
      ∧ bootOrdered defaultParams (bootList.take 11 ++ .sbM .w64 12 0x10020#64 1#64 :: bootList.drop 11) = false
      ∧ bootOrdered defaultParams (bootList.take 15 ++ .sbM .w32 31 0x804#64 1#64 :: bootList.drop 15) = false
      ∧ bootOrdered defaultParams (bootList.take 11 ++ .sbM .w32 0 0x60#64 1#64 :: bootList.drop 11) = false
      ∧ bootOrdered defaultParams (bootList.take 11 ++ .sbM .w32 0 0x1000#64 1#64 :: bootList.drop 11) = true := by decide

theorem test_boot_steps :
    bootStep defaultParams (.sbM .w32 0 0#64 0#64) = some 9 ∧ bootStep defaultParams (.sbM .w32 0 0#64 1#64) = none
      ∧ bootStep defaultParams (.sbrM .w32 0 0 0#64 0#64) = some 9
      ∧ bootStep defaultParams (.sbM .w32 5 0x10010#64 1#64) = some 4
      ∧ bootStep defaultParams (.cbEnable 5 false true true) = none ∧ bootStep defaultParams (.smCfg 0 false 0#16 0#5 0#10) = none := by decide

theorem test_handler_body :
    handlerBody [.frSnapg, .frSnapc 3, .frClearall] = true ∧ handlerBody [.frClearall] = false
      ∧ handlerBody [.frClearall, .frSnapg] = false ∧ handlerBody [.frSnapg] = false := by decide

/-- R254: the handler while bank 5 is part-way, the handler reconfiguring, and a clear by an initialization path once
interrupts are live. -/
theorem test_handler_roles :
    handlerWaits [] ((canonicalHistory.map (by0 .ok)) ++ [⟨.frSnapg, .ok, .handler, true⟩]) = true
      ∧ handlerWaits [] ((canonicalHistory.take 3).map (by0 .ok) ++ [⟨.frSnapg, .ok, .handler, true⟩]) = false
      ∧ handlerOnlyReports [⟨.frTlbiall, .ok, .handler, true⟩] = false
      ∧ clearsAreTheHandlers [by0 .ok .frClearall, ⟨.frClearall, .ok, .handler, true⟩] = true
      ∧ clearsAreTheHandlers [⟨.frClearall, .ok, .initPath 0, true⟩] = false := by decide

/-- R228: before interrupts are live the initialization path clears; once they are, the three commands are the handler's alone. -/
theorem test_writer_roles :
    writerRoles defaultParams [by0 .ok .frClearall, by0 .ok (.cbAmode 0 .w32), ⟨.frSnapg, .ok, .handler, true⟩,
        ⟨.frClearall, .ok, .handler, true⟩, ⟨.frTlbiall, .ok, .initPath 0, true⟩] = true
      ∧ writerRoles defaultParams [⟨.frSnapg, .ok, .initPath 0, true⟩] = false
      ∧ writerRoles defaultParams [⟨.frSnapc 3, .ok, .initPath 0, true⟩] = false
      ∧ writerRoles defaultParams [⟨.frClearall, .ok, .initPath 0, true⟩] = false
      ∧ writerRoles defaultParams [⟨.cbEnable 0 false false false, .ok, .handler, true⟩] = false
      ∧ writerRoles defaultParams [⟨.frSnapg, .ok, .handler, false⟩] = false
      ∧ writerRoles defaultParams [⟨.sbM .w32 0 0x48#64 1#64, .ok, .initPath 0, true⟩] = false := by decide

/-- R255: two paths on one bank, and two paths on two banks. -/
theorem test_one_owner :
    oneOwner 5 none [by0 .ok (.cbAmode 5 .w32), ⟨.cbMattr 5 0#64, .ok, .initPath 1, false⟩] = false
      ∧ oneOwner 5 none [by0 .ok (.cbAmode 5 .w32), ⟨.cbMattr 6 0#64, .ok, .initPath 1, false⟩] = true := by decide

/-- R249, R251: `SBR.M` on `CB_TTBR[5]`, and `SB.M` on the enable bit of `CB_CTRL[5]`, at the default offsets. -/
theorem test_mapped_hazards :
    invalidatedAfterChange defaultParams [.frTlbiall, .sbrM .w64 63 48 0x15020#64 0xAB#64] = false
      ∧ invalidatedAfterChange defaultParams [.sbrM .w64 63 48 0x15020#64 0xAB#64, .frTlbiall] = true
      ∧ leavesEnableBits defaultParams (.sbM .w32 0 0x15000#64 1#64) = false
      ∧ leavesEnableBits defaultParams (.sbM .w32 5 0x15000#64 1#64) = true
      ∧ respectsEnabledBanks (inState 5 .enabled) (.sbM .w32 5 0x15000#64 1#64) = false := by decide

/-- R246: an entry programmed once after a clear, by `SM.CFG` or by hand (95 P4 step 5 and table 2.4); without a clear; once more
while valid; and another entry once the policy is active. -/
theorem test_match_table_cleared :
    matchTableCleared defaultParams [.smResetall, .smCfg 0 true 0#16 0#5 0x200#10, .smCfg 1 true 0#16 0#5 0#10] = true
      ∧ matchTableCleared defaultParams [.smResetall, .sbrM .w32 31 0 0x804#64 0x83FF1400#64, .sbM .w32 31 0x800#64 1#64] = true
      ∧ matchTableCleared defaultParams [.smCfg 0 true 0#16 0#5 0x200#10, .smResetall] = false
      ∧ matchTableCleared defaultParams [.sbM .w32 31 0x800#64 1#64] = false
      ∧ matchTableCleared defaultParams [.smResetall, .smCfg 0 true 0#16 0#5 0#10, .sbM .w32 0 0x800#64 1#64] = false
      ∧ matchTableCleared defaultParams [.smResetall, .smCfg 0 true 0#16 0#5 0#10, .smResetall, .smCfg 0 true 0#16 0#5 1#10] = true := by
  decide
theorem test_match_table_reprogrammed :
    matchTableCleared defaultParams (bootList ++ [.smCfg 1 true 0#16 0#5 0#10]) = false
      ∧ matchTableCleared defaultParams (bootList ++ [.sbM .w32 31 0x804#64 1#64]) = false
      ∧ matchTableCleared defaultParams (bootList ++ [.smResetall, .smCfg 1 true 0#16 0#5 0#10]) = true
      ∧ matchTableCleared defaultParams (bootList ++ [.smCfg 0 false 0#16 0#5 0#10]) = true := by decide

/-- R259: bank 0, which stream entry 0 routes to: a mapped update of `CBAR[0]` and of the disabled bank's `CB_TCR[0]`, and one
of `CBAR[1]`. -/
theorem test_routing :
    respectsRouting (holding (.smr 0) 0x80000200#64) (.sbM .w32 0 0x1000#64 1#64) = false
      ∧ respectsRouting (holding (.smr 0) 0x80000200#64) (.sbrM .w32 5 0 0x10030#64 1#64) = false
      ∧ respectsRouting (holding (.smr 0) 0x80000200#64) (.sbM .w32 0 0x1004#64 1#64) = true
      ∧ respectsRouting State.reset (.sbM .w32 0 0x1000#64 1#64) = true := by decide

/-- R259: a bank enabled, disabled and enabled again asks for an invalidation. -/
theorem test_reenabling :
    invalidatedAfterReenabling 5 canonicalHistory = true
      ∧ invalidatedAfterReenabling 5 (canonicalHistory ++ [.cbEnable 5 false true true] ++ canonicalHistory) = false
      ∧ invalidatedAfterReenabling 5 (canonicalHistory ++ [.cbEnable 5 false true true] ++ canonicalHistory ++ [.frTlbiall])
        = true := by decide

/-- U8: entry 0 matches stream 0x200, entry 1 has bit 15 set and by the formula of R70 does not match. -/
def bit15InUse : State :=
  { State.reset with regs := ((State.reset.regs.set .scr0 0#64).set (.smr 0) 0x80000200#64).set (.smr 1) 0x80008201#64 }

theorem test_treatment_bit_15 :
    treatment bit15InUse 0x200#15 = .unspecified .unassignedSmrBit
      ∧ treatment { bit15InUse with regs := bit15InUse.regs.set (.smr 1) 0x00008201#64 } 0x200#15 = .throughBank 0 := by decide

/-- R43: with a fault status set, the line is pending, and the SMMU's own move keeps it so. -/
theorem test_fault_line :
    (holding (.cbFsr 15) 2#64).faultLine = true ∧ State.reset.faultLine = false := by decide

/-! ## A run from a reset: bank 15 brought up canonically -/

/-- The state a step leaves. -/
def ran (s : State) : State :=
  match step s with
  | .next t => t
  | .fault _ => s
  | .refused _ => s

theorem step_eq_ran (s : State) (h : Safety.goesOn (step s) = true) : step s = .next (ran s) := by
  unfold ran
  cases h1 : step s <;> simp_all [Safety.goesOn]

/-- Bank 15 brought up canonically over a table at 0x40001000, an invalidation before it is enabled. -/
def bringUp15 : List Instr :=
  [.cbAmode 15 .w32, .cbMattr 15 0#64, .cbTctrl 15 0#6 1#2 1#2 2#2 0#2, .cbTbase 15 1#16 0x40001000#64, .frTlbiall,
    .cbEnable 15 true true true]

/-- Right after a reset, with the four blocks of the identity map already in memory and the bring-up in the host's list. -/
def readyToBringUp : State :=
  { State.reset with
    tableMem := (((Memory.write64 [] 0x40001000 0x641#64).write64 0x40001008 0x40000641#64).write64 0x40001010
      0x80000641#64).write64 0x40001018 0xC0000641#64
    program := bringUp15.map commandOf }

/-- The state after `n` steps. -/
def broughtUp : Nat → State
  | 0 => readyToBringUp
  | n + 1 => ran (broughtUp n)

/-- A history grows by a command that the host issues, the block decodes and the step answers. -/
theorem history_step {h : History} {s : State} (i : Instr) (past : HistoryOf h s) (issued : s.nextCommand = some (commandOf i))
    (goes : Safety.goesOn (step s) = true) (decoded : (decode (s.load (commandOf i)).frame).toOption = some i)
    (answered : (ran s).rsp.status = 0#4) : HistoryOf (h ++ [by0 .ok i]) (ran s) := by
  refine .command h s _ _ (by0 .ok i) past (step_eq_ran s goes) issued ?_ answered
  cases h1 : decode (s.load (commandOf i)).frame <;> simp_all [Except.toOption, by0]

theorem readyToBringUp_atReset : AtReset readyToBringUp := ⟨by decide, by decide, by decide, by decide⟩

/-- R241: the reset state is one; the same with bank 3's enable bit kept is none. -/
theorem test_atReset : AtReset State.reset ∧ ¬ AtReset (holding (.cbCtrl 3) 1#64) :=
  ⟨⟨by decide, by decide, by decide, by decide⟩, fun h => absurd (h.noneKept 3) (by decide)⟩

/-- The six commands lead from a reset to `broughtUp 6`. -/
theorem broughtUp_history : HistoryOf (bringUp15.map (by0 .ok)) (broughtUp 6) :=
  history_step (.cbEnable 15 true true true)
    (history_step .frTlbiall
      (history_step (.cbTbase 15 1#16 0x40001000#64)
        (history_step (.cbTctrl 15 0#6 1#2 1#2 2#2 0#2)
          (history_step (.cbMattr 15 0#64)
            (history_step (.cbAmode 15 .w32) (.reset readyToBringUp readyToBringUp_atReset)
              (by decide) (by decide) (by decide) (by decide))
            (by decide) (by decide) (by decide) (by decide))
          (by decide) (by decide) (by decide) (by decide))
        (by decide) (by decide) (by decide) (by decide))
      (by decide) (by decide) (by decide) (by decide))
    (by decide) (by decide) (by decide) (by decide)

/-- Section 2.13: after the canonical steps the bank is `Enabled`. -/
theorem witness_SequencerFollowsHistory :
    HistoryOf (bringUp15.map (by0 .ok)) (broughtUp 6) ∧ canonicallyEnabled 15 (bringUp15.map (by0 .ok)) = true
      ∧ (broughtUp 6).bankState 15 = .enabled := ⟨broughtUp_history, by decide, by decide⟩

theorem test_walk_premises :
    walk ⟨true, true, true, true, true⟩ (broughtUp 6) 15 0xC0000123#32 = .output 0xC0000123
      ∧ walk ⟨false, true, true, true, true⟩ (broughtUp 6) 15 0#32 = .unspecified .bankNotBroughtUp
      ∧ walk ⟨true, false, true, true, true⟩ (broughtUp 6) 15 0#32 = .unspecified .otherRegime
      ∧ walk ⟨true, true, false, true, true⟩ (broughtUp 6) 15 0#32 = .unspecified .otherCodes
      ∧ walk ⟨true, true, true, false, true⟩ (broughtUp 6) 15 0#32 = .unspecified .shortDescriptors
      ∧ walk ⟨true, true, true, true, false⟩ (broughtUp 6) 15 0#32 = .permissionFault
      ∧ walk ⟨true, true, true, true, true⟩ { broughtUp 6 with regs := (broughtUp 6).regs.set (.cbTcr 15) 1#64 } 15 0x80000000#32
          = .unspecified .outsideRegion
      ∧ walk ⟨true, true, true, true, true⟩ { broughtUp 6 with regs := (broughtUp 6).regs.set (.cbTcr 15) 33#64 } 15 0#32
          = .unspecified .noRegion
      ∧ walk ⟨true, true, true, true, true⟩ { broughtUp 6 with regs := (broughtUp 6).regs.set (.cbTcr 15) 1#64 } 15 0#32
          = .unspecified .regionSmallerThanTable
      ∧ walk ⟨true, true, true, true, true⟩ { broughtUp 6 with tableMem := (broughtUp 6).tableMem.write64 0x40001000 0x10000000641#64 } 15 0#32
          = .unspecified .undefinedAddressBits := by
  decide

/-! ## Witnesses: the hypotheses of the obligations can be met -/

/-- A frame for the state's list that decodes. -/
def readyToStep : State := loaded ⟨0x34070000#32, 0#64, 0#64⟩

/-- A parameter record with a 32-bit table base and fault address. -/
def narrowParams : Params :=
  { defaultParams with field := { defaultFieldMap with wTtbr := .bits32, wCbfar := .bits32, ttbrAddrHi := 23, ttbrAsidLo := 24, asidWW64 := 8 } }

/-- The last register and the last offset of a 32-bit array. -/
def lastS2crOffset : Word := 0xCBC#64

theorem witness_DecodeInvertsEncode :
    (Instr.sbrI .reserved 63 63 0#64 0#64).wf = true ∧ (Instr.cbTctrl 1023 63#6 3#2 3#2 3#2 3#2).wf = true := by decide

theorem witness_OpcodeRowsExclusive :
    (⟨.ttZero, 0x22000000#32, 0xFFFFFFFF#32⟩ : OpRow) ∈ opRows ∧ 0x22000000#32 &&& 0xFFFFFFFF#32 = 0x22000000#32 := by decide

theorem witness_IgnoredOperandBits_decode :
    opOf 0x40000001#32 = some .smCfg ∧ 0x103FF1400#64 &&& usedOpa .smCfg = 0xF03FF9400#64 &&& usedOpa .smCfg
      ∧ 7#64 &&& usedOpb .smCfg = 8#64 &&& usedOpb .smCfg := by decide

theorem witness_IgnoredOperandBits_image : HasWidth .w16 16 ∧ ∀ p, p < 16 → (0x1FFFF#64).getLsbD p = (0xFFFF#64).getLsbD p := by
  refine ⟨.inl ⟨rfl, rfl⟩, by decide⟩

theorem witness_IgnoredOperandBits_value : (2#64).getLsbD 0 = (0#64).getLsbD 0 := by decide

theorem witness_StepRunsDecodedCommand :
    readyToStep.program[readyToStep.position]? = some ⟨0x34070000#32, .lit 0#64, .lit 0#64, false⟩
      ∧ decode ⟨0x34070000#32, 0#64, 0#64⟩ = .ok (.cbEnable 0 true true true)
      ∧ Safety.goesOn (exec (.cbEnable 0 true true true) { readyToStep with cw := 0x34070000#32 }) = true := by decide

theorem witness_IllegalHeaderAnswered :
    (loaded ⟨0x104F2001#32, 0#64, 0#64⟩).program[(loaded ⟨0x104F2001#32, 0#64, 0#64⟩).position]?
        = some ⟨0x104F2001#32, .lit 0#64, .lit 0#64, false⟩
      ∧ (∀ r ∈ opRows, 0x104F2001#32 &&& r.mask ≠ r.pattern)
      ∧ (0xFFFFFFFF#32).extractLsb' 24 8 ∉ listedOpcodes := by decide

theorem witness_ExhaustedListWaits : State.reset.program.length ≤ State.reset.position := by decide

theorem witness_SetBitRangeLaws :
    (0 ≤ 63 ∧ 63 < 64) ∧ (0 ≤ 0 ∧ 0 < 64 ∧ (62 < 63 ∨ 63 < 0))
      ∧ (∀ f ∈ [(63, 48, 5), (47, 12, 7), (0, 0, 1)], f.2.1 ≤ f.1 ∧ f.1 < 64)
      ∧ List.Pairwise (fun f g : Nat × Nat × Nat => f.1 < g.2.1 ∨ g.1 < f.2.1) [(63, 48, 5), (47, 12, 7), (0, 0, 1)] := by decide

theorem witness_AccessorContractChecked :
    (HasWidth .w64 64 ∧ (62 < 63 ∨ 64 - 1 < 62)) ∧ (HasWidth .w16 16 ∧ (16 < 0 ∨ 16 - 1 < 16))
      ∧ (HasWidth .w32 32 ∧ 0 ≤ 31 ∧ 31 ≤ 32 - 1 ∧ (8#64).toNat % (32 / 8) = 0) := by
  simp [HasWidth]

theorem witness_accessor_forms :
    HasWidth .w64 64 ∧ 0 ≤ 63 ∧ 63 < 64 ∧ (0xFFFFFFFFFFFFFFF8#64).toNat % (64 / 8) = 0
      ∧ (0xFFFFFFFFFFFFFFFC#64).toNat % (64 / 8) ≠ 0 := by
  simp [HasWidth]

theorem witness_MappedStorageUpdate :
    HasWidth .w32 32 ∧ lastS2crOffset.toNat % (32 / 8) = 0
      ∧ registerAt State.reset.params (State.reset.params.map.iommuBase + lastS2crOffset.toNat) (32 / 8) = some (.s2cr 47)
      ∧ (RegRef.s2cr 47).regClass = .storage := ⟨.inr (.inl ⟨rfl, rfl⟩), by decide, by decide, rfl⟩

theorem witness_MappedW1cUpdateClears :
    HasWidth .w64 64 ∧ (0x1F060#64).toNat % (64 / 8) = 0
      ∧ registerAt State.reset.params (State.reset.params.map.iommuBase + (0x1F060#64).toNat) (64 / 8) = some (.cbFar 15)
      ∧ (RegRef.cbFar 15).regClass = .w1c := ⟨.inr (.inr ⟨rfl, rfl⟩), by decide, by decide, rfl⟩

theorem witness_MappedTriggerUpdate :
    registerAt State.reset.params (State.reset.params.map.iommuBase + (0x60#64).toNat) 4 = some .tlbiS
      ∧ registerAt State.reset.params (State.reset.params.map.iommuBase + (0x68#64).toNat) 4 = some .tlbiNs := by decide

theorem witness_MappedElsewhereFrame :
    HasWidth .w64 64 ∧ (0xFFFFFFFFFFFFFFF8#64).toNat % (64 / 8) = 0
      ∧ registerAt State.reset.params (State.reset.params.map.iommuBase + (0xFFFFFFFFFFFFFFF8#64).toNat) (64 / 8) = none
      ∧ regAddr State.reset.params .scr0 + regBytes State.reset.params .scr0
          ≤ State.reset.params.map.iommuBase + (0xFFFFFFFFFFFFFFF8#64).toNat :=
  ⟨.inr (.inr ⟨rfl, rfl⟩), by decide, by decide, by decide⟩

theorem witness_MappedNarrowStorageUpdate :
    HasWidth .w16 16 ∧ (0x802#64).toNat % (16 / 8) = 0 ∧ (RegRef.smr 0).regClass = .storage
      ∧ State.reset.params.map.iommuBase + (0x802#64).toNat = regAddr State.reset.params (.smr 0) + 2
      ∧ 2 + 16 / 8 ≤ regBytes State.reset.params (.smr 0) ∧ 16 / 8 < regBytes State.reset.params (.smr 0)
      ∧ mapAdmissible State.reset.params :=
  ⟨.inl ⟨rfl, rfl⟩, by decide, rfl, by decide, by decide, by decide, mapAdmissible_default⟩

theorem witness_BypassSwitchChangesOneBit :
    State.reset.params.field.scr0BypassBit < 32 ∧ (0#64).toNat % 4 = 0
      ∧ registerAt State.reset.params (State.reset.params.map.iommuBase + (0#64).toNat) 4 = some .scr0 := by decide

theorem witness_RegisterBytesResolve : mapAdmissible defaultParams ∧ 7 < regBytes defaultParams (.cbFar 15) :=
  ⟨mapAdmissible_default, by decide⟩

theorem witness_StorageReadsLastWrite :
    (RegRef.scr1).regClass = .storage ∧ RegRef.scr1 = .scr1 ∧ RegRef.cbFar 0 ≠ .scr1 := by decide

theorem witness_wide_forms :
    wideAdmitted.params.w64Admitted = true ∧ State.reset.params.w64Admitted = false ∧ AddrWidth.w32 = .w32
      ∧ wideAdmitted.bankState 15 ≠ .enabled := by decide

theorem witness_BuiltEntryIsValidBlock :
    State.reset.params.template.getLsbD 0 = true ∧ State.reset.params.template.getLsbD 1 = false := by decide

theorem witness_table_forms :
    State.reset.tableMem.wf ∧ (0xFFFFFFFFFFFFFFE0#64).toNat % 8 = 0 ∧ (0xFFFFFFFFFFFFFFE0#64).toNat ≤ 2 ^ 64 - 32 ∧ 3 < 4
      ∧ (0x40000004#64).toNat % 8 ≠ 0 ∧ 2 ^ 64 - 32 < (0xFFFFFFFFFFFFFFE8#64).toNat ∧ 4 ≤ 4 := by decide

theorem witness_IdentityTableMapsToItself :
    HistoryOf (bringUp15.map (by0 .ok)) (broughtUp 6)
      ∧ soundlyEnabled (broughtUp 6).params 15 (bringUp15.map (by0 .ok)) = true
      ∧ ctrlEnabled (broughtUp 6) 15 = true ∧ formatIsW64 (broughtUp 6) 15 = false ∧ t0szOf (broughtUp 6) 15 = 0
      ∧ (broughtUp 6).tlb = ⟨false, false⟩ ∧ tableBaseOf (broughtUp 6) 15 = (0x40001000#64).toNat
      ∧ (broughtUp 6).params.template.getLsbD 0 = true ∧ (broughtUp 6).params.template.getLsbD 1 = false
      ∧ entryBlockZero (broughtUp 6).params.template = 0#18 ∧ entryReserved .w32 (broughtUp 6).params.template = 0
      ∧ ∀ k, k < 4 → ∃ u v : State, exec (.ttBuild .w32 0#64 (BitVec.ofNat 64 k)) u = .next v ∧ u.params = (broughtUp 6).params
          ∧ (broughtUp 6).tableMem.read64 ((0x40001000#64).toNat + 8 * k) = some v.rsp.d0 :=
  ⟨broughtUp_history, by decide, by decide, by decide, by decide, by decide, by decide, by decide, by decide, by decide,
    by decide, fun k hk => ⟨broughtUp 6, after (.ttBuild .w32 0#64 (BitVec.ofNat 64 k)) (broughtUp 6), rfl, rfl, by
      have h : ∀ k, k < 4 → (broughtUp 6).tableMem.read64 ((0x40001000#64).toNat + 8 * k)
          = some (after (.ttBuild .w32 0#64 (BitVec.ofNat 64 k)) (broughtUp 6)).rsp.d0 := by decide
      exact h k hk⟩⟩

theorem reset_registers_fit : RegistersFit (inState 15 .tableBaseSet) := by
  intro r
  have h : (inState 15 .tableBaseSet).regs.get r = if r = .scr0 then 1#64 else 0#64 := by
    cases r <;> simp [inState, State.reset, State.resetWith, RegFile.reset, RegFile.get, entryOf, defaultParams, defaultFieldMap]; rfl
  rw [h]
  rcases regBits_cases (inState 15 .tableBaseSet).params r with h | h <;> rw [h] <;> split <;> decide

theorem witness_sequencer_forms :
    fieldsAdmissible (inState 15 .tableBaseSet).params = true ∧ (inState 15 .tableBaseSet).bankState 15 ≠ .enabled
      ∧ (0xFFFFFFFFFFFFF000#64).toNat % 4096 = 0 ∧ (0xFFFFFFFFFFFFFFFF#64).toNat % 4096 ≠ 0
      ∧ RegistersFit (inState 15 .tableBaseSet) := ⟨by decide, by decide, by decide, by decide, reset_registers_fit⟩

theorem witness_narrow_fields : fieldsAdmissible narrowParams = true := by decide

theorem witness_TransitionTable : (inState 0 .enabled).bankState 0 = .enabled ∧ (inState 0 .enabled).bankState 15 ≠ .enabled := by decide

theorem witness_InvalidOrderingOnlyWhenEnabled : (after (.cbMattr 15 0#64) (inState 15 .enabled)).rsp.status = 3#4 := by decide

theorem witness_MisalignedBaseRefused : (after (.cbTbase 15 0#16 0xFFF#64) .reset).rsp.status = 2#4 := by decide

theorem witness_SequencerStateOwnedByItsCommands :
    (after (.cbAmode 15 .w64) wideAdmitted).bankState 15 ≠ wideAdmitted.bankState 15
      ∧ (after (.cbAmode 15 .w64) wideAdmitted).bankAw 15 ≠ wideAdmitted.bankAw 15 := by decide

theorem witness_StreamToContextWritten :
    fieldsAdmissible State.reset.params = true ∧ StreamKind.translate ≠ .reserved ∧ (15#8).toNat < 16
      ∧ StreamKind.fault ≠ .translate := by decide

theorem witness_PendingLineStaysUntilCleared :
    (holding (.cbFsr 15) 2#64).faultLine = true ∧ (Instr.frSnapg).op ∉ [Op.frClearall, .sbrM, .sbM]
      ∧ Safety.goesOn (exec .frSnapg (holding (.cbFsr 15) 2#64)) = true := by decide

/-- The parameters of `State.reset`, and others: a 32-bit table base, and the bypass bit at the top of `SCR0`. -/
theorem witness_reset_for_all_parameters :
    mapAdmissible defaultParams ∧ defaultParams.field.scr0BypassBit < 32
      ∧ ({ narrowParams with field := { narrowParams.field with scr0BypassBit := 31 } }).field.scr0BypassBit < 32 :=
  ⟨mapAdmissible_default, by decide, by decide⟩

theorem witness_SmmuSetsBitsDuringAnyStep :
    Safety.goesOn (step { State.reset with program := [commandOf .frClearall] }) = true ∧ (RegRef.cbFar 15).regClass = .w1c
      ∧ (RegRef.gfsr).regClass = .w1c ∧ (RegRef.gfsr).drawNumber = (RegRef.gfsr).drawNumber := by decide

theorem witness_SequencerAgreesWithEnableBit :
    HistoryOf (bringUp15.map (by0 .ok)) (broughtUp 6) ∧ fieldsAdmissible (broughtUp 6).params = true
      ∧ mapAdmissible (broughtUp 6).params
      ∧ (∀ c ∈ History.done (bringUp15.map (by0 .ok)), mappedTouches (broughtUp 6).params (fun r => r == .cbCtrl 15) c = false)
      ∧ ctrlEnabled (broughtUp 6) 15 = true :=
  ⟨broughtUp_history, by decide, mapAdmissible_default, by decide, by decide⟩

theorem witness_exec_goes_on :
    Safety.goesOn (exec .frClearall .reset) = true ∧ (after .frClearall .reset).rsp.status = 0#4
      ∧ Safety.goesOn (exec (.frSnapc 16) .reset) = true ∧ (after (.frSnapc 16) .reset).rsp.status ≠ 0#4 := by decide

theorem witness_NoRegisterValueDecides :
    (holding (.cbTtbr 0) 5#64).cbState = State.reset.cbState ∧ (holding (.cbTtbr 0) 5#64).cbAw = State.reset.cbAw
      ∧ (holding (.cbTtbr 0) 5#64).params = State.reset.params := ⟨rfl, rfl, rfl⟩

theorem witness_step_goes_on : Safety.goesOn (step readyToStep) = true := by decide

/-- A header with a must-be-zero bit set, and a bank index out of range, ready to step: both fail. -/
theorem witness_failed_step :
    (loaded ⟨0x104F2001#32, 0#64, 0#64⟩).program[(loaded ⟨0x104F2001#32, 0#64, 0#64⟩).position]?
        = some ⟨0x104F2001#32, .lit 0#64, .lit 0#64, false⟩
      ∧ statusOf ⟨0x104F2001#32, 0#64, 0#64⟩ = some 6#4 ∧ statusOf ⟨0x51000010#32, 0#64, 0#64⟩ = some 1#4 := by decide

/-- The failures a command can answer in a state, by cause: all leave the banks alone. -/
theorem witness_failing_commands :
    (after (.sbrI .reserved 0 0 0#64 0#64) .reset).rsp.status = 5#4 ∧ (after (.cbTbase 0 0#16 1#64) .reset).rsp.status = 2#4 := by decide

theorem witness_StepKeepsInvariant : Inv { inState 15 .tableBaseSet with
    tableMem := [(0xFFFFFFFFFFFFFFFF, 1#8)], rsp := ⟨6#4, 0#64, 0#64, 0#64⟩, program := [commandOf .frTlbiall]
    trace := [⟨.regRead, 0xFD800000, 2, 0xFFFF#64⟩, ⟨.memWrite, 0xFFFFFFFFFFFFFFF8, 8, 0#64⟩] } where
  memory := by decide
  inSpace := by decide
  registers := reset_registers_fit
  response := ⟨by decide, fun _ => ⟨rfl, rfl, rfl⟩⟩
  map := mapAdmissible_default
  accesses := by
    intro a h
    rcases List.mem_cons.mp h with h | h
    · subst h; exact ⟨by decide, by decide⟩
    · rw [List.mem_singleton.mp h]; exact ⟨by decide, by decide⟩

end Sys2Proof.Tests
end

section
/-! PROOFS. The data words of a response (spec/30_encoding.md R101). -/

namespace Sys2Proof.Machine

/-! ## Which data words a command uses -/

/-- The table of R101: how many data words, counted from `d0`, a command uses. -/
def dataWordsUsed : Op → Nat
  | .frSnapc => 3
  | .frSnapg => 2
  | .sbrI | .sbI | .sbrM | .sbM | .ttBuild => 1
  | _ => 0

/-- The data words from number `n` on are zero. -/
structure Response.ZeroFrom (n : Nat) (r : Response) : Prop where
  d0 : n < 1 → r.d0 = 0#64
  d1 : n < 2 → r.d1 = 0#64
  d2 : n < 3 → r.d2 = 0#64

/-- Whatever next state is answered, its response uses the first `n` data words at most. -/
def UsesAtMost (n : Nat) (r : Result) : Prop := ∀ t, r = .next t → t.rsp.ZeroFrom n

theorem dataWordsUsed_lt_one (o : Op) :
    o ∉ [Op.sbrI, .sbI, .sbrM, .sbM, .ttBuild, .frSnapg, .frSnapc] → dataWordsUsed o < 1 := by
  cases o <;> decide

theorem dataWordsUsed_lt_two (o : Op) : o ∉ [Op.frSnapg, .frSnapc] → dataWordsUsed o < 2 := by
  cases o <;> decide

theorem dataWordsUsed_lt_three (o : Op) : o ≠ .frSnapc → dataWordsUsed o < 3 := by
  cases o <;> decide

/-! ## One rule per shape an arm of `exec` has -/

/-- A failure uses no data word (R216), so no more than `n` of them. -/
theorem usesAtMost_raise (n : Nat) (st : Status) (s : State) : UsesAtMost n (raise st s) := by
  rintro t ⟨⟩
  exact ⟨fun _ => rfl, fun _ => rfl, fun _ => rfl⟩

theorem usesAtMost_complete_none (s : State) : UsesAtMost 0 (complete 0#64 0#64 0#64 s) := by
  rintro t ⟨⟩
  exact ⟨fun _ => rfl, fun _ => rfl, fun _ => rfl⟩

theorem usesAtMost_complete_one (d0 : Word) (s : State) : UsesAtMost 1 (complete d0 0#64 0#64 s) := by
  rintro t ⟨⟩
  exact ⟨fun h => absurd h (by decide), fun _ => rfl, fun _ => rfl⟩

theorem usesAtMost_complete_two (d0 d1 : Word) (s : State) : UsesAtMost 2 (complete d0 d1 0#64 s) := by
  rintro t ⟨⟩
  exact ⟨fun h => absurd h (by decide), fun h => absurd h (by decide), fun _ => rfl⟩

theorem usesAtMost_three (r : Result) : UsesAtMost 3 r := fun _ _ =>
  ⟨fun h => absurd h (by decide), fun h => absurd h (by decide), fun h => absurd h (by decide)⟩

/-- A check before the rest of the command: only the branch that passes can use data words. It serves an `if` that drops
the check's proof as well, since that unfolds to this form. -/
theorem usesAtMost_check {n : Nat} {c : Prop} [Decidable c] {a : c → Result} {st : Status} {s : State}
    (pass : ∀ h, UsesAtMost n (a h)) : UsesAtMost n (if h : c then a h else raise st s) := by
  split
  · exact pass _
  · exact usesAtMost_raise n st s

/-- The same for a check written by its failing condition. -/
theorem usesAtMost_guard {n : Nat} {c : Prop} [Decidable c] {a : Result} {st : Status} {s : State}
    (pass : UsesAtMost n a) : UsesAtMost n (if c then raise st s else a) := by
  split
  · exact usesAtMost_raise n st s
  · exact pass

/-- The ordering check of the configuration steps (R152). -/
theorem usesAtMost_configStep {n : Nat} {i : Fin 16} {s : State} {body : State → Result}
    (pass : UsesAtMost n (body s)) : UsesAtMost n (configStep i s body) :=
  usesAtMost_guard pass

/-- `SBR.I` answers the new image in `d0` (R114). -/
theorem execSbrI_usesAtMost (sz : SizeCode) (hi lo : Nat) (image value : Word) (s : State) :
    UsesAtMost 1 (execSbrI sz hi lo image value s) := by
  unfold execSbrI
  split
  · exact usesAtMost_raise _ _ _
  · exact usesAtMost_check fun _ => usesAtMost_complete_one _ _

/-- `SBR.M` answers the value written in `d0` (R116). -/
theorem execSbrM_usesAtMost (sz : SizeCode) (hi lo : Nat) (offset value : Word) (s : State) :
    UsesAtMost 1 (execSbrM sz hi lo offset value s) := by
  unfold execSbrM
  split
  · exact usesAtMost_raise _ _ _
  · exact usesAtMost_check fun _ => usesAtMost_complete_one _ _

/-! ## Every command -/

/-- A command uses the data words of its row in the table of R101 at most. -/
theorem exec_usesAtMost (i : Instr) (s : State) : UsesAtMost (dataWordsUsed i.op) (exec i s) := by
  cases i with
  | sbrI sz hi lo image value => exact execSbrI_usesAtMost sz hi lo image value s
  | sbI sz bit image value => exact execSbrI_usesAtMost sz bit bit image value s
  | sbrM sz hi lo offset value => exact execSbrM_usesAtMost sz hi lo offset value s
  | sbM sz bit offset value => exact execSbrM_usesAtMost sz bit bit offset value s
  | ttBuild aw flags oa => exact usesAtMost_guard (usesAtMost_complete_one _ _)
  | ttWrite idx table entry =>
    exact usesAtMost_check fun _ => usesAtMost_check fun _ => usesAtMost_complete_none _
  | ttZero table => exact usesAtMost_check fun _ => usesAtMost_complete_none _
  | cbAmode idx aw =>
    exact usesAtMost_guard <| usesAtMost_check fun _ => usesAtMost_configStep (usesAtMost_complete_none _)
  | cbMattr idx attrs =>
    exact usesAtMost_check fun _ => usesAtMost_configStep (usesAtMost_complete_none _)
  | cbTctrl idx t0sz inner outer sh granule =>
    exact usesAtMost_check fun _ => usesAtMost_configStep (usesAtMost_complete_none _)
  | cbTbase idx asid base =>
    exact usesAtMost_check fun _ => usesAtMost_configStep <|
      usesAtMost_check fun _ => usesAtMost_complete_none _
  | cbEnable idx en fr fi => exact usesAtMost_check fun _ => usesAtMost_complete_none _
  | smCfg idx valid mask tbu master => exact usesAtMost_check fun _ => usesAtMost_complete_none _
  | smResetall => exact usesAtMost_complete_none _
  | s2cCfg idx kind cbndx =>
    exact usesAtMost_guard <| usesAtMost_check fun _ => usesAtMost_guard (usesAtMost_complete_none _)
  | frSnapg => exact usesAtMost_complete_two _ _ _
  | frSnapc idx => exact usesAtMost_three _
  | frClearall => exact usesAtMost_complete_none _
  | frTlbiall => exact usesAtMost_complete_none _

/-! ## Failures -/

/-- An answer is a next state, and one with a status other than `OK` has zero data words (R216). -/
theorem Answers.exists_next {s : State} {r : Result} (h : Answers s r) :
    ∃ t, r = .next t ∧ (t.rsp.status ≠ 0#4 → t.rsp.d0 = 0#64 ∧ t.rsp.d1 = 0#64 ∧ t.rsp.d2 = 0#64) := by
  cases h with
  | failed st ne => exact ⟨_, raise_eq st s, fun _ => ⟨rfl, rfl, rfl⟩⟩
  | completed d0 d1 d2 u host => exact ⟨_, complete_eq d0 d1 d2 u, fun h => absurd rfl h⟩

/-- What the command registers hold answers in one of the two ways, an illegal header included (R93, R217). -/
theorem runLoaded_answers (s : State) : Answers s (runLoaded s) := by
  cases h : decode s.frame with
  | ok i => rw [runLoaded_of_ok s i h]; exact exec_answers i s
  | error e => rw [runLoaded_of_error s e h]; exact answers_raise s _

/-- Settles O53: the words of a success by the table of R101, those of a failure by the inversion of `exec`. -/
theorem unusedDataWordsZero : Obligations.UnusedDataWordsZero := by
  unfold Obligations.UnusedDataWordsZero
  constructor
  · intro i s t run
    have unused := exec_usesAtMost i s t run
    obtain ⟨u, hu, failedZero⟩ := (exec_answers i s).exists_next
    obtain rfl : u = t := by simpa [hu] using run
    exact ⟨fun _ => ⟨fun h => unused.d0 (dataWordsUsed_lt_one _ h), fun h => unused.d1 (dataWordsUsed_lt_two _ h),
      fun h => unused.d2 (dataWordsUsed_lt_three _ h)⟩, failedZero⟩
  · intro s t c issued stepped
    obtain ⟨u, hu, failedZero⟩ := (runLoaded_answers (s.load c)).exists_next
    obtain rfl : (u.advance c).smmuActs = t := by simpa [step_of_run s u c issued hu] using stepped
    simpa using failedZero

end Sys2Proof.Machine
end

section
/-! PROOFS. The bit-field accessor: the laws of its pure function and the checks of its commands
(spec/40_bitfield_accessor.md R112, R113). -/

namespace Sys2Proof.Machine

open Sys2Proof.Claim

/-! ## The laws of `setBitRange` (R112) -/

/-- R112 law 1, read-back: the field holds the value cut to its width. -/
theorem fieldOf_setBitRange {n : Nat} (img : BitVec n) {hi lo : Nat} (val : Nat) (h : lo ≤ hi) (hn : hi < n) :
    fieldOf (setBitRange img hi lo val).toNat hi lo = val % 2 ^ (hi - lo + 1) := by
  apply Nat.eq_of_testBit_eq
  intro p
  rw [fieldOf_testBit, BitVec.testBit_toNat, setBitRange_getLsbD _ _ _ _ _ h, Nat.testBit_mod_two_pow]
  by_cases hp : p < hi - lo + 1
  · have inside : lo ≤ lo + p ∧ lo + p ≤ hi ∧ lo + p < n := by omega
    rw [if_pos inside, Nat.add_sub_cancel_left]
  · simp [hp]

/-- R112 law 2, frame: a bit outside the field is the image's. -/
theorem setBitRange_getLsbD_outside {n : Nat} (img : BitVec n) {hi lo : Nat} (val : Nat) {p : Nat} (h : lo ≤ hi)
    (out : p < lo ∨ hi < p) : (setBitRange img hi lo val).getLsbD p = img.getLsbD p := by
  rw [setBitRange_getLsbD _ _ _ _ _ h, if_neg (by omega)]

/-- R112 law 3, truncation: only the value's bits that fit the field count. -/
theorem setBitRange_mod {n : Nat} (img : BitVec n) (hi lo val : Nat) :
    setBitRange img hi lo (val % 2 ^ (hi - lo + 1)) = setBitRange img hi lo val := by
  simp only [setBitRange, Nat.mod_mod]

/-- R112 law 5, last write wins. -/
theorem setBitRange_setBitRange_same {n : Nat} (img : BitVec n) {hi lo : Nat} (a b : Nat) (h : lo ≤ hi) :
    setBitRange (setBitRange img hi lo a) hi lo b = setBitRange img hi lo b := by
  apply BitVec.eq_of_getLsbD_eq
  intro p _
  simp only [setBitRange_getLsbD _ _ _ _ _ h]
  split <;> rfl

/-- R112 law 6: updates of disjoint fields commute, since no bit lies in both. -/
theorem setBitRange_comm {n : Nat} (img : BitVec n) {hi lo hi' lo' : Nat} (a b : Nat) (h : lo ≤ hi) (h' : lo' ≤ hi')
    (disjoint : hi < lo' ∨ hi' < lo) :
    setBitRange (setBitRange img hi lo a) hi' lo' b = setBitRange (setBitRange img hi' lo' b) hi lo a := by
  apply BitVec.eq_of_getLsbD_eq
  intro p _
  simp only [setBitRange_getLsbD _ _ _ _ _ h, setBitRange_getLsbD _ _ _ _ _ h']
  by_cases inside : lo ≤ p ∧ p ≤ hi ∧ p < n
  · rw [if_neg (by omega), if_pos inside, if_pos inside]
  · rw [if_neg inside, if_neg inside]

/-- R112 law 7, decision D6: an update of the whole register forgets the image. -/
theorem setBitRange_whole {n : Nat} (img : BitVec n) (val : Nat) :
    setBitRange img (n - 1) 0 val = BitVec.ofNat n (val % 2 ^ n) := by
  apply BitVec.eq_of_getLsbD_eq
  intro p hp
  have inside : 0 ≤ p ∧ p ≤ n - 1 ∧ p < n := by omega
  rw [setBitRange_getLsbD _ _ _ _ _ (Nat.zero_le _), if_pos inside, BitVec.getLsbD_ofNat, Nat.testBit_mod_two_pow]
  simp [hp]

/-- R112 law 8: the value zero leaves the image and the inverted mask. -/
theorem setBitRange_zero {n : Nat} (img : BitVec n) (hi lo : Nat) :
    setBitRange img hi lo 0 = img &&& ~~~(BitVec.ofNat n ((2 ^ (hi - lo + 1) - 1) <<< lo)) := by
  simp [setBitRange]

/-- Where the field is clear, the update is an OR with the shifted, truncated value. -/
theorem setBitRange_of_clear {n : Nat} {v : BitVec n} {hi lo : Nat} (val : Nat) (h : lo ≤ hi)
    (clear : ∀ p, lo ≤ p → p ≤ hi → v.getLsbD p = false) :
    setBitRange v hi lo val = v ||| BitVec.ofNat n ((val % 2 ^ (hi - lo + 1)) <<< lo) := by
  apply BitVec.eq_of_getLsbD_eq
  intro p hp
  rw [setBitRange_getLsbD _ _ _ _ _ h, BitVec.getLsbD_or, BitVec.getLsbD_ofNat, Nat.testBit_shiftLeft,
    Nat.testBit_mod_two_pow]
  by_cases inside : lo ≤ p ∧ p ≤ hi
  · have width : p - lo < hi - lo + 1 := by omega
    rw [clear p inside.1 inside.2]
    simp [inside, hp, width]
  · have width : lo ≤ p → ¬ p - lo < hi - lo + 1 := by omega
    rw [if_neg (by omega)]
    by_cases above : lo ≤ p
    · simp [width above]
    · simp [above]

/-- R112 law 9 from any start with the fields clear: updating one field leaves the others, disjoint from it, clear. -/
theorem foldl_setBitRange_of_clear {n : Nat} (fs : List (Nat × Nat × Nat)) (v : BitVec n)
    (ordered : ∀ f ∈ fs, f.2.1 ≤ f.1)
    (disjoint : fs.Pairwise fun f g : Nat × Nat × Nat => f.1 < g.2.1 ∨ g.1 < f.2.1)
    (clear : ∀ f ∈ fs, ∀ p, f.2.1 ≤ p → p ≤ f.1 → v.getLsbD p = false) :
    fs.foldl (fun v f => setBitRange v f.1 f.2.1 f.2.2) v
      = fs.foldl (fun v f => v ||| BitVec.ofNat n ((f.2.2 % 2 ^ (f.1 - f.2.1 + 1)) <<< f.2.1)) v := by
  induction fs generalizing v with
  | nil => rfl
  | cons f fs ih =>
    obtain ⟨fOrdered, ordered⟩ := List.forall_mem_cons.mp ordered
    obtain ⟨fDisjoint, disjoint⟩ := List.pairwise_cons.mp disjoint
    obtain ⟨fClear, clear⟩ := List.forall_mem_cons.mp clear
    have stillClear : ∀ g ∈ fs, ∀ p, g.2.1 ≤ p → p ≤ g.1 → (setBitRange v f.1 f.2.1 f.2.2).getLsbD p = false := by
      intro g hg p hlo hhi
      have out : p < f.2.1 ∨ f.1 < p := by have := fDisjoint g hg; omega
      rw [setBitRange_getLsbD_outside v f.2.2 fOrdered out, clear g hg p hlo hhi]
    rw [List.foldl_cons, List.foldl_cons, ih _ ordered disjoint stillClear, setBitRange_of_clear f.2.2 fOrdered fClear]

/-- Settles O9: one lemma per law; idempotence is last-write-wins with equal values, composition starts from all bits
clear. -/
theorem setBitRangeLaws : Obligations.SetBitRangeLaws := by
  unfold Obligations.SetBitRangeLaws
  intro n img hi lo h hn
  refine ⟨?readBack, ?frame, ?truncation, ?idempotence, ?lastWins, ?commutation, ?whole, ?zero, ?composition⟩
  case readBack => exact fun val => fieldOf_setBitRange img val h hn
  case frame => exact fun val _ out => setBitRange_getLsbD_outside img val h out
  case truncation => exact fun val => (setBitRange_mod img hi lo val).symm
  case idempotence => exact fun val => setBitRange_setBitRange_same img val val h
  case lastWins => exact fun a b => setBitRange_setBitRange_same img a b h
  case commutation => exact fun hi' lo' a b h' _ disjoint => setBitRange_comm img a b h h' disjoint
  case whole => exact setBitRange_whole img
  case zero => exact setBitRange_zero img hi lo
  case composition =>
    exact fun fs inWidth disjoint => foldl_setBitRange_of_clear fs 0#n (fun f hf => (inWidth f hf).1) disjoint
      fun _ _ _ _ _ => BitVec.getLsbD_zero

/-! ## The contract check (R113) -/

/-- R85: a code selects a width exactly where it is a legal one. -/
theorem widthOf_eq_some {sz : SizeCode} {n : Nat} : widthOf sz = some n ↔ HasWidth sz n := by
  cases sz <;> simp [widthOf, HasWidth, eq_comm]

theorem hasWidth_pos {sz : SizeCode} {n : Nat} (w : HasWidth sz n) : 0 < n := by
  obtain ⟨-, rfl⟩ | ⟨-, rfl⟩ | ⟨-, rfl⟩ := w <;> decide

theorem rangeInContract_iff {n hi lo : Nat} : rangeInContract n hi lo = true ↔ lo ≤ hi ∧ hi < n := by
  simp [rangeInContract]

/-- At a legal width, the check fails exactly where `rangeBroken`, which is written apart from it, says so. -/
theorem rangeBroken_of_hasWidth {sz : SizeCode} {n : Nat} (w : HasWidth sz n) (hi lo : Nat) :
    rangeBroken sz hi lo = !rangeInContract n hi lo := by
  obtain ⟨rfl, rfl⟩ | ⟨rfl, rfl⟩ | ⟨rfl, rfl⟩ := w <;> simp [rangeBroken, rangeInContract, Nat.lt_succ_iff]

/-- The ways to break the contract: the reserved width, a range upside down, or one that goes beyond the width. -/
theorem rangeBroken_of_bad {sz : SizeCode} {hi lo : Nat}
    (bad : sz = .reserved ∨ ∃ n, HasWidth sz n ∧ (hi < lo ∨ n - 1 < hi)) : rangeBroken sz hi lo = true := by
  obtain rfl | ⟨n, w, bad⟩ := bad
  · rfl
  · have pos := hasWidth_pos w
    have refused : ¬ rangeInContract n hi lo = true := by rw [rangeInContract_iff]; omega
    simp [rangeBroken_of_hasWidth w, refused]

/-- No width a code selects admits a broken range. -/
theorem not_rangeInContract_of_rangeBroken {sz : SizeCode} {n hi lo : Nat} (broken : rangeBroken sz hi lo = true)
    (w : widthOf sz = some n) : rangeInContract n hi lo = false := by
  simpa [rangeBroken_of_hasWidth (widthOf_eq_some.mp w)] using broken

/-- `SBR.I` refuses a broken range, whatever image and value. -/
theorem execSbrI_of_rangeBroken {sz : SizeCode} {hi lo : Nat} (image value : Word) (s : State)
    (broken : rangeBroken sz hi lo = true) : execSbrI sz hi lo image value s = .next (failed 5#4 s) := by
  unfold execSbrI
  split
  · rfl
  · next w => rw [not_rangeInContract_of_rangeBroken broken w]; rfl

/-- `SBR.M` refuses a broken range, whatever offset and value. -/
theorem execSbrM_of_rangeBroken {sz : SizeCode} {hi lo : Nat} (offset value : Word) (s : State)
    (broken : rangeBroken sz hi lo = true) : execSbrM sz hi lo offset value s = .next (failed 5#4 s) := by
  unfold execSbrM
  split
  · rfl
  · next w => rw [not_rangeInContract_of_rangeBroken broken w]; rfl

/-- `SBR.I` with its range in contract is the image update (R114), whatever image and value. -/
theorem execSbrI_of_inContract {sz : SizeCode} {n hi lo : Nat} (image value : Word) (s : State) (w : HasWidth sz n)
    (h : lo ≤ hi) (hn : hi < n) : execSbrI sz hi lo image value s = imageUpdate n hi lo image value s := by
  simp [execSbrI, widthOf_eq_some.mpr w, rangeInContract_iff.mpr ⟨h, hn⟩]

/-- `SBR.M` with its range in contract and its offset aligned is the mapped update (R116), whatever value. -/
theorem execSbrM_of_inContract {sz : SizeCode} {n hi lo : Nat} (offset value : Word) (s : State) (w : HasWidth sz n)
    (h : lo ≤ hi) (hn : hi < n) (aligned : offset.toNat % (n / 8) = 0) :
    execSbrM sz hi lo offset value s = mappedUpdate n hi lo offset value s := by
  simp [execSbrM, widthOf_eq_some.mpr w, rangeInContract_iff.mpr ⟨h, hn⟩, offsetAligned, aligned]

/-- R115, R117: the one-bit commands are the range commands with both ends at the bit. -/
theorem exec_sbI (sz : SizeCode) (bit : Nat) (image value : Word) (s : State) :
    exec (.sbI sz bit image value) s = execSbrI sz bit bit image value s := rfl

theorem exec_sbM (sz : SizeCode) (bit : Nat) (offset value : Word) (s : State) :
    exec (.sbM sz bit offset value) s = execSbrM sz bit bit offset value s := rfl

/-- An image command in contract completes with `OK`. -/
theorem execSbrI_status_ok {sz : SizeCode} {n hi lo : Nat} (image value : Word) (s : State) (w : HasWidth sz n)
    (h : lo ≤ hi) (hn : hi < n) : ∃ t, execSbrI sz hi lo image value s = .next t ∧ t.rsp.status = 0#4 :=
  ⟨_, execSbrI_of_inContract image value s w h hn, rfl⟩

/-- A mapped command in contract completes with `OK`. -/
theorem execSbrM_status_ok {sz : SizeCode} {n hi lo : Nat} (offset value : Word) (s : State) (w : HasWidth sz n)
    (h : lo ≤ hi) (hn : hi < n) (aligned : offset.toNat % (n / 8) = 0) :
    ∃ t, execSbrM sz hi lo offset value s = .next t ∧ t.rsp.status = 0#4 :=
  ⟨_, execSbrM_of_inContract offset value s w h hn aligned, rfl⟩

/-- Settles O11: the refusals by `rangeBroken`, the completions by the updates the commands then are; a one-bit command
is the range command whose two ends are the bit. -/
theorem accessorContractChecked : Obligations.AccessorContractChecked := by
  unfold Obligations.AccessorContractChecked
  refine ⟨?rangeRefused, ?bitRefused, ?accepted⟩
  case rangeRefused =>
    intro sz hi lo x value s bad
    have broken := rangeBroken_of_bad bad
    exact ⟨execSbrI_of_rangeBroken x value s broken, execSbrM_of_rangeBroken x value s broken⟩
  case bitRefused =>
    intro sz bit x value s bad
    have broken : rangeBroken sz bit bit = true :=
      rangeBroken_of_bad (bad.imp_right fun ⟨n, w, beyond⟩ => ⟨n, w, .inr beyond⟩)
    rw [exec_sbI, exec_sbM]
    exact ⟨execSbrI_of_rangeBroken x value s broken, execSbrM_of_rangeBroken x value s broken⟩
  case accepted =>
    intro sz n hi lo x value s w h top
    have hn : hi < n := by have pos := hasWidth_pos w; omega
    rw [exec_sbI, exec_sbM]
    exact ⟨execSbrI_status_ok x value s w h hn, execSbrI_status_ok x value s w le_rfl hn, fun aligned =>
      ⟨execSbrM_status_ok x value s w h hn aligned, execSbrM_status_ok x value s w le_rfl hn aligned⟩⟩

end Sys2Proof.Machine
end

section
/-! PROOFS. The ordering check of the context-bank sequencer (spec/42_context_bank_sequencer.md R152, R158). -/

namespace Sys2Proof.Machine

open Sys2Proof.Claim

/-! ## Where the status can come from -/

/-- R158: the one situation of `InvalidOrdering`: a configuration step on an `Enabled` bank, past the width guard. -/
def OrderingCause (i : Instr) (s : State) : Prop :=
  ∃ b : Fin 16, s.bankState b = .enabled
    ∧ ((∃ aw, i = .cbAmode b.val aw ∧ (aw = .w32 ∨ s.params.w64Admitted = true)) ∨ (∃ attrs, i = .cbMattr b.val attrs)
      ∨ (∃ t0sz a c d e, i = .cbTctrl b.val t0sz a c d e) ∨ (∃ asid base, i = .cbTbase b.val asid base))

/-- An answer has the status `InvalidOrdering` only where `P` holds. -/
def OrderingOnlyIf (P : Prop) (r : Result) : Prop := ∀ t, r = .next t → t.rsp.status = 3#4 → P

/-- Of the statuses of R210, one has the code 3. -/
theorem code_eq_three_iff {st : Status} : st.code = 3#4 ↔ st = .invalidOrdering := by
  cases st <;> decide

theorem orderingOnlyIf_raise {P : Prop} {st : Status} {s : State} (ne : st ≠ .invalidOrdering) :
    OrderingOnlyIf P (raise st s) := by
  rintro t ⟨⟩ code
  exact absurd (code_eq_three_iff.mp code) ne

theorem orderingOnlyIf_complete {P : Prop} (d0 d1 d2 : Word) (s : State) : OrderingOnlyIf P (complete d0 d1 d2 s) := by
  rintro t ⟨⟩ code
  exact absurd (code_eq_three_iff (st := .ok).mp code) (by decide)

/-- A check that fails with another status: only the branch that passes can answer `InvalidOrdering`. -/
theorem orderingOnlyIf_check {P c : Prop} [Decidable c] {a : c → Result} {st : Status} {s : State}
    (pass : ∀ h, OrderingOnlyIf P (a h)) (ne : st ≠ .invalidOrdering := by decide) :
    OrderingOnlyIf P (if h : c then a h else raise st s) := by
  split
  · exact pass _
  · exact orderingOnlyIf_raise ne

/-- The same for a check written by its failing condition. -/
theorem orderingOnlyIf_guard {P c : Prop} [Decidable c] {a : Result} {st : Status} {s : State}
    (pass : ¬ c → OrderingOnlyIf P a) (ne : st ≠ .invalidOrdering := by decide) :
    OrderingOnlyIf P (if c then raise st s else a) := by
  split
  · exact orderingOnlyIf_raise ne
  · exact pass ‹_›

/-- The ordering check itself (R152): the bank is `Enabled`. -/
theorem orderingOnlyIf_configStep {P : Prop} {i : Fin 16} {s : State} {body : State → Result}
    (enabled : s.bankState i = .enabled → P) (pass : OrderingOnlyIf P (body s)) :
    OrderingOnlyIf P (configStep i s body) := by
  unfold configStep
  split
  · exact fun _ _ _ => enabled ‹_›
  · exact pass

theorem execSbrI_orderingOnlyIf (P : Prop) (sz : SizeCode) (hi lo : Nat) (image value : Word) (s : State) :
    OrderingOnlyIf P (execSbrI sz hi lo image value s) := by
  unfold execSbrI
  split
  · exact orderingOnlyIf_raise (by decide)
  · exact orderingOnlyIf_check fun _ => orderingOnlyIf_complete _ _ _ _

theorem execSbrM_orderingOnlyIf (P : Prop) (sz : SizeCode) (hi lo : Nat) (offset value : Word) (s : State) :
    OrderingOnlyIf P (execSbrM sz hi lo offset value s) := by
  unfold execSbrM
  split
  · exact orderingOnlyIf_raise (by decide)
  · exact orderingOnlyIf_check fun _ => orderingOnlyIf_complete _ _ _ _

/-- R14, R132: the width guard, read as the widths it lets by. -/
theorem not_w64Refused_iff {aw : AddrWidth} {s : State} :
    ¬ w64Refused aw s = true ↔ aw = .w32 ∨ s.params.w64Admitted = true := by
  cases aw <;> simp [w64Refused]

/-- A command answers `InvalidOrdering` only in the situation of R158: no other command has the check, and the four
that have it reach it with an index in range. -/
theorem exec_orderingOnlyIf (i : Instr) (s : State) : OrderingOnlyIf (OrderingCause i s) (exec i s) := by
  cases i with
  | sbrI sz hi lo image value => exact execSbrI_orderingOnlyIf _ sz hi lo image value s
  | sbI sz bit image value => exact execSbrI_orderingOnlyIf _ sz bit bit image value s
  | sbrM sz hi lo offset value => exact execSbrM_orderingOnlyIf _ sz hi lo offset value s
  | sbM sz bit offset value => exact execSbrM_orderingOnlyIf _ sz bit bit offset value s
  | ttBuild aw flags oa => exact orderingOnlyIf_guard fun _ => orderingOnlyIf_complete _ _ _ _
  | ttWrite idx table entry =>
    exact orderingOnlyIf_check fun _ => orderingOnlyIf_check fun _ => orderingOnlyIf_complete _ _ _ _
  | ttZero table => exact orderingOnlyIf_check fun _ => orderingOnlyIf_complete _ _ _ _
  | cbAmode idx aw =>
    exact orderingOnlyIf_guard fun admitted => orderingOnlyIf_check fun h => orderingOnlyIf_configStep
      (fun enabled => ⟨⟨idx, h⟩, enabled, .inl ⟨aw, rfl, not_w64Refused_iff.mp admitted⟩⟩)
      (orderingOnlyIf_complete _ _ _ _)
  | cbMattr idx attrs =>
    exact orderingOnlyIf_check fun h => orderingOnlyIf_configStep
      (fun enabled => ⟨⟨idx, h⟩, enabled, .inr (.inl ⟨attrs, rfl⟩)⟩) (orderingOnlyIf_complete _ _ _ _)
  | cbTctrl idx t0sz inner outer sh granule =>
    exact orderingOnlyIf_check fun h => orderingOnlyIf_configStep
      (fun enabled => ⟨⟨idx, h⟩, enabled, .inr (.inr (.inl ⟨t0sz, inner, outer, sh, granule, rfl⟩))⟩)
      (orderingOnlyIf_complete _ _ _ _)
  | cbTbase idx asid base =>
    exact orderingOnlyIf_check fun h => orderingOnlyIf_configStep
      (fun enabled => ⟨⟨idx, h⟩, enabled, .inr (.inr (.inr ⟨asid, base, rfl⟩))⟩)
      (orderingOnlyIf_check fun _ => orderingOnlyIf_complete _ _ _ _)
  | cbEnable idx en fr fi => exact orderingOnlyIf_check fun _ => orderingOnlyIf_complete _ _ _ _
  | smCfg idx valid mask tbu master => exact orderingOnlyIf_check fun _ => orderingOnlyIf_complete _ _ _ _
  | smResetall => exact orderingOnlyIf_complete _ _ _ _
  | s2cCfg idx kind cbndx =>
    exact orderingOnlyIf_guard fun _ => orderingOnlyIf_check fun _ =>
      orderingOnlyIf_guard fun _ => orderingOnlyIf_complete _ _ _ _
  | frSnapg => exact orderingOnlyIf_complete _ _ _ _
  | frSnapc idx => exact orderingOnlyIf_check fun _ => orderingOnlyIf_complete _ _ _ _
  | frClearall => exact orderingOnlyIf_complete _ _ _ _
  | frTlbiall => exact orderingOnlyIf_complete _ _ _ _

/-! ## What an `Enabled` bank answers -/

theorem configStep_of_enabled {i : Fin 16} {s : State} (body : State → Result) (enabled : s.bankState i = .enabled) :
    configStep i s body = .next (failed 3#4 s) :=
  if_pos enabled

theorem execCbAmode_of_enabled {b : Fin 16} {aw : AddrWidth} {s : State} (enabled : s.bankState b = .enabled)
    (admitted : aw = .w32 ∨ s.params.w64Admitted = true) : execCbAmode b.val aw s = .next (failed 3#4 s) := by
  rw [execCbAmode, if_neg (not_w64Refused_iff.mpr admitted), dif_pos b.isLt]
  exact configStep_of_enabled _ enabled

theorem execCbMattr_of_enabled {b : Fin 16} {s : State} (attrs : Word) (enabled : s.bankState b = .enabled) :
    execCbMattr b.val attrs s = .next (failed 3#4 s) := by
  rw [execCbMattr, dif_pos b.isLt]
  exact configStep_of_enabled _ enabled

theorem execCbTctrl_of_enabled {b : Fin 16} {s : State} (t0sz : BitVec 6) (inner outer sh granule : BitVec 2)
    (enabled : s.bankState b = .enabled) :
    execCbTctrl b.val t0sz inner outer sh granule s = .next (failed 3#4 s) := by
  rw [execCbTctrl, dif_pos b.isLt]
  exact configStep_of_enabled _ enabled

theorem execCbTbase_of_enabled {b : Fin 16} {s : State} (asid : BitVec 16) (base : Word)
    (enabled : s.bankState b = .enabled) : execCbTbase b.val asid base s = .next (failed 3#4 s) := by
  rw [execCbTbase, dif_pos b.isLt]
  exact configStep_of_enabled _ enabled

/-- In the situation of R158 the answer is the failure with status 3, and nothing else changes. -/
theorem exec_of_orderingCause {i : Instr} {s : State} (cause : OrderingCause i s) :
    exec i s = .next (failed 3#4 s) := by
  obtain ⟨b, enabled, ⟨aw, rfl, admitted⟩ | ⟨attrs, rfl⟩ | ⟨t0sz, inner, outer, sh, granule, rfl⟩ | ⟨asid, base, rfl⟩⟩ := cause
  · exact execCbAmode_of_enabled enabled admitted
  · exact execCbMattr_of_enabled attrs enabled
  · exact execCbTctrl_of_enabled t0sz inner outer sh granule enabled
  · exact execCbTbase_of_enabled asid base enabled

/-- Settles O36: the status comes from the ordering check alone, and where that check refuses, the whole answer is known. -/
theorem invalidOrderingOnlyWhenEnabled : Obligations.InvalidOrderingOnlyWhenEnabled := by
  unfold Obligations.InvalidOrderingOnlyWhenEnabled
  intro i s
  refine ⟨⟨?onlyThen, ?whenCaused⟩, ?noEffect⟩
  case onlyThen =>
    rintro ⟨t, run, status⟩
    exact exec_orderingOnlyIf i s t run status
  case whenCaused => exact fun cause => ⟨failed 3#4 s, exec_of_orderingCause cause, rfl⟩
  case noEffect =>
    intro t run status
    have answer : exec i s = .next (failed 3#4 s) := exec_of_orderingCause (exec_orderingOnlyIf i s t run status)
    simpa [run] using answer

end Sys2Proof.Machine
end

section
/-! PROOFS. The alignment check of `CB.TBASE` (spec/60_exceptions.md R212), and which command can answer which status
(R219). -/

namespace Sys2Proof.Machine

open Sys2Proof.Claim

/-! ## Which command can answer which status -/

/-- The table of R219 with `OK` added and without its first column: an illegal header is no command. -/
def statusesOf : Op → List Status
  | .sbrI | .sbI | .sbrM | .sbM | .ttBuild | .ttZero => [.ok, .contractViolation]
  | .ttWrite | .s2cCfg => [.ok, .contractViolation, .indexOutOfRange]
  | .cbAmode => [.ok, .contractViolation, .indexOutOfRange, .invalidOrdering]
  | .cbMattr | .cbTctrl => [.ok, .indexOutOfRange, .invalidOrdering]
  | .cbTbase => [.ok, .indexOutOfRange, .invalidOrdering, .misalignedTableBase]
  | .cbEnable | .smCfg | .frSnapc => [.ok, .indexOutOfRange]
  | .smResetall | .frSnapg | .frClearall | .frTlbiall => [.ok]

/-- Whatever next state is answered, its status is one of the list. -/
def StatusIn (l : List Status) (r : Result) : Prop := ∀ t, r = .next t → t.rsp.status ∈ l.map Status.code

theorem statusIn_raise {l : List Status} {st : Status} {s : State} (mem : st ∈ l := by simp [statusesOf, Instr.op]) :
    StatusIn l (raise st s) := by
  rintro t ⟨⟩
  exact List.mem_map_of_mem mem

theorem statusIn_complete {l : List Status} {d0 d1 d2 : Word} {s : State} (mem : .ok ∈ l := by simp [statusesOf, Instr.op]) :
    StatusIn l (complete d0 d1 d2 s) := by
  rintro t ⟨⟩
  exact List.mem_map_of_mem mem

/-- A check before the rest of the command: its own status, or what the branch that passes answers. It serves an `if` that
drops the check's proof as well. -/
theorem statusIn_check {l : List Status} {c : Prop} [Decidable c] {a : c → Result} {st : Status} {s : State}
    (pass : ∀ h, StatusIn l (a h)) (mem : st ∈ l := by simp [statusesOf, Instr.op]) :
    StatusIn l (if h : c then a h else raise st s) := by
  split
  · exact pass _
  · exact statusIn_raise mem

/-- The same for a check written by its failing condition. -/
theorem statusIn_guard {l : List Status} {c : Prop} [Decidable c] {a : Result} {st : Status} {s : State}
    (pass : StatusIn l a) (mem : st ∈ l := by simp [statusesOf, Instr.op]) :
    StatusIn l (if c then raise st s else a) := by
  split
  · exact statusIn_raise mem
  · exact pass

/-- The ordering check of the configuration steps (R152). -/
theorem statusIn_configStep {l : List Status} {i : Fin 16} {s : State} {body : State → Result}
    (pass : StatusIn l (body s)) (mem : .invalidOrdering ∈ l := by simp [statusesOf, Instr.op]) :
    StatusIn l (configStep i s body) :=
  statusIn_guard pass mem

theorem execSbrI_statusIn (sz : SizeCode) (hi lo : Nat) (image value : Word) (s : State) :
    StatusIn [.ok, .contractViolation] (execSbrI sz hi lo image value s) := by
  unfold execSbrI
  split
  · exact statusIn_raise
  · exact statusIn_check fun _ => statusIn_complete

theorem execSbrM_statusIn (sz : SizeCode) (hi lo : Nat) (offset value : Word) (s : State) :
    StatusIn [.ok, .contractViolation] (execSbrM sz hi lo offset value s) := by
  unfold execSbrM
  split
  · exact statusIn_raise
  · exact statusIn_check fun _ => statusIn_complete

/-- R219: a command answers a status of its row. -/
theorem exec_statusIn (i : Instr) (s : State) : StatusIn (statusesOf i.op) (exec i s) := by
  cases i with
  | sbrI sz hi lo image value => exact execSbrI_statusIn sz hi lo image value s
  | sbI sz bit image value => exact execSbrI_statusIn sz bit bit image value s
  | sbrM sz hi lo offset value => exact execSbrM_statusIn sz hi lo offset value s
  | sbM sz bit offset value => exact execSbrM_statusIn sz bit bit offset value s
  | ttBuild aw flags oa => exact statusIn_guard statusIn_complete
  | ttWrite idx table entry => exact statusIn_check fun _ => statusIn_check fun _ => statusIn_complete
  | ttZero table => exact statusIn_check fun _ => statusIn_complete
  | cbAmode idx aw => exact statusIn_guard <| statusIn_check fun _ => statusIn_configStep statusIn_complete
  | cbMattr idx attrs => exact statusIn_check fun _ => statusIn_configStep statusIn_complete
  | cbTctrl idx t0sz inner outer sh granule => exact statusIn_check fun _ => statusIn_configStep statusIn_complete
  | cbTbase idx asid base =>
    exact statusIn_check fun _ => statusIn_configStep <| statusIn_check fun _ => statusIn_complete
  | cbEnable idx en fr fi => exact statusIn_check fun _ => statusIn_complete
  | smCfg idx valid mask tbu master => exact statusIn_check fun _ => statusIn_complete
  | smResetall => exact statusIn_complete
  | s2cCfg idx kind cbndx => exact statusIn_guard <| statusIn_check fun _ => statusIn_guard statusIn_complete
  | frSnapg => exact statusIn_complete
  | frSnapc idx => exact statusIn_check fun _ => statusIn_complete
  | frClearall => exact statusIn_complete
  | frTlbiall => exact statusIn_complete

/-! ## The alignment check -/

/-- R219, last column: one row holds `MisalignedTableBase`. -/
theorem eq_cbTbase_of_misaligned_mem {o : Op} : 2#4 ∈ (statusesOf o).map Status.code → o = .cbTbase := by
  cases o <;> decide

theorem exists_cbTbase_of_op {i : Instr} (h : i.op = .cbTbase) : ∃ idx asid base, i = .cbTbase idx asid base := by
  cases i with
  | cbTbase idx asid base => exact ⟨idx, asid, base, rfl⟩
  | _ => cases h

/-- A base that is a multiple of 4096 passes the check, so the last status of the row is not answered. -/
theorem execCbTbase_statusIn_of_aligned (idx : Nat) (asid : BitVec 16) {base : Word} (s : State)
    (aligned : base.toNat % 4096 = 0) :
    StatusIn [.ok, .indexOutOfRange, .invalidOrdering] (execCbTbase idx asid base s) := by
  refine statusIn_check fun h => statusIn_configStep ?_
  rw [if_pos (show base.toNat % granuleBytes = 0 from aligned)]
  exact statusIn_complete

theorem configStep_of_not_enabled {i : Fin 16} {s : State} (body : State → Result) (free : s.bankState i ≠ .enabled) :
    configStep i s body = body s :=
  if_neg free

/-- R212: with the index in range and the bank not `Enabled`, a misaligned base is refused and nothing is written. -/
theorem execCbTbase_of_misaligned {b : Fin 16} (asid : BitVec 16) {base : Word} {s : State}
    (free : s.bankState b ≠ .enabled) (misaligned : base.toNat % 4096 ≠ 0) :
    execCbTbase b.val asid base s = .next (failed 2#4 s) := by
  rw [execCbTbase, dif_pos b.isLt, configStep_of_not_enabled _ free]
  exact if_neg misaligned

/-- Settles O37: by the table of R219 the command is a `CB.TBASE`, and an aligned base would have passed its check; the
refusal is the check itself, which a bank that is not `Enabled` lets the command reach. -/
theorem misalignedBaseRefused : Obligations.MisalignedBaseRefused := by
  unfold Obligations.MisalignedBaseRefused
  refine ⟨?onlyThen, fun i asid base s free misaligned => execCbTbase_of_misaligned asid free misaligned⟩
  case onlyThen =>
    intro i s t run status
    have mem : 2#4 ∈ (statusesOf i.op).map Status.code := status ▸ exec_statusIn i s t run
    obtain ⟨idx, asid, base, rfl⟩ := exists_cbTbase_of_op (eq_cbTbase_of_misaligned_mem mem)
    refine ⟨idx, asid, base, rfl, fun aligned => ?_⟩
    have passed := execCbTbase_statusIn_of_aligned idx asid s aligned t run
    rw [status] at passed
    exact absurd passed (by decide)

end Sys2Proof.Machine
end

section
/-! PROOFS. The decoder and the encoder: rows, headers and operand words (spec/30_encoding.md R80-R97). -/

namespace Sys2Proof

open Sys2Proof.Machine Sys2Proof.Claim

/-! ## The rows of the opcode map (R92) -/

/-- Settles O2: a header of two rows agrees with both patterns where both masks look, and there the patterns differ. -/
theorem opcodeRowsExclusive : Obligations.OpcodeRowsExclusive := by
  unfold Obligations.OpcodeRowsExclusive
  have apart : ∀ r ∈ opRows, ∀ q ∈ opRows, r.pattern &&& q.mask = q.pattern &&& r.mask → r = q := by decide
  intro cw r q hr hq hcr hcq
  refine apart r hr q hq ?_
  rw [← hcr, ← hcq, BitVec.and_assoc, BitVec.and_assoc, BitVec.and_comm r.mask]

/-- R97 step 1: the row a header selects is the row the decoder takes. -/
theorem opOf_of_selects {r : OpRow} {cw : Header} (mem : r ∈ opRows) (sel : r.selects cw = true) :
    opOf cw = some r.op := by
  have found : (opRows.find? fun q => q.selects cw).isSome := List.find?_isSome.mpr ⟨r, mem, sel⟩
  obtain ⟨q, hq⟩ := Option.isSome_iff_exists.mp found
  have selects : q.selects cw = true := by simpa using List.find?_some hq
  have same : q = r := opcodeRowsExclusive cw q r (List.mem_of_find?_eq_some hq) mem
    (by simpa [OpRow.selects] using selects) (by simpa [OpRow.selects] using sel)
  rw [opOf, hq, same, Option.map_some]

/-- R97 step 2: with its row known, a frame is the command of its fields. -/
theorem decode_of_opOf {f : Frame} {op : Op} (h : opOf f.cw = some op) : decode f = .ok (fieldsOf op f) := by
  simp [decode, h]

/-- R93: a header that no row selects is no command. -/
theorem exists_decode_error {f : Frame} (h : ∀ r ∈ opRows, f.cw &&& r.mask ≠ r.pattern) :
    ∃ e, decode f = .error e := by
  have unselected : opOf f.cw = none := by simpa [opOf, OpRow.selects] using h
  simp only [decode, unselected]
  split
  · exact ⟨_, rfl⟩
  · exact ⟨_, rfl⟩

/-! ## The header's fields read back (R82, R83) -/

@[simp] theorem sz_headerF (op : BitVec 8) (sz : SizeCode) (hi lo : Nat) (a b : Word) :
    Frame.sz ⟨headerF op sz hi lo, a, b⟩ = sz := by
  have code : (headerF op sz hi lo).extractLsb' 22 2 = sz.code := by
    apply BitVec.eq_of_getLsbD_eq
    intro p hp
    rw [BitVec.getLsbD_extractLsb', headerF_getLsbD]
    interval_cases p <;> simp
  rw [Frame.sz, code, sizeOfCode_code]

@[simp] theorem hi_headerF (op : BitVec 8) (sz : SizeCode) (hi lo : Nat) (a b : Word) (fits : hi < 64) :
    Frame.hi ⟨headerF op sz hi lo, a, b⟩ = hi := by
  have bits : (headerF op sz hi lo).extractLsb' 16 6 = BitVec.ofNat 6 hi := by
    apply BitVec.eq_of_getLsbD_eq
    intro p hp
    rw [BitVec.getLsbD_extractLsb', headerF_getLsbD]
    interval_cases p <;> simp
  rw [Frame.hi, bits, BitVec.toNat_ofNat, Nat.mod_eq_of_lt fits]

@[simp] theorem lo_headerF (op : BitVec 8) (sz : SizeCode) (hi lo : Nat) (a b : Word) (fits : lo < 64) :
    Frame.lo ⟨headerF op sz hi lo, a, b⟩ = lo := by
  have bits : (headerF op sz hi lo).extractLsb' 10 6 = BitVec.ofNat 6 lo := by
    apply BitVec.eq_of_getLsbD_eq
    intro p hp
    rw [BitVec.getLsbD_extractLsb', headerF_getLsbD]
    interval_cases p <;> simp
  rw [Frame.lo, bits, BitVec.toNat_ofNat, Nat.mod_eq_of_lt fits]

@[simp] theorem idx_headerX (op : BitVec 8) (fl : BitVec 4) (idx : Nat) (a b : Word) (fits : idx < 1024) :
    Frame.idx ⟨headerX op fl idx, a, b⟩ = idx := by
  have bits : (headerX op fl idx).extractLsb' 0 10 = BitVec.ofNat 10 idx := by
    apply BitVec.eq_of_getLsbD_eq
    intro p hp
    rw [BitVec.getLsbD_extractLsb', headerX_getLsbD, if_pos (by omega)]
    simp [hp]
  rw [Frame.idx, bits, BitVec.toNat_ofNat, Nat.mod_eq_of_lt fits]

theorem fl_headerX (op : BitVec 8) (fl : BitVec 4) (idx k : Nat) (a b : Word) (hk : k < 4) :
    Frame.fl ⟨headerX op fl idx, a, b⟩ k = fl.getLsbD k := by
  rw [Frame.fl, headerX_getLsbD, if_neg (by omega), if_neg (by omega), if_pos (by omega), Nat.add_sub_cancel_left]

/-- R83: the address width in the flags. -/
@[simp] theorem addrWidth_headerX (op : BitVec 8) (aw : AddrWidth) (idx : Nat) (a b : Word) :
    addrWidthOfBit (Frame.fl ⟨headerX op (0#3 ++ flagBit aw.bit) idx, a, b⟩ 0) = aw := by
  rw [fl_headerX _ _ _ _ _ _ (by decide), oneFlag_getLsbD]
  simp

/-- R83: the three flags of `CB.ENABLE`. -/
theorem enableFlags_headerX (op : BitVec 8) (en fr fi : Bool) (idx : Nat) (a b : Word) (f : Frame)
    (hf : f = ⟨headerX op (0#1 ++ (flagBit fi ++ (flagBit fr ++ flagBit en))) idx, a, b⟩) :
    f.fl 0 = en ∧ f.fl 1 = fr ∧ f.fl 2 = fi := by
  subst hf
  refine ⟨?_, ?_, ?_⟩
  all_goals
    rw [fl_headerX _ _ _ _ _ _ (by decide), enableFlags_getLsbD]
    simp

/-- R83: the kind of `S2C.CFG`. -/
theorem kindBits_headerX (op : BitVec 8) (c : BitVec 2) (idx : Nat) :
    (headerX op (0#2 ++ c) idx).extractLsb' 16 2 = c := by
  apply BitVec.eq_of_getLsbD_eq
  intro p hp
  rw [BitVec.getLsbD_extractLsb', headerX_getLsbD, kindFlags_getLsbD]
  interval_cases p <;> simp

/-! ## The operand words read back (R86-R89) -/

open BitVec (extractLsb'_append_eq_of_add_le extractLsb'_append_eq_left extractLsb'_append_eq_right extractLsb'_eq_self)

/-- R86: the five fields of the `OPA` of `CB.TCTRL`. -/
theorem tctrlOperand_fields (t0sz : BitVec 6) (inner outer sh granule : BitVec 2) (w : Word)
    (hw : w = 0#50 ++ (granule ++ (sh ++ (outer ++ (inner ++ t0sz))))) :
    w.extractLsb' 0 6 = t0sz ∧ w.extractLsb' 6 2 = inner ∧ w.extractLsb' 8 2 = outer ∧ w.extractLsb' 10 2 = sh
      ∧ w.extractLsb' 12 2 = granule := by
  subst hw
  refine ⟨?_, ?_, ?_, ?_, ?_⟩
  · iterate 4 rw [extractLsb'_append_eq_of_add_le (by decide)]
    exact extractLsb'_append_eq_right
  · iterate 4 rw [extractLsb'_append_eq_of_add_le (by decide)]
    exact extractLsb'_append_eq_left
  · iterate 3 rw [extractLsb'_append_eq_of_add_le (by decide)]
    exact extractLsb'_append_eq_left
  · iterate 2 rw [extractLsb'_append_eq_of_add_le (by decide)]
    exact extractLsb'_append_eq_left
  · rw [extractLsb'_append_eq_of_add_le (by decide)]
    exact extractLsb'_append_eq_left

/-- R87: the four fields of the `OPA` of `SM.CFG`. -/
theorem smCfgOperand_fields (valid : Bool) (mask : BitVec 16) (tbu : BitVec 5) (master : BitVec 10) (w : Word)
    (hw : w = 0#31 ++ (flagBit valid ++ (mask ++ (0#1 ++ (tbu ++ master))))) :
    w.getLsbD 32 = valid ∧ w.extractLsb' 16 16 = mask ∧ w.extractLsb' 10 5 = tbu ∧ w.extractLsb' 0 10 = master := by
  subst hw
  refine ⟨?_, ?_, ?_, ?_⟩
  · show @BitVec.getLsbD (31 + (1 + (16 + (1 + (5 + 10))))) (0#31 ++ (flagBit valid ++ (mask ++ (0#1 ++ (tbu ++ master))))) 32 = _
    iterate 2 rw [BitVec.getLsbD_append]
    simp [flagBit]
  · iterate 2 rw [extractLsb'_append_eq_of_add_le (by decide)]
    exact extractLsb'_append_eq_left
  · iterate 4 rw [extractLsb'_append_eq_of_add_le (by decide)]
    exact extractLsb'_append_eq_left
  · iterate 4 rw [extractLsb'_append_eq_of_add_le (by decide)]
    exact extractLsb'_append_eq_right

/-! ## Decoding what the encoder writes -/

/-- Every command's header is selected by the command's own row. -/
theorem encode_selects_own_row (i : Instr) : Laws.EncodesOwnRow.Statement i := by
  cases i with
  | sbrI sz hi lo image value => exact Laws.EncodesOwnRow.sbrI sz hi lo image value
  | sbI sz bit image value => exact Laws.EncodesOwnRow.sbI sz bit image value
  | sbrM sz hi lo offset value => exact Laws.EncodesOwnRow.sbrM sz hi lo offset value
  | sbM sz bit offset value => exact Laws.EncodesOwnRow.sbM sz bit offset value
  | ttBuild aw flags oa => exact Laws.EncodesOwnRow.ttBuild aw flags oa
  | ttWrite idx table entry => exact Laws.EncodesOwnRow.ttWrite idx table entry
  | ttZero table => exact Laws.EncodesOwnRow.ttZero table
  | cbAmode idx aw => exact Laws.EncodesOwnRow.cbAmode idx aw
  | cbMattr idx attrs => exact Laws.EncodesOwnRow.cbMattr idx attrs
  | cbTctrl idx t0sz inner outer sh granule =>
    exact Laws.EncodesOwnRow.cbTctrl idx t0sz inner outer sh granule
  | cbTbase idx asid base => exact Laws.EncodesOwnRow.cbTbase idx asid base
  | cbEnable idx en fr fi => exact Laws.EncodesOwnRow.cbEnable idx en fr fi
  | smCfg idx valid mask tbu master => exact Laws.EncodesOwnRow.smCfg idx valid mask tbu master
  | smResetall => exact Laws.EncodesOwnRow.smResetall
  | s2cCfg idx kind cbndx => exact Laws.EncodesOwnRow.s2cCfg idx kind cbndx
  | frSnapg => exact Laws.EncodesOwnRow.frSnapg
  | frSnapc idx => exact Laws.EncodesOwnRow.frSnapc idx
  | frClearall => exact Laws.EncodesOwnRow.frClearall
  | frTlbiall => exact Laws.EncodesOwnRow.frTlbiall

/-- The row of a command's header is the command's. -/
theorem opOf_encode (i : Instr) : opOf (encode i).cw = some i.op := by
  obtain ⟨r, mem, op, sel⟩ := encode_selects_own_row i
  rw [opOf_of_selects mem sel, op]

theorem bitFits_iff {b : Nat} : bitFits b = true ↔ b < 64 := decide_eq_true_iff

theorem idxFits_iff {idx : Nat} : idxFits idx = true ↔ idx < 1024 := decide_eq_true_iff

/-- The fields of the encoder's frame are the command's operands, where the header's fields hold them. -/
theorem fieldsOf_encode (i : Instr) (wf : i.wf = true) : fieldsOf i.op (encode i) = i := by
  cases i with
  | sbrI sz hi lo image value =>
    obtain ⟨hhi, hlo⟩ : hi < 64 ∧ lo < 64 := by simpa [Instr.wf, bitFits_iff] using wf
    simp [Instr.op, encode, fieldsOf, hhi, hlo]
  | sbI sz bit image value =>
    simp [Instr.op, encode, fieldsOf, bitFits_iff.mp wf]
  | sbrM sz hi lo offset value =>
    obtain ⟨hhi, hlo⟩ : hi < 64 ∧ lo < 64 := by simpa [Instr.wf, bitFits_iff] using wf
    simp [Instr.op, encode, fieldsOf, hhi, hlo]
  | sbM sz bit offset value =>
    simp [Instr.op, encode, fieldsOf, bitFits_iff.mp wf]
  | ttBuild aw flags oa => simp [Instr.op, encode, fieldsOf]
  | ttWrite idx table entry => simp [Instr.op, encode, fieldsOf, idxFits_iff.mp wf]
  | ttZero table => rfl
  | cbAmode idx aw => simp [Instr.op, encode, fieldsOf, idxFits_iff.mp wf]
  | cbMattr idx attrs => simp [Instr.op, encode, fieldsOf, idxFits_iff.mp wf]
  | cbTctrl idx t0sz inner outer sh granule =>
    obtain ⟨h0, h1, h2, h3, h4⟩ := tctrlOperand_fields t0sz inner outer sh granule _ rfl
    simp only [Instr.op, encode, fieldsOf, idx_headerX, idxFits_iff.mp wf, h0, h1, h2, h3, h4]
  | cbTbase idx asid base =>
    have hasid : (0#48 ++ asid : Word).extractLsb' 0 16 = asid := extractLsb'_append_eq_right
    simp only [Instr.op, encode, fieldsOf, idx_headerX, idxFits_iff.mp wf, hasid]
  | cbEnable idx en fr fi =>
    obtain ⟨h0, h1, h2⟩ := enableFlags_headerX 0x34#8 en fr fi idx 0#64 0#64 _ rfl
    simp only [Instr.op, encode, fieldsOf, idx_headerX, idxFits_iff.mp wf, h0, h1, h2]
  | smCfg idx valid mask tbu master =>
    obtain ⟨h0, h1, h2, h3⟩ := smCfgOperand_fields valid mask tbu master _ rfl
    simp only [Instr.op, encode, fieldsOf, idx_headerX, idxFits_iff.mp wf, h0, h1, h2, h3]
  | smResetall => rfl
  | s2cCfg idx kind cbndx =>
    have hcbndx : (0#56 ++ cbndx : Word).extractLsb' 0 8 = cbndx := extractLsb'_append_eq_right
    simp only [Instr.op, encode, fieldsOf, idx_headerX, idxFits_iff.mp wf, kindBits_headerX,
      kindOfCode_code, hcbndx]
  | frSnapg => rfl
  | frSnapc idx => simp [Instr.op, encode, fieldsOf, idxFits_iff.mp wf]
  | frClearall => rfl
  | frTlbiall => rfl

/-- Settles O1: the header selects the command's own row, no other, and the fields of that row read the operands back. -/
theorem decodeInvertsEncode : Obligations.DecodeInvertsEncode := by
  unfold Obligations.DecodeInvertsEncode
  intro i wf
  rw [decode_of_opOf (opOf_encode i), fieldsOf_encode i wf]

/-- Settles O4: the decoder runs on the thirteen frames. -/
theorem sampleFramesDecode : Obligations.SampleFramesDecode := by
  unfold Obligations.SampleFramesDecode
  decide

end Sys2Proof
end

section
/-! PROOFS. What a command can answer, said once: the failure that comes first in the spec's order, or the effect of the
command (spec/60_exceptions.md R211-R218). -/

namespace Sys2Proof.Machine

open Sys2Proof.Claim

/-! ## The state each command leaves when all its checks pass -/

/-- R116: the state a mapped update leaves. -/
def mappedState (n hi lo : Nat) (offset value : Word) (s : State) : State :=
  (s.afterMappedRead (mappedAddr s offset) (n / 8)).mappedWrite (mappedAddr s offset) (n / 8)
    (insertAt n (s.mappedValue (mappedAddr s offset) (n / 8)) hi lo value.toNat)

/-- R136: the state the four writes of `TT.ZERO` leave. -/
def zeroedState (table : Word) (s : State) : State :=
  (((s.memWrite (entryAddr table 0) 0#64).memWrite (entryAddr table 1) 0#64).memWrite (entryAddr table 2) 0#64).memWrite
    (entryAddr table 3) 0#64

/-- R153. -/
def amodeState (b : Fin 16) (aw : AddrWidth) (s : State) : State :=
  ((s.rmw (.cba2r b) (amodeImage s.params.field aw)).setBankAw b aw).setBankState b .addressModeSet

/-- R154. -/
def mattrState (b : Fin 16) (attrTable : Word) (s : State) : State :=
  ((s.regWrite (.cbAttr0 b) (low 32 attrTable)).regWrite (.cbAttr1 b) (attrTable >>> 32)).setBankState b .attributesSet

/-- R155. -/
def tctrlState (b : Fin 16) (t0sz : BitVec 6) (inner outer sh granule : BitVec 2) (s : State) : State :=
  (s.rmw (.cbTcr b) (tctrlImage s.params.field t0sz inner outer sh granule)).setBankState b .translationControlSet

/-- R156. -/
def tbaseState (b : Fin 16) (asid : BitVec 16) (base : Word) (s : State) : State :=
  (s.rmw (.cbTtbr b) (tbaseImage s.params.field (s.bankAw b) asid base)).setBankState b .tableBaseSet

/-- R157. -/
def enableState (b : Fin 16) (en fr fi : Bool) (s : State) : State :=
  (s.rmw (.cbCtrl b) (enableImage s.params.field en fr fi)).setBankState b (if en then .enabled else .disabled)

/-- R196: the state the three reads of `FR.SNAPC` leave. -/
def snapcState (b : Fin 16) (s : State) : State :=
  ((s.afterRead (.cbFsr b)).afterRead (.cbFar b)).afterRead (.cbFsynr b)

/-- The state a command leaves, its response aside, when it passes all its checks; with what the checks make sure of. -/
inductive Effect (s : State) : Instr → State → Prop where
  | sbrI (sz : SizeCode) (hi lo : Nat) (image value : Word) : Effect s (.sbrI sz hi lo image value) s
  | sbI (sz : SizeCode) (bit : Nat) (image value : Word) : Effect s (.sbI sz bit image value) s
  | sbrM {sz : SizeCode} {n hi lo : Nat} (offset value : Word) (width : HasWidth sz n)
      (aligned : offset.toNat % (n / 8) = 0) :
      Effect s (.sbrM sz hi lo offset value) (mappedState n hi lo offset value s)
  | sbM {sz : SizeCode} {n bit : Nat} (offset value : Word) (width : HasWidth sz n)
      (aligned : offset.toNat % (n / 8) = 0) :
      Effect s (.sbM sz bit offset value) (mappedState n bit bit offset value s)
  | ttBuild (aw : AddrWidth) (flags oa : Word) : Effect s (.ttBuild aw flags oa) s
  | ttWrite {idx : Nat} {table : Word} (entry : Word) (inTable : idx < 4) (aligned : table.toNat % 8 = 0)
      (room : table.toNat ≤ 2 ^ 64 - 32) : Effect s (.ttWrite idx table entry) (s.memWrite (entryAddr table idx) entry)
  | ttZero {table : Word} (aligned : table.toNat % 8 = 0) (room : table.toNat ≤ 2 ^ 64 - 32) :
      Effect s (.ttZero table) (zeroedState table s)
  | cbAmode (b : Fin 16) (aw : AddrWidth) (free : s.bankState b ≠ .enabled) : Effect s (.cbAmode b.val aw) (amodeState b aw s)
  | cbMattr (b : Fin 16) (attrs : Word) (free : s.bankState b ≠ .enabled) : Effect s (.cbMattr b.val attrs) (mattrState b attrs s)
  | cbTctrl (b : Fin 16) (t0sz : BitVec 6) (inner outer sh granule : BitVec 2) (free : s.bankState b ≠ .enabled) :
      Effect s (.cbTctrl b.val t0sz inner outer sh granule) (tctrlState b t0sz inner outer sh granule s)
  | cbTbase (b : Fin 16) (asid : BitVec 16) (base : Word) (free : s.bankState b ≠ .enabled) :
      Effect s (.cbTbase b.val asid base) (tbaseState b asid base s)
  | cbEnable (b : Fin 16) (en fr fi : Bool) : Effect s (.cbEnable b.val en fr fi) (enableState b en fr fi s)
  | smCfg (i : Fin 48) (valid : Bool) (mask : BitVec 16) (tbu : BitVec 5) (master : BitVec 10) :
      Effect s (.smCfg i.val valid mask tbu master) (s.regWrite (.smr i) (smrImage valid mask tbu master))
  | smResetall : Effect s .smResetall (s.writeAll ((indices 48).map RegRef.smr) 0#64)
  | s2cCfg (i : Fin 48) (kind : StreamKind) (cbndx : BitVec 8) :
      Effect s (.s2cCfg i.val kind cbndx) (s.rmw (.s2cr i) (s2crImage s.params.field kind cbndx))
  | frSnapg : Effect s .frSnapg ((s.afterRead .gfsr).afterRead .gfar)
  | frSnapc (b : Fin 16) : Effect s (.frSnapc b.val) (snapcState b s)
  | frClearall : Effect s .frClearall (s.writeAll clearOrder (BitVec.allOnes 64))
  | frTlbiall : Effect s .frTlbiall (s.writeAll [.tlbiS, .tlbiNs] 0#64)

/-! ## The response of a success -/

/-- R101: the state with the response of a success. -/
def State.answered (u : State) (d0 d1 d2 : Word) : State := { u with rsp := ⟨0#4, d0, d1, d2⟩ }

theorem complete_answered (d0 d1 d2 : Word) (u : State) : complete d0 d1 d2 u = .next (u.answered d0 d1 d2) := rfl

section
variable (u : State) (d0 d1 d2 : Word)

/-! What the response of a success leaves alone. -/

@[simp] theorem answered_rsp : (u.answered d0 d1 d2).rsp = ⟨0#4, d0, d1, d2⟩ := rfl
@[simp] theorem answered_regs : (u.answered d0 d1 d2).regs = u.regs := rfl
@[simp] theorem answered_tableMem : (u.answered d0 d1 d2).tableMem = u.tableMem := rfl
@[simp] theorem answered_tlb : (u.answered d0 d1 d2).tlb = u.tlb := rfl
@[simp] theorem answered_trace : (u.answered d0 d1 d2).trace = u.trace := rfl
@[simp] theorem answered_envTick : (u.answered d0 d1 d2).envTick = u.envTick := rfl
@[simp] theorem answered_params : (u.answered d0 d1 d2).params = u.params := rfl
@[simp] theorem answered_bankState (b : Fin 16) : (u.answered d0 d1 d2).bankState b = u.bankState b := rfl
@[simp] theorem answered_bankAw (b : Fin 16) : (u.answered d0 d1 d2).bankAw b = u.bankAw b := rfl

end

theorem sameBanks_answered {s u : State} (banks : SameBanks s u) (d0 d1 d2 : Word) : SameBanks s (u.answered d0 d1 d2) :=
  banks

theorem sameHost_answered {s u : State} (host : SameHost s u) (d0 d1 d2 : Word) : SameHost s (u.answered d0 d1 d2) :=
  ⟨host.cw, host.opa, host.opb, host.program, host.position, host.params⟩

/-! ## The equation of each command that completes -/

theorem tableAddrOk_iff {t : Word} : tableAddrOk t = true ↔ t.toNat % 8 = 0 ∧ t.toNat ≤ 2 ^ 64 - 32 := by
  simp [tableAddrOk]

theorem tableBroken_eq (t : Word) : tableBroken t = !tableAddrOk t := by
  by_cases h : t.toNat % 8 = 0 <;> simp [tableBroken, tableAddrOk, h, bne, ← decide_not]

theorem execTtWrite_of_ok {idx : Nat} {table : Word} (entry : Word) (s : State) (aligned : table.toNat % 8 = 0)
    (room : table.toNat ≤ 2 ^ 64 - 32) (inTable : idx < 4) :
    execTtWrite idx table entry s = .next ((s.memWrite (entryAddr table idx) entry).answered 0#64 0#64 0#64) := by
  rw [execTtWrite, if_pos (tableAddrOk_iff.mpr ⟨aligned, room⟩), if_pos inTable]
  rfl

theorem execTtZero_of_ok {table : Word} (s : State) (aligned : table.toNat % 8 = 0) (room : table.toNat ≤ 2 ^ 64 - 32) :
    execTtZero table s = .next ((zeroedState table s).answered 0#64 0#64 0#64) :=
  if_pos (tableAddrOk_iff.mpr ⟨aligned, room⟩)

theorem execTtBuild_of_ok {aw : AddrWidth} (flags oa : Word) {s : State} (admitted : aw = .w32 ∨ s.params.w64Admitted = true) :
    execTtBuild aw flags oa s = .next (s.answered (buildEntry s.params.template aw flags oa) 0#64 0#64) :=
  if_neg (not_w64Refused_iff.mpr admitted)

theorem execCbAmode_of_ok {b : Fin 16} {aw : AddrWidth} {s : State} (admitted : aw = .w32 ∨ s.params.w64Admitted = true)
    (free : s.bankState b ≠ .enabled) :
    execCbAmode b.val aw s = .next ((amodeState b aw s).answered 0#64 0#64 0#64) := by
  rw [execCbAmode, if_neg (not_w64Refused_iff.mpr admitted), dif_pos b.isLt, configStep_of_not_enabled _ free]
  rfl

theorem execCbMattr_of_ok {b : Fin 16} (attrs : Word) {s : State} (free : s.bankState b ≠ .enabled) :
    execCbMattr b.val attrs s = .next ((mattrState b attrs s).answered 0#64 0#64 0#64) := by
  rw [execCbMattr, dif_pos b.isLt, configStep_of_not_enabled _ free]
  rfl

theorem execCbTctrl_of_ok {b : Fin 16} (t0sz : BitVec 6) (inner outer sh granule : BitVec 2) {s : State}
    (free : s.bankState b ≠ .enabled) :
    execCbTctrl b.val t0sz inner outer sh granule s
      = .next ((tctrlState b t0sz inner outer sh granule s).answered 0#64 0#64 0#64) := by
  rw [execCbTctrl, dif_pos b.isLt, configStep_of_not_enabled _ free]
  rfl

theorem execCbTbase_of_ok {b : Fin 16} (asid : BitVec 16) {base : Word} {s : State} (free : s.bankState b ≠ .enabled)
    (aligned : base.toNat % 4096 = 0) :
    execCbTbase b.val asid base s = .next ((tbaseState b asid base s).answered 0#64 0#64 0#64) := by
  rw [execCbTbase, dif_pos b.isLt, configStep_of_not_enabled _ free, if_pos (show base.toNat % granuleBytes = 0 from aligned)]
  rfl

theorem execCbEnable_of_ok (b : Fin 16) (en fr fi : Bool) (s : State) :
    execCbEnable b.val en fr fi s = .next ((enableState b en fr fi s).answered 0#64 0#64 0#64) :=
  dif_pos b.isLt

theorem execSmCfg_of_ok (i : Fin 48) (valid : Bool) (mask : BitVec 16) (tbu : BitVec 5) (master : BitVec 10) (s : State) :
    execSmCfg i.val valid mask tbu master s
      = .next ((s.regWrite (.smr i) (smrImage valid mask tbu master)).answered 0#64 0#64 0#64) :=
  dif_pos i.isLt

theorem execS2cCfg_of_ok (i : Fin 48) {kind : StreamKind} {cbndx : BitVec 8} (s : State) (known : kind ≠ .reserved)
    (inRange : kind = .translate → cbndx.toNat < 16) :
    execS2cCfg i.val kind cbndx s
      = .next ((s.rmw (.s2cr i) (s2crImage s.params.field kind cbndx)).answered 0#64 0#64 0#64) := by
  have bankOk : ¬ (kind = .translate ∧ 15 < cbndx.toNat) := fun ⟨h, beyond⟩ => by have := inRange h; omega
  rw [execS2cCfg, if_neg known, dif_pos i.isLt, if_neg bankOk]
  rfl

theorem execFrSnapc_of_ok (b : Fin 16) (s : State) :
    execFrSnapc b.val s = .next ((snapcState b s).answered (s.readValue (.cbFsr b))
      ((s.afterRead (.cbFsr b)).readValue (.cbFar b)) (((s.afterRead (.cbFsr b)).afterRead (.cbFar b)).readValue (.cbFsynr b))) :=
  dif_pos b.isLt

/-! ## The verdict on a command -/

/-- R216, R218: a command that some check fails answers the first failure and leaves the state; one that passes them all
completes with its effect. -/
inductive Verdict (s : State) (i : Instr) (r : Result) : Prop where
  | fails (broken : expectedStatus s i ≠ 0#4) (answer : r = .next (failed (expectedStatus s i) s))
  | completes (fine : expectedStatus s i = 0#4) (d0 d1 d2 : Word) (u : State) (answer : r = complete d0 d1 d2 u)
      (effect : Effect s i u)

theorem Verdict.of_raise {s : State} {i : Instr} {st : Status} (first : expectedStatus s i = st.code)
    (ne : st.code ≠ 0#4 := by decide) : Verdict s i (raise st s) :=
  .fails (first ▸ ne) (by rw [first]; rfl)

theorem offsetBroken_of_hasWidth {sz : SizeCode} {n : Nat} (w : HasWidth sz n) (offset : Word) :
    offsetBroken sz offset = !offsetAligned n offset := by
  obtain ⟨rfl, rfl⟩ | ⟨rfl, rfl⟩ | ⟨rfl, rfl⟩ := w <;> rfl

/-- R85: only the reserved size code has no width. -/
theorem eq_reserved_of_widthOf {sz : SizeCode} (w : widthOf sz = none) : sz = .reserved := by
  cases sz with
  | reserved => rfl
  | _ => cases w

/-- R113, R114: the range command of the accessor on an image, for the two commands that are it. -/
theorem execSbrI_verdict {sz : SizeCode} {hi lo : Nat} {image value : Word} {s : State} {i : Instr}
    (status : expectedStatus s i = if rangeBroken sz hi lo then 5#4 else 0#4) (effect : Effect s i s) :
    Verdict s i (execSbrI sz hi lo image value s) := by
  unfold execSbrI
  split
  · next w => exact .of_raise (by obtain rfl := eq_reserved_of_widthOf w; exact status)
  · next n w =>
    rw [rangeBroken_of_hasWidth (widthOf_eq_some.mp w)] at status
    split
    · next ok => exact .completes (by simpa [ok] using status) _ _ _ _ rfl effect
    · next bad => exact .of_raise (by simpa [bad, Status.code] using status)

/-- R58, R113, R116: the range command of the accessor on a mapped register. -/
theorem execSbrM_verdict {sz : SizeCode} {hi lo : Nat} {offset value : Word} {s : State} {i : Instr}
    (status : expectedStatus s i = if rangeBroken sz hi lo || offsetBroken sz offset then 5#4 else 0#4)
    (effect : ∀ n, HasWidth sz n → offset.toNat % (n / 8) = 0 → Effect s i (mappedState n hi lo offset value s)) :
    Verdict s i (execSbrM sz hi lo offset value s) := by
  unfold execSbrM
  split
  · next w => exact .of_raise (by obtain rfl := eq_reserved_of_widthOf w; exact status)
  · next n w =>
    have width := widthOf_eq_some.mp w
    rw [rangeBroken_of_hasWidth width, offsetBroken_of_hasWidth width, ← Bool.not_and] at status
    split
    · next ok =>
      have aligned : offset.toNat % (n / 8) = 0 := by simpa [offsetAligned] using (Bool.and_eq_true_iff.mp ok).2
      exact .completes (by simpa [ok] using status) _ _ _ _ rfl (effect n width aligned)
    · next bad => exact .of_raise (by simpa [bad, Status.code] using status)

theorem bankIsEnabled_iff {s : State} {b : Fin 16} : bankIsEnabled s b.val = true ↔ s.bankState b = .enabled := by
  simp [bankIsEnabled]

/-- A check before the rest of the command, and the status of the commands that fail it. -/
theorem verdict_check {s : State} {i : Instr} {c : Prop} [Decidable c] {a : c → Result} {st : Status}
    (fail : ¬ c → expectedStatus s i = st.code) (pass : ∀ h, Verdict s i (a h)) (ne : st.code ≠ 0#4 := by decide) :
    Verdict s i (if h : c then a h else raise st s) := by
  split
  · exact pass _
  · exact .of_raise (fail ‹_›) ne

/-- The same for a check written by its failing condition. -/
theorem verdict_guard {s : State} {i : Instr} {c : Prop} [Decidable c] {a : Result} {st : Status}
    (fail : c → expectedStatus s i = st.code) (pass : ¬ c → Verdict s i a) (ne : st.code ≠ 0#4 := by decide) :
    Verdict s i (if c then raise st s else a) := by
  split
  · exact .of_raise (fail ‹_›) ne
  · exact pass ‹_›

/-- The last step of a command that has passed its checks. -/
theorem verdict_complete {s : State} {i : Instr} {d0 d1 d2 : Word} {u : State} (fine : expectedStatus s i = 0#4)
    (effect : Effect s i u) : Verdict s i (complete d0 d1 d2 u) :=
  .completes fine _ _ _ _ rfl effect

section
variable {s : State} {i : Instr}

/-! The order of R218: each failure, when none before it applies. -/

theorem status_of_contract (contract : contractBroken s.params i = true) : expectedStatus s i = 5#4 := by
  simp [expectedStatus, contract]

theorem status_of_index (contract : contractBroken s.params i = false) (index : indexBroken i = true) :
    expectedStatus s i = 1#4 := by
  simp [expectedStatus, contract, index]

theorem status_of_ordering (contract : contractBroken s.params i = false) (index : indexBroken i = false)
    (ordering : orderingBroken s i = true) : expectedStatus s i = 3#4 := by
  simp [expectedStatus, contract, index, ordering]

theorem status_of_base (contract : contractBroken s.params i = false) (index : indexBroken i = false)
    (ordering : orderingBroken s i = false) (base : baseMisaligned i = true) : expectedStatus s i = 2#4 := by
  simp [expectedStatus, contract, index, ordering, base]

theorem status_of_none (contract : contractBroken s.params i = false) (index : indexBroken i = false)
    (ordering : orderingBroken s i = false) (base : baseMisaligned i = false) : expectedStatus s i = 0#4 := by
  simp [expectedStatus, contract, index, ordering, base]

end

/-- The commands whose one check is the range of an index (R211). -/
theorem verdict_indexed {s : State} {i : Instr} {n : Nat} (idx : Nat) {a : idx < n → Result}
    (contract : contractBroken s.params i = false) (ordering : orderingBroken s i = false) (base : baseMisaligned i = false)
    (index : indexBroken i = decide (n ≤ idx))
    (pass : expectedStatus s i = 0#4 → ∀ h, Verdict s i (a h)) :
    Verdict s i (if h : idx < n then a h else raise .indexOutOfRange s) :=
  verdict_check (fun out => status_of_index contract (by simpa [index] using out)) fun h =>
    pass (status_of_none contract (by simpa [index] using h) ordering base) h

/-- The configuration steps (R152): after the width guard the index, then the ordering, then what is left of the command. -/
theorem verdict_configStep {s : State} {i : Instr} (idx : Nat) {body : (h : idx < 16) → State → Result}
    (contract : contractBroken s.params i = false) (index : indexBroken i = decide (16 ≤ idx))
    (ordering : orderingBroken s i = bankIsEnabled s idx)
    (pass : ∀ h : idx < 16, s.bankState ⟨idx, h⟩ ≠ .enabled → indexBroken i = false → orderingBroken s i = false →
      Verdict s i (body h s)) :
    Verdict s i (if h : idx < 16 then configStep ⟨idx, h⟩ s (body h) else raise .indexOutOfRange s) := by
  refine verdict_check (fun out => status_of_index contract (by simpa [index] using out)) fun h => ?_
  have inRange : indexBroken i = false := by simpa [index] using h
  refine verdict_guard (fun enabled => status_of_ordering contract inRange ?_) fun free => pass h free inRange ?_
  · rw [ordering, bankIsEnabled_iff (b := ⟨idx, h⟩)]
    exact enabled
  · rw [ordering, Bool.eq_false_iff, Ne, bankIsEnabled_iff (b := ⟨idx, h⟩)]
    exact free

/-- Every command: its checks stand in the order of R218. -/
theorem exec_verdict (i : Instr) (s : State) : Verdict s i (exec i s) := by
  cases i with
  | sbrI sz hi lo image value => exact execSbrI_verdict rfl (.sbrI _ _ _ _ _)
  | sbI sz bit image value => exact execSbrI_verdict (i := .sbI sz bit image value) rfl (.sbI _ _ _ _)
  | sbrM sz hi lo offset value => exact execSbrM_verdict rfl fun n => .sbrM _ _
  | sbM sz bit offset value => exact execSbrM_verdict (i := .sbM sz bit offset value) rfl fun n => .sbM _ _
  | ttBuild aw flags oa =>
    exact verdict_guard (fun refused => status_of_contract refused) fun admitted =>
      verdict_complete (if_neg admitted) (.ttBuild _ _ _)
  | ttWrite idx table entry =>
    refine verdict_check (fun bad => status_of_contract ?_) fun ok => ?_
    · simpa [contractBroken, tableBroken_eq] using bad
    · have contract : contractBroken s.params (.ttWrite idx table entry) = false := by
        simp [contractBroken, tableBroken_eq, ok]
      exact verdict_indexed idx contract rfl rfl rfl fun fine inTable =>
        verdict_complete fine (.ttWrite _ inTable (tableAddrOk_iff.mp ok).1 (tableAddrOk_iff.mp ok).2)
  | ttZero table =>
    refine verdict_check (fun bad => status_of_contract ?_) fun ok => ?_
    · simpa [contractBroken, tableBroken_eq] using bad
    · have contract : contractBroken s.params (.ttZero table) = false := by simp [contractBroken, tableBroken_eq, ok]
      exact verdict_complete (status_of_none contract rfl rfl rfl)
        (.ttZero (tableAddrOk_iff.mp ok).1 (tableAddrOk_iff.mp ok).2)
  | cbAmode idx aw =>
    exact verdict_guard (fun refused => status_of_contract refused) fun admitted =>
      have contract : contractBroken s.params (.cbAmode idx aw) = false := Bool.eq_false_iff.mpr admitted
      verdict_configStep idx contract rfl rfl fun h free index ordering =>
        verdict_complete (status_of_none contract index ordering rfl) (.cbAmode ⟨idx, h⟩ aw free)
  | cbMattr idx attrs =>
    exact verdict_configStep idx rfl rfl rfl fun h free index ordering =>
      verdict_complete (status_of_none rfl index ordering rfl) (.cbMattr ⟨idx, h⟩ attrs free)
  | cbTctrl idx t0sz inner outer sh granule =>
    exact verdict_configStep idx rfl rfl rfl fun h free index ordering =>
      verdict_complete (status_of_none rfl index ordering rfl) (.cbTctrl ⟨idx, h⟩ t0sz inner outer sh granule free)
  | cbTbase idx asid base =>
    exact verdict_configStep idx rfl rfl rfl fun h free index ordering =>
      verdict_check (fun bad => status_of_base rfl index ordering (by simpa [baseMisaligned, granuleBytes] using bad))
        fun aligned =>
          verdict_complete (status_of_none rfl index ordering (by simpa [baseMisaligned, granuleBytes] using aligned))
            (.cbTbase ⟨idx, h⟩ asid base free)
  | cbEnable idx en fr fi =>
    exact verdict_indexed idx rfl rfl rfl rfl fun fine h => verdict_complete fine (.cbEnable ⟨idx, h⟩ en fr fi)
  | smCfg idx valid mask tbu master =>
    exact verdict_indexed idx rfl rfl rfl rfl fun fine h => verdict_complete fine (.smCfg ⟨idx, h⟩ valid mask tbu master)
  | smResetall => exact verdict_complete rfl .smResetall
  | s2cCfg idx kind cbndx =>
    refine verdict_guard (fun reserved => status_of_contract (by simpa [contractBroken] using reserved)) fun known => ?_
    have contract : contractBroken s.params (.s2cCfg idx kind cbndx) = false := by simpa [contractBroken] using known
    have index : indexBroken (.s2cCfg idx kind cbndx) =
        (decide (48 ≤ idx) || decide (kind = .translate ∧ 15 < cbndx.toNat)) := by
      cases kind <;> simp [indexBroken, Nat.succ_le_iff]
    refine verdict_check (fun out => status_of_index contract ?_) fun h =>
      verdict_guard (fun beyond => status_of_index contract ?_) fun inRange =>
        verdict_complete (status_of_none contract ?_ rfl rfl) (.s2cCfg ⟨idx, h⟩ kind cbndx)
    · rw [index, decide_eq_true (Nat.le_of_not_lt out), Bool.true_or]
    · rw [index, decide_eq_true beyond, Bool.or_true]
    · rw [index, decide_eq_false (Nat.not_le_of_lt h), decide_eq_false inRange, Bool.or_false]
  | frSnapg => exact verdict_complete rfl .frSnapg
  | frSnapc idx =>
    exact verdict_indexed idx rfl rfl rfl rfl fun fine h => verdict_complete fine (.frSnapc ⟨idx, h⟩)
  | frClearall => exact verdict_complete rfl .frClearall
  | frTlbiall => exact verdict_complete rfl .frTlbiall

end Sys2Proof.Machine
end

section
/-! PROOFS. What holds of every command and every step: status, failure, accesses, the host's side and the sequencer's
state (spec/60_exceptions.md R216-R220, spec/20_memory.md R60, spec/10_state.md R20-R25). -/

namespace Sys2Proof.Machine

open Sys2Proof.Claim

/-! ## The answer of a command, inverted -/

/-- Settles O51: the verdict names the status. -/
theorem statusFollowsPriority : Obligations.StatusFollowsPriority := by
  unfold Obligations.StatusFollowsPriority
  intro i s
  cases exec_verdict i s with
  | fails broken answer => exact ⟨_, answer, rfl⟩
  | completes fine d0 d1 d2 u answer effect => exact ⟨_, answer, fine.symm⟩

theorem exec_status {i : Instr} {s t : State} (run : exec i s = .next t) : t.rsp.status = expectedStatus s i := by
  obtain ⟨u, answer, status⟩ := statusFollowsPriority i s
  obtain rfl : t = u := by simpa [run] using answer
  exact status

/-- R216: a command that fails changes the response only. -/
theorem exec_failed {i : Instr} {s t : State} (run : exec i s = .next t) (bad : t.rsp.status ≠ 0#4) :
    t = failed t.rsp.status s := by
  rw [exec_status run] at bad ⊢
  cases exec_verdict i s with
  | fails broken answer => simpa [run] using answer
  | completes fine d0 d1 d2 u answer effect => exact absurd fine bad

/-- A command that succeeds leaves its effect, and the response. -/
theorem exec_effect {i : Instr} {s t : State} (run : exec i s = .next t) (ok : t.rsp.status = 0#4) :
    ∃ (d0 d1 d2 : Word) (u : State), Effect s i u ∧ t = u.answered d0 d1 d2 := by
  rw [exec_status run] at ok
  cases exec_verdict i s with
  | fails broken answer => exact absurd ok broken
  | completes fine d0 d1 d2 u answer effect =>
    exact ⟨d0, d1, d2, u, effect, by simpa [run, complete_answered] using answer⟩

/-! ## The step, inverted -/

/-- A command that the host issues answers a next state, and the step is that state moved on. -/
theorem exists_step_of_some {s : State} {c : HostCommand} (issued : s.nextCommand = some c) :
    ∃ u, runLoaded (s.load c) = .next u ∧ step s = .next (u.advance c).smmuActs := by
  obtain ⟨u, run, -⟩ := (runLoaded_answers (s.load c)).exists_next
  exact ⟨u, run, step_of_run s u c issued run⟩

/-- A step waits, or runs the command that the host issues. -/
theorem step_cases {s t : State} (stepped : step s = .next t) :
    (s.nextCommand = none ∧ t = s.smmuActs)
      ∨ ∃ c u, s.nextCommand = some c ∧ runLoaded (s.load c) = .next u ∧ t = (u.advance c).smmuActs := by
  cases issued : s.nextCommand with
  | none => exact .inl ⟨rfl, by simpa [step_of_none s issued] using stepped.symm⟩
  | some c =>
    obtain ⟨u, run, answer⟩ := exists_step_of_some issued
    exact .inr ⟨c, u, rfl, run, by simpa [answer] using stepped.symm⟩

/-- What the command registers hold runs as a command, or is answered `IllegalCommand` (R93, R217). -/
theorem runLoaded_cases {s u : State} (run : runLoaded s = .next u) :
    (∃ i, decode s.frame = .ok i ∧ exec i s = .next u) ∨ u = failed 6#4 s := by
  cases decoded : decode s.frame with
  | ok i => exact .inl ⟨i, rfl, by rwa [runLoaded_of_ok s i decoded] at run⟩
  | error e =>
    rw [runLoaded_of_error s e decoded, raise_eq] at run
    exact .inr (by simpa [failed, Status.code] using run.symm)

/-- Settles O8: with nothing to issue the step is the SMMU's move, else the issued command answers. -/
theorem everyStepGoesOn : Obligations.EveryStepGoesOn := by
  unfold Obligations.EveryStepGoesOn
  intro s
  cases issued : s.nextCommand with
  | none => exact ⟨_, step_of_none s issued⟩
  | some c =>
    obtain ⟨u, -, answer⟩ := exists_step_of_some issued
    exact ⟨_, answer⟩

/-- Settles O5: the equation of a step whose command decodes, with the host's move written out. -/
theorem stepRunsDecodedCommand : Obligations.StepRunsDecodedCommand := by
  unfold Obligations.StepRunsDecodedCommand
  intro s t c i issued decoded run
  have loaded : runLoaded (s.load c) = .next t := (runLoaded_of_ok (s.load c) i decoded).trans run
  rw [step_of_run s t c issued loaded]
  simp [State.advance, Status.code]

/-- Settles O6: no row selects the header, so the loaded state is answered `IllegalCommand`; the second part reads the
opcode byte, which every row's mask covers. -/
theorem illegalHeaderAnswered : Obligations.IllegalHeaderAnswered := by
  unfold Obligations.IllegalHeaderAnswered
  constructor
  · intro s c issued unselected
    obtain ⟨e, refused⟩ := exists_decode_error (f := (s.load c).frame) unselected
    have loaded := (runLoaded_of_error (s.load c) e refused).trans (raise_eq _ _)
    rw [step_of_run s _ c issued loaded]
    simp [State.advance, State.load, Status.code]
  · have opcodes : ∀ r ∈ opRows, r.mask.extractLsb' 24 8 = BitVec.allOnes 8 ∧ r.pattern.extractLsb' 24 8 ∈
        [0x10#8, 0x11#8, 0x12#8, 0x13#8, 0x20#8, 0x21#8, 0x22#8, 0x30#8, 0x31#8, 0x32#8,
          0x33#8, 0x34#8, 0x40#8, 0x41#8, 0x48#8, 0x50#8, 0x51#8, 0x52#8, 0x53#8] := by decide
    intro cw unlisted r mem selected
    obtain ⟨whole, listed⟩ := opcodes r mem
    rw [← selected, BitVec.extractLsb'_and, whole, BitVec.and_allOnes] at listed
    exact unlisted listed

/-- Settles O52: for the step, the failure of the loaded state is moved on by the host and then by the SMMU. -/
theorem failureHasNoEffect : Obligations.FailureHasNoEffect := by
  unfold Obligations.FailureHasNoEffect
  refine ⟨fun i s t run bad => exec_failed run bad, ?_⟩
  intro s t c issued stepped bad
  obtain ⟨u, run, answer⟩ := exists_step_of_some issued
  obtain rfl : t = (u.advance c).smmuActs := by simpa [answer] using stepped.symm
  have failure : u = failed u.rsp.status (s.load c) := by
    obtain ⟨i, -, ran⟩ | illegal := runLoaded_cases run
    · exact exec_failed ran bad
    · rw [illegal]; rfl
  rw [failure]
  rfl

/-! ## The host's side (R22, R25) -/

theorem exec_sameHost {i : Instr} {s t : State} (run : exec i s = .next t) : SameHost s t := by
  have host := exec_answers i s
  rw [run] at host
  generalize answer : Host.Outcome.next t = r at host
  cases host with
  | failed st ne =>
    obtain rfl : t = failed st.code s := by simpa [raise_eq, failed] using answer
    exact ⟨rfl, rfl, rfl, rfl, rfl, rfl⟩
  | completed d0 d1 d2 u keeps =>
    obtain rfl : t = _ := by simpa [complete_eq] using answer
    exact ⟨keeps.cw, keeps.opa, keeps.opb, keeps.program, keeps.position, keeps.params⟩

theorem runLoaded_sameHost {s u : State} (run : runLoaded s = .next u) : SameHost s u := by
  obtain ⟨i, -, ran⟩ | rfl := runLoaded_cases run
  · exact exec_sameHost ran
  · exact ⟨rfl, rfl, rfl, rfl, rfl, rfl⟩

theorem step_program_params {s t : State} (stepped : step s = .next t) : t.program = s.program ∧ t.params = s.params := by
  obtain ⟨-, rfl⟩ | ⟨c, u, -, run, rfl⟩ := step_cases stepped
  · exact ⟨rfl, rfl⟩
  · have host := runLoaded_sameHost run
    exact ⟨host.program, host.params⟩

/-- Settles O56. -/
theorem commandRegistersNeverWritten : Obligations.CommandRegistersNeverWritten := by
  unfold Obligations.CommandRegistersNeverWritten
  exact ⟨fun _ _ _ run => exec_sameHost run, fun _ _ stepped => step_program_params stepped⟩

/-! ## The SMMU's own move (R29, log 5) -/

/-- Settles O7: the step is the SMMU's move, which sets bits of fault registers. -/
theorem exhaustedListWaits : Obligations.ExhaustedListWaits := by
  unfold Obligations.ExhaustedListWaits
  intro s exhausted
  have waits := step_of_none s ((nextCommand_eq_none s).mpr exhausted)
  refine ⟨s.smmuActs, waits, rfl, rfl, rfl, fun i => ⟨rfl, rfl⟩, fun a => rfl, ⟨rfl, rfl, rfl, rfl, rfl, rfl⟩, ?_, ?_⟩
  · intro q other
    rw [smmuActs_get, if_neg other]
  · intro q p _ inWidth held
    exact smmuActs_keeps s q p inWidth held

/-- The fault register that draws the free values of a number. -/
def registerOfDraw (n : Nat) : RegRef :=
  match n / 16 with
  | 0 => if n = 1 then .gfsr else if n = 2 then .gfar else if n = 3 then .gfsynr else .topIsr
  | 1 => .cbFsr (Fin.ofNat 16 n)
  | 2 => .cbFar (Fin.ofNat 16 n)
  | _ => .cbFsynr (Fin.ofNat 16 n)

theorem registerOfDraw_drawNumber {q : RegRef} (fault : q.regClass = .w1c) : registerOfDraw q.drawNumber = q := by
  have block (k : Nat) (i : Fin 16) : (16 * k + i.val) / 16 = k := by omega
  have index (k : Nat) (i : Fin 16) : Fin.ofNat 16 (16 * k + i.val) = i := by ext; simp
  cases q with
  | gfsr | gfar | gfsynr | topIsr => rfl
  | cbFsr i =>
    show registerOfDraw (16 * 1 + i.val) = _
    simp only [registerOfDraw, block, index]
  | cbFar i =>
    show registerOfDraw (16 * 2 + i.val) = _
    simp only [registerOfDraw, block, index]
  | cbFsynr i =>
    show registerOfDraw (16 * 3 + i.val) = _
    simp only [registerOfDraw, block, index]
  | _ => cases fault

/-- No two fault registers draw the same free value. -/
theorem drawNumber_inj {q r : RegRef} (hq : q.regClass = .w1c) (hr : r.regClass = .w1c) (same : q.drawNumber = r.drawNumber) :
    q = r := by
  rw [← registerOfDraw_drawNumber hq, same, registerOfDraw_drawNumber hr]

/-- Settles O50: whatever the command left, the SMMU's move is the last thing in a step. -/
theorem smmuSetsBitsDuringAnyStep : Obligations.SmmuSetsBitsDuringAnyStep := by
  unfold Obligations.SmmuSetsBitsDuringAnyStep
  refine ⟨?_, fun q r hq hr same => drawNumber_inj hq hr same⟩
  intro s t q stepped fault
  cases answer : issueNext s with
  | next u =>
    obtain rfl : t = u.smmuActs := by simpa [step, answer, andSmmuActs] using stepped.symm
    refine ⟨u, rfl, ?_⟩
    have params : u.params = s.params := by simpa using (step_program_params stepped).2
    rw [smmuActs_get, if_pos fault, smmuSets, params]
  | fault f => cases f
  | refused r => simp [step, answer, andSmmuActs] at stepped

/-! ## The accesses (R60) -/

theorem afterMappedRead_trace (s : State) (a n : Nat) :
    (s.afterMappedRead a n).trace = s.trace ++ [⟨.regRead, a, n, s.mappedValue a n⟩] := by
  cases h : registerAt s.params a n with
  | none => simp [State.afterMappedRead, State.mappedValue, h]
  | some r =>
    obtain ⟨rfl, rfl⟩ := registerAt_some h
    simp [State.afterMappedRead, State.mappedValue, h]

theorem mappedWrite_trace (s : State) (a n : Nat) (v : Word) :
    (s.mappedWrite a n v).trace = s.trace ++ [⟨.regWrite, a, n, low (8 * n) v⟩] := by
  cases h : registerAt s.params a n with
  | none => simp [State.mappedWrite, State.mixedWrite, h]
  | some r =>
    obtain ⟨rfl, rfl⟩ := registerAt_some h
    simp [State.mappedWrite, h, regBytes_mul]

theorem hasWidth_bytes {sz : SizeCode} {n : Nat} (w : HasWidth sz n) : 8 * (n / 8) = n := by
  obtain ⟨-, rfl⟩ | ⟨-, rfl⟩ | ⟨-, rfl⟩ := w <;> rfl

/-- R116: one read, one write of the same bytes, of the value read with the field updated. -/
theorem mappedState_trace {sz : SizeCode} {n : Nat} (w : HasWidth sz n) (hi lo : Nat) (offset value : Word) (s : State) :
    (mappedState n hi lo offset value s).trace = s.trace ++
      [⟨.regRead, mappedAddr s offset, n / 8, s.mappedValue (mappedAddr s offset) (n / 8)⟩,
        ⟨.regWrite, mappedAddr s offset, n / 8, insertAt n (s.mappedValue (mappedAddr s offset) (n / 8)) hi lo value.toNat⟩] := by
  simp [mappedState, mappedWrite_trace, afterMappedRead_trace, hasWidth_bytes w]

theorem zeroedState_trace (table : Word) (s : State) :
    (zeroedState table s).trace = s.trace ++ [⟨.memWrite, entryAddr table 0, 8, 0#64⟩, ⟨.memWrite, entryAddr table 1, 8, 0#64⟩,
      ⟨.memWrite, entryAddr table 2, 8, 0#64⟩, ⟨.memWrite, entryAddr table 3, 8, 0#64⟩] := by
  simp [zeroedState]

theorem snapcState_trace (b : Fin 16) (s : State) :
    (snapcState b s).trace = s.trace ++ [readRec s.params (.cbFsr b) (s.readValue (.cbFsr b)),
      readRec s.params (.cbFar b) ((s.afterRead (.cbFsr b)).readValue (.cbFar b)),
      readRec s.params (.cbFsynr b) (((s.afterRead (.cbFsr b)).afterRead (.cbFar b)).readValue (.cbFsynr b))] := by
  simp [snapcState, readRec]

theorem mappedShapes_of_hasWidth {sz : SizeCode} {n : Nat} (w : HasWidth sz n) (s : State) (offset : Word) :
    mappedShapes s.params sz offset =
      [⟨.regRead, mappedAddr s offset, n / 8⟩, ⟨.regWrite, mappedAddr s offset, n / 8⟩] := by
  simp [mappedShapes, widthOf_eq_some.mpr w, mappedAddr]

/-- The accesses of an effect are those the table lists. -/
theorem Effect.accesses {s : State} {i : Instr} {u : State} (e : Effect s i u) :
    ∃ l : List Access, u.trace = s.trace ++ l ∧ l.map shapeOf = owedAccesses s.params i := by
  cases e with
  | sbrI | sbI | ttBuild => exact ⟨[], (List.append_nil _).symm, rfl⟩
  | sbrM offset value w => exact ⟨_, mappedState_trace w _ _ _ _ _, (mappedShapes_of_hasWidth w s offset).symm⟩
  | sbM offset value w => exact ⟨_, mappedState_trace w _ _ _ _ _, (mappedShapes_of_hasWidth w s offset).symm⟩
  | ttWrite entry => exact ⟨_, memWrite_trace _ _ _, rfl⟩
  | ttZero => exact ⟨_, zeroedState_trace _ _, rfl⟩
  | cbAmode b aw => exact ⟨_, rmw_trace _ _ _, by simp [owedAccesses, onBank, updateOf, readOf, writeOf, shapeOf]⟩
  | cbMattr b attrs =>
    exact ⟨_, by simp [mattrState, List.append_assoc]; rfl, by simp [owedAccesses, onBank, writeOf, shapeOf]⟩
  | cbTctrl b => exact ⟨_, rmw_trace _ _ _, by simp [owedAccesses, onBank, updateOf, readOf, writeOf, shapeOf]⟩
  | cbTbase b => exact ⟨_, rmw_trace _ _ _, by simp [owedAccesses, onBank, updateOf, readOf, writeOf, shapeOf]⟩
  | cbEnable b => exact ⟨_, rmw_trace _ _ _, by simp [owedAccesses, onBank, updateOf, readOf, writeOf, shapeOf]⟩
  | smCfg i => exact ⟨_, regWrite_trace _ _ _, by simp [owedAccesses, onEntry, writeOf, shapeOf]⟩
  | smResetall => exact ⟨_, writeAll_trace _ _ _, by simp [owedAccesses, writeOf, shapeOf]⟩
  | s2cCfg i => exact ⟨_, rmw_trace _ _ _, by simp [owedAccesses, onEntry, updateOf, readOf, writeOf, shapeOf]⟩
  | frSnapg => exact ⟨_, by simp; rfl, by simp [owedAccesses, readOf, shapeOf]⟩
  | frSnapc b => exact ⟨_, snapcState_trace _ _, by simp [owedAccesses, onBank, readOf, shapeOf, readRec]⟩
  | frClearall => exact ⟨_, writeAll_trace _ _ _, rfl⟩
  | frTlbiall => exact ⟨_, writeAll_trace _ _ _, rfl⟩

/-- Settles O54: a success has the accesses of its effect, a failure leaves the record. -/
theorem accessesAreThoseOwed : Obligations.AccessesAreThoseOwed := by
  unfold Obligations.AccessesAreThoseOwed
  intro i s t run
  by_cases ok : t.rsp.status = 0#4
  · obtain ⟨d0, d1, d2, u, effect, rfl⟩ := exec_effect run ok
    obtain ⟨l, trace, shapes⟩ := effect.accesses
    exact ⟨l, trace, fun _ => shapes, fun bad => absurd ok bad⟩
  · have trace : t.trace = s.trace := by rw [exec_failed run ok]; rfl
    exact ⟨[], by rw [trace, List.append_nil], fun good => absurd good ok, fun _ => rfl⟩

/-! ## The sequencer's state (R20, R21, R151) -/

theorem setBankState_bankState (s : State) (i b : Fin 16) (v : CbState) :
    (s.setBankState i v).bankState b = if b = i then v else s.bankState b := entryOf_withEntry _ _ _ _

theorem setBankAw_bankAw (s : State) (i b : Fin 16) (v : AddrWidth) :
    (s.setBankAw i v).bankAw b = if b = i then v else s.bankAw b := entryOf_withEntry _ _ _ _

/-- The width `CB.AMODE` latches for a bank; no other command latches one (R21). -/
def latchedOn (b : Nat) : Instr → Option AddrWidth
  | .cbAmode idx aw => if idx = b then some aw else none
  | _ => none

/-- R151: an effect leaves a bank in the state that its step on the bank names, else where it was. -/
theorem Effect.bankState {s : State} {i : Instr} {u : State} (e : Effect s i u) (b : Fin 16) :
    u.bankState b = ((seqStepOn b.val i).map stateNamedBy).getD (s.bankState b) := by
  have onBank (j : Fin 16) (v : SeqStep) (w : State) (same : w.bankState b = s.bankState b) :
      (w.setBankState j (stateNamedBy v)).bankState b
        = ((if j.val = b.val then some v else none).map stateNamedBy).getD (s.bankState b) := by
    rw [setBankState_bankState]
    by_cases h : b = j
    · simp [h]
    · simp [h, Fin.val_inj, Ne.symm h, same]
  cases e with
  | cbAmode j aw => exact onBank j .amode _ rfl
  | cbMattr j attrs => exact onBank j .mattr _ rfl
  | cbTctrl j => exact onBank j .tctrl _ rfl
  | cbTbase j => exact onBank j .tbase _ rfl
  | cbEnable j en fr fi => cases en <;> [exact onBank j .disable _ rfl; exact onBank j .enable _ rfl]
  | _ => simp [State.bankState, seqStepOn, mappedState, zeroedState, snapcState]

/-- R21: an effect leaves a bank's latch at the width it latches, else where it was. -/
theorem Effect.bankAw {s : State} {i : Instr} {u : State} (e : Effect s i u) (b : Fin 16) :
    u.bankAw b = (latchedOn b.val i).getD (s.bankAw b) := by
  cases e with
  | cbAmode j aw =>
    rw [show (amodeState j aw s).bankAw b = _ from setBankAw_bankAw _ _ _ _]
    by_cases h : b = j
    · simp [h, latchedOn]
    · simp only [latchedOn, h, Fin.val_inj, Ne.symm h, if_false, Option.getD_none]
      rfl
  | _ =>
    simp [State.bankAw, latchedOn, mappedState, zeroedState, snapcState, mattrState, tctrlState, tbaseState, enableState]

/-- The same for a command that succeeds. -/
theorem exec_bankState {i : Instr} {s t : State} (run : exec i s = .next t) (ok : t.rsp.status = 0#4) (b : Fin 16) :
    t.bankState b = ((seqStepOn b.val i).map stateNamedBy).getD (s.bankState b) := by
  obtain ⟨d0, d1, d2, u, effect, rfl⟩ := exec_effect run ok
  exact effect.bankState b

theorem exec_bankAw {i : Instr} {s t : State} (run : exec i s = .next t) (ok : t.rsp.status = 0#4) (b : Fin 16) :
    t.bankAw b = (latchedOn b.val i).getD (s.bankAw b) := by
  obtain ⟨d0, d1, d2, u, effect, rfl⟩ := exec_effect run ok
  exact effect.bankAw b

/-- A command that fails moves no bank (R216). -/
theorem exec_failed_sameBanks {i : Instr} {s t : State} (run : exec i s = .next t) (bad : t.rsp.status ≠ 0#4) :
    SameBanks s t := by
  rw [exec_failed run bad]
  exact fun b => ⟨rfl, rfl⟩

theorem eq_cbAmode_of_latchedOn {b : Nat} {i : Instr} {aw : AddrWidth} (h : latchedOn b i = some aw) :
    i = .cbAmode b aw := by
  unfold latchedOn at h
  split at h
  · split at h
    · simp_all
    · cases h
  · cases h

/-- Settles O38: a bank that moved was named by a sequencer's step, a latch that moved by `CB.AMODE`. -/
theorem sequencerStateOwnedByItsCommands : Obligations.SequencerStateOwnedByItsCommands := by
  unfold Obligations.SequencerStateOwnedByItsCommands
  intro i s t run
  by_cases ok : t.rsp.status = 0#4
  · refine ⟨fun b moved none => moved ?_, fun b moved => ?_⟩
    · rw [exec_bankState run ok b, none]; rfl
    · have latch := exec_bankAw run ok b
      cases h : latchedOn b.val i with
      | none => exact absurd (by rw [latch, h]; rfl) moved
      | some aw => exact ⟨aw, eq_cbAmode_of_latchedOn h, by rw [latch, h]; rfl⟩
  · have same := exec_failed_sameBanks run ok
    exact ⟨fun b moved => absurd (same b).1 moved, fun b moved => absurd (same b).2 moved⟩

/-! ## What decides (R220) -/

/-- The status reads the sequencer's state and the parameters alone. -/
theorem expectedStatus_congr {s u : State} (states : u.cbState = s.cbState) (params : u.params = s.params) (i : Instr) :
    expectedStatus u i = expectedStatus s i := by
  have ordering : orderingBroken u i = orderingBroken s i := by
    cases i <;> simp only [orderingBroken, bankIsEnabled, State.bankState, states]
  simp only [expectedStatus, params, ordering]

/-- What a command adds to the record, by kind, address and size. -/
theorem exec_addedShapes {i : Instr} {s t : State} (run : exec i s = .next t) :
    (t.trace.drop s.trace.length).map shapeOf = if expectedStatus s i = 0#4 then owedAccesses s.params i else [] := by
  obtain ⟨l, trace, owed, none⟩ := accessesAreThoseOwed i s t run
  rw [exec_status run] at owed none
  rw [trace, List.drop_left]
  split
  · exact owed ‹_›
  · simp [none ‹_›]

/-- What the banks are after a command, said of a success and a failure at once. -/
theorem exec_banks {i : Instr} {s t : State} (run : exec i s = .next t) (b : Fin 16) :
    t.bankState b = (if expectedStatus s i = 0#4 then ((seqStepOn b.val i).map stateNamedBy).getD (s.bankState b)
        else s.bankState b)
      ∧ t.bankAw b = (if expectedStatus s i = 0#4 then (latchedOn b.val i).getD (s.bankAw b) else s.bankAw b) := by
  have status := exec_status run
  split
  · next ok => exact ⟨exec_bankState run (status.trans ok) b, exec_bankAw run (status.trans ok) b⟩
  · next bad => exact exec_failed_sameBanks run (status ▸ bad) b

/-- Settles O55: status, shapes and banks are each a function of what the two states share. -/
theorem noRegisterValueDecides : Obligations.NoRegisterValueDecides := by
  unfold Obligations.NoRegisterValueDecides
  intro i s u states widths params
  obtain ⟨t, runS, statusS⟩ := statusFollowsPriority i s
  obtain ⟨v, runU, statusU⟩ := statusFollowsPriority i u
  have status := expectedStatus_congr states params i
  have sameBank (b : Fin 16) : u.bankState b = s.bankState b ∧ u.bankAw b = s.bankAw b := by
    simp only [State.bankState, State.bankAw, states, widths, and_self]
  refine ⟨t, v, runS, runU, by rw [statusU, statusS, status], ?_, ?_, ?_⟩
  · rw [exec_addedShapes runU, exec_addedShapes runS, status, params]
  · refine vector_ext_entryOf fun b => ?_
    have now : v.bankState b = t.bankState b := by
      rw [(exec_banks runU b).1, (exec_banks runS b).1, status, (sameBank b).1]
    exact now
  · refine vector_ext_entryOf fun b => ?_
    have now : v.bankAw b = t.bankAw b := by
      rw [(exec_banks runU b).2, (exec_banks runS b).2, status, (sameBank b).2]
    exact now

end Sys2Proof.Machine
end

section
/-! PROOFS. The invariant of the machine (spec/10_state.md sections 3 to 5, spec/20_memory.md sections 1 and 3): one lemma
per operation of the state, then per effect of a command, then per step. -/

namespace Sys2Proof.Machine

open Sys2Proof.Claim

/-! ## Words that fit a width -/

/-- A word fits in `n` bits exactly when no bit from `n` on is set. -/
theorem toNat_lt_two_pow_iff {v : Word} {n : Nat} : v.toNat < 2 ^ n ↔ ∀ p, n ≤ p → v.getLsbD p = false := by
  constructor
  · exact fun h p hp => Nat.testBit_lt_two_pow (Nat.lt_of_lt_of_le h (Nat.pow_le_pow_right (by decide) hp))
  · exact fun h => Nat.lt_pow_two_of_testBit _ h

theorem low_toNat_le (n : Nat) (v : Word) : (low n v).toNat ≤ v.toNat := by
  simp only [low, BitVec.toNat_setWidth]
  exact (Nat.mod_le _ _).trans (Nat.mod_le _ _)

theorem readValue_lt (s : State) (r : RegRef) : (s.readValue r).toNat < 2 ^ regBits s.params r := by
  unfold State.readValue
  cases r.regClass <;> exact low_toNat_lt _ _

/-- R57: a word of `k` bytes fits in them. -/
theorem wordOfBytes_lt (bs : List Byte) : (wordOfBytes bs).toNat < 2 ^ (8 * bs.length) := by
  rw [toNat_lt_two_pow_iff]
  intro p hp
  by_cases h : p < 64
  · rw [wordOfBytes_getLsbD _ _ h, List.getElem?_eq_none (by omega)]
    rfl
  · exact BitVec.getLsbD_of_ge _ _ (by omega)

theorem mappedValue_lt (s : State) (a n : Nat) : (s.mappedValue a n).toNat < 2 ^ (8 * n) := by
  unfold State.mappedValue
  split
  · next r h =>
    obtain ⟨-, rfl⟩ := registerAt_some h
    exact regBytes_mul s.params r ▸ readValue_lt s r
  · simpa [State.mixedWord] using wordOfBytes_lt ((List.range n).map (s.mixedByte (Config.freeWord s.envTick 0) a))

/-! ## Register files that fit -/

/-- `RegistersFit` as a property of the register file alone. -/
def FileFits (p : Params) (f : RegFile) : Prop := ∀ r : RegRef, (f.get r).toNat < 2 ^ regBits p r

theorem fileFits_set {p : Params} {f : RegFile} {r : RegRef} {v : Word} (fits : FileFits p f)
    (inWidth : v.toNat < 2 ^ regBits p r) : FileFits p (f.set r v) := by
  intro q
  by_cases h : q = r
  · subst h
    rw [get_set_same]
    exact (low_toNat_le _ _).trans_lt inWidth
  · rw [get_set_other _ _ _ _ h]
    exact fits q

theorem fileFits_regsAfterRead {s : State} (r : RegRef) (fits : FileFits s.params s.regs) :
    FileFits s.params (s.regsAfterRead r) := by
  unfold State.regsAfterRead
  cases r.regClass with
  | w1c => exact fileFits_set fits (readValue_lt s r)
  | storage | wtrig | roVolatile => exact fits

theorem fileFits_regsAfterWrite {s : State} {r : RegRef} {v : Word} (fits : FileFits s.params s.regs)
    (inWidth : v.toNat < 2 ^ regBits s.params r) : FileFits s.params (s.regsAfterWrite r v) := by
  unfold State.regsAfterWrite
  cases r.regClass with
  | storage => exact fileFits_set fits inWidth
  | w1c =>
    refine fileFits_set fits (Nat.lt_of_le_of_lt ?_ (fits r))
    rw [BitVec.toNat_and]
    exact Nat.and_le_left
  | wtrig | roVolatile => exact fits

/-- A byte put into a register's own bytes leaves the rest of the word clear. -/
theorem putByte_lt {v : Word} {k n : Nat} (b : Byte) (fits : v.toNat < 2 ^ (8 * n)) (inside : k < n) :
    (putByte v k b).toNat < 2 ^ (8 * n) := by
  rw [toNat_lt_two_pow_iff] at fits ⊢
  intro p hp
  rw [putByte, setBitRange_getLsbD _ _ _ _ _ (by omega), if_neg (by omega)]
  exact fits p hp

theorem fileFits_writeMixedByte {p : Params} {f : RegFile} (tick : Nat) (v : Word) (a k : Nat) (fits : FileFits p f) :
    FileFits p (writeMixedByte p tick v a f k) := by
  unfold writeMixedByte
  cases found : registerOfByte p (a + k) with
  | none => exact fits
  | some r =>
    obtain ⟨first, last⟩ := registerOfByte_some found
    dsimp only
    cases r.regClass with
    | storage =>
      refine fileFits_set fits ?_
      rw [← regBytes_mul]
      exact putByte_lt _ (regBytes_mul p r ▸ fits r) (by omega)
    | w1c => exact fileFits_set fits (low_toNat_lt _ _)
    | wtrig | roVolatile => exact fits

theorem fileFits_mixedWrite {s : State} (a n : Nat) (v : Word) (fits : FileFits s.params s.regs) :
    FileFits s.params (s.mixedWrite a n v).regs := by
  show FileFits s.params ((List.range n).foldl (writeMixedByte s.params s.envTick v a) s.regs)
  generalize List.range n = l
  generalize s.regs = f at fits
  induction l generalizing f with
  | nil => exact fits
  | cons k l ih => exact ih _ (fileFits_writeMixedByte _ _ _ _ fits)

/-! ## Accesses that are legal (R51, R52, R58) -/

theorem regBytes_cases (p : Params) (r : RegRef) : regBytes p r = 4 ∨ regBytes p r = 8 := by
  rcases regBits_cases p r with h | h <;> simp [regBytes, h]

/-- An access of a whole register is legal, since an admissible map aligns the register (R40). -/
theorem accessLegal_register {p : Params} (map : mapAdmissible p) {kind : AccessKind} (port : kind ≠ .memWrite) (r : RegRef)
    {v : Word} (fits : v.toNat < 2 ^ regBits p r) : accessLegal p ⟨kind, regAddr p r, regBytes p r, v⟩ := by
  obtain ⟨-, aligned, -, -⟩ := map
  refine ⟨regBytes_mul p r ▸ fits, ?_⟩
  have size : regBytes p r = 2 ∨ regBytes p r = 4 ∨ regBytes p r = 8 := .inr (regBytes_cases p r)
  cases kind with
  | memWrite => exact absurd rfl port
  | regRead | regWrite => exact ⟨size, aligned r⟩

/-- A mapped access at an aligned offset is legal (R58). -/
theorem accessLegal_mapped {s : State} {sz : SizeCode} {n : Nat} (w : HasWidth sz n) {kind : AccessKind}
    (port : kind ≠ .memWrite) {offset v : Word} (aligned : offset.toNat % (n / 8) = 0) (fits : v.toNat < 2 ^ (8 * (n / 8))) :
    accessLegal s.params ⟨kind, mappedAddr s offset, n / 8, v⟩ := by
  have size : n / 8 = 2 ∨ n / 8 = 4 ∨ n / 8 = 8 := by
    obtain ⟨-, rfl⟩ | ⟨-, rfl⟩ | ⟨-, rfl⟩ := w <;> decide
  have distance : (Int.ofNat (mappedAddr s offset) - Int.ofNat s.params.map.iommuBase) % Int.ofNat (n / 8) = 0 := by
    have sum : Int.ofNat (mappedAddr s offset) - Int.ofNat s.params.map.iommuBase = (offset.toNat : Int) := by
      simp [mappedAddr]
    rw [sum, Int.ofNat_eq_natCast]
    exact_mod_cast aligned
  cases kind with
  | memWrite => exact absurd rfl port
  | regRead | regWrite => exact ⟨fits, size, distance⟩

/-! ## One lemma per operation -/

theorem inv_accesses_append {s : State} (inv : Inv s) {as : List Access} (legal : ∀ a ∈ as, accessLegal s.params a) :
    ∀ a ∈ s.trace ++ as, accessLegal s.params a := fun a mem =>
  (List.mem_append.mp mem).elim (inv.accesses a) (legal a)

theorem inv_afterRead {s : State} (inv : Inv s) (r : RegRef) : Inv (s.afterRead r) where
  memory := inv.memory
  inSpace := inv.inSpace
  registers := fileFits_regsAfterRead r inv.registers
  response := inv.response
  map := inv.map
  accesses := inv_accesses_append inv <| by
    simpa using accessLegal_register inv.map (kind := .regRead) (by decide) r (readValue_lt s r)

theorem inv_regWrite {s : State} (inv : Inv s) (r : RegRef) (v : Word) : Inv (s.regWrite r v) where
  memory := inv.memory
  inSpace := inv.inSpace
  registers := fileFits_regsAfterWrite inv.registers (low_toNat_lt _ _)
  response := inv.response
  map := inv.map
  accesses := inv_accesses_append inv <| by
    simpa using accessLegal_register inv.map (kind := .regWrite) (by decide) r (low_toNat_lt _ v)

theorem inv_rmw {s : State} (inv : Inv s) (r : RegRef) (f : Word → Word) : Inv (s.rmw r f) :=
  inv_regWrite (inv_afterRead inv r) r _

theorem inv_writeAll {s : State} (inv : Inv s) (rs : List RegRef) (v : Word) : Inv (s.writeAll rs v) := by
  induction rs generalizing s with
  | nil => exact inv
  | cons r rs ih => exact ih (inv_regWrite inv r v)

theorem write_inSpace {m : Memory} {a : Nat} {b : Byte} (below : ∀ c ∈ m, c.1 < 2 ^ 64) (room : a < 2 ^ 64) :
    ∀ c ∈ m.write a b, c.1 < 2 ^ 64 := fun c mem =>
  (mem_write mem).elim (fun new => new ▸ room) (below c)

theorem writeBytes_inSpace {m : Memory} {a : Nat} (bs : List Byte) (below : ∀ c ∈ m, c.1 < 2 ^ 64)
    (room : a + bs.length ≤ 2 ^ 64) : ∀ c ∈ m.writeBytes a bs, c.1 < 2 ^ 64 := by
  induction bs generalizing m a with
  | nil => exact below
  | cons b bs ih =>
    rw [List.length_cons] at room
    exact ih (write_inSpace below (by omega)) (by omega)

theorem inv_memWrite {s : State} (inv : Inv s) {a : Nat} (v : Word) (aligned : a % 8 = 0) (room : a + 8 ≤ 2 ^ 64) :
    Inv (s.memWrite a v) where
  memory := write64_wf a v inv.memory
  inSpace := writeBytes_inSpace _ inv.inSpace (by simpa using room)
  registers := inv.registers
  response := inv.response
  map := inv.map
  accesses := inv_accesses_append inv <| by
    have legal : accessLegal s.params ⟨.memWrite, a, 8, v⟩ := ⟨v.isLt, rfl, aligned, room⟩
    simpa using legal

/-- An entry of a good table is aligned and below the end of the address space (R55, R59). -/
theorem entryAddr_legal {table : Word} {k : Nat} (aligned : table.toNat % 8 = 0) (room : table.toNat ≤ 2 ^ 64 - 32) (hk : k < 4) :
    entryAddr table k % 8 = 0 ∧ entryAddr table k + 8 ≤ 2 ^ 64 := by
  unfold entryAddr
  omega

theorem inv_mappedState {s : State} (inv : Inv s) {sz : SizeCode} {n : Nat} (w : HasWidth sz n) (hi lo : Nat)
    {offset : Word} (value : Word) (aligned : offset.toNat % (n / 8) = 0) : Inv (mappedState n hi lo offset value s) where
  memory := by simpa [mappedState] using inv.memory
  inSpace := by simpa [mappedState] using inv.inSpace
  registers := by
    have afterRead : FileFits s.params (s.afterMappedRead (mappedAddr s offset) (n / 8)).regs := by
      unfold State.afterMappedRead
      split
      · exact fileFits_regsAfterRead _ inv.registers
      · exact inv.registers
    rw [← afterMappedRead_params s (mappedAddr s offset) (n / 8)] at afterRead
    show FileFits (mappedState n hi lo offset value s).params (mappedState n hi lo offset value s).regs
    rw [mappedState, mappedWrite_params, State.mappedWrite]
    split
    · exact fileFits_regsAfterWrite afterRead (low_toNat_lt _ _)
    · exact fileFits_mixedWrite _ _ _ afterRead
  response := by simpa [mappedState] using inv.response
  map := by simpa [mappedState] using inv.map
  accesses := by
    have params : (mappedState n hi lo offset value s).params = s.params := by simp [mappedState]
    have written : (insertAt n (s.mappedValue (mappedAddr s offset) (n / 8)) hi lo value.toNat).toNat < 2 ^ (8 * (n / 8)) := by
      rw [hasWidth_bytes w, ← low_insertAt]
      exact low_toNat_lt _ _
    rw [params, mappedState_trace w]
    refine inv_accesses_append inv ?_
    simp only [List.mem_cons, List.not_mem_nil, or_false, forall_eq_or_imp, forall_eq]
    exact ⟨accessLegal_mapped w (by decide) aligned (mappedValue_lt _ _ _), accessLegal_mapped w (by decide) aligned written⟩

theorem inv_setBankState {s : State} (inv : Inv s) (b : Fin 16) (v : CbState) : Inv (s.setBankState b v) :=
  ⟨inv.memory, inv.inSpace, inv.registers, inv.response, inv.map, inv.accesses⟩

theorem inv_setBankAw {s : State} (inv : Inv s) (b : Fin 16) (v : AddrWidth) : Inv (s.setBankAw b v) :=
  ⟨inv.memory, inv.inSpace, inv.registers, inv.response, inv.map, inv.accesses⟩

theorem inv_load {s : State} (inv : Inv s) (c : HostCommand) : Inv (s.load c) :=
  ⟨inv.memory, inv.inSpace, inv.registers, inv.response, inv.map, inv.accesses⟩

theorem inv_advance {s : State} (inv : Inv s) (c : HostCommand) : Inv (s.advance c) :=
  ⟨inv.memory, inv.inSpace, inv.registers, inv.response, inv.map, inv.accesses⟩

theorem inv_respond {s : State} (inv : Inv s) {r : Response} (legal : responseLegal r) : Inv { s with rsp := r } :=
  ⟨inv.memory, inv.inSpace, inv.registers, legal, inv.map, inv.accesses⟩

theorem inv_smmuActs {s : State} (inv : Inv s) : Inv s.smmuActs where
  memory := inv.memory
  inSpace := inv.inSpace
  registers := by
    intro r
    rw [smmuActs_get]
    split
    · exact low_toNat_lt _ _
    · exact inv.registers r
  response := inv.response
  map := inv.map
  accesses := inv.accesses

/-! ## Commands and steps -/

/-- The effect of a command is made of operations that keep the invariant. -/
theorem Effect.inv {s : State} {i : Instr} {u : State} (e : Effect s i u) (inv : Inv s) : Inv u := by
  cases e with
  | sbrI | sbI | ttBuild => exact inv
  | sbrM offset value w aligned => exact inv_mappedState inv w _ _ value aligned
  | sbM offset value w aligned => exact inv_mappedState inv w _ _ value aligned
  | ttWrite entry inTable aligned room =>
    obtain ⟨entryAligned, entryRoom⟩ := entryAddr_legal aligned room inTable
    exact inv_memWrite inv entry entryAligned entryRoom
  | ttZero aligned room =>
    have entry (k : Nat) (hk : k < 4) {v : State} (h : Inv v) : Inv (v.memWrite (entryAddr _ k) 0#64) :=
      inv_memWrite h _ (entryAddr_legal aligned room hk).1 (entryAddr_legal aligned room hk).2
    exact entry 3 (by decide) (entry 2 (by decide) (entry 1 (by decide) (entry 0 (by decide) inv)))
  | cbAmode b aw => exact inv_setBankState (inv_setBankAw (inv_rmw inv _ _) _ _) _ _
  | cbMattr b attrs => exact inv_setBankState (inv_regWrite (inv_regWrite inv _ _) _ _) _ _
  | cbTctrl b => exact inv_setBankState (inv_rmw inv _ _) _ _
  | cbTbase b => exact inv_setBankState (inv_rmw inv _ _) _ _
  | cbEnable b => exact inv_setBankState (inv_rmw inv _ _) _ _
  | smCfg i => exact inv_regWrite inv _ _
  | smResetall => exact inv_writeAll inv _ _
  | s2cCfg i => exact inv_rmw inv _ _
  | frSnapg => exact inv_afterRead (inv_afterRead inv _) _
  | frSnapc b => exact inv_afterRead (inv_afterRead (inv_afterRead inv _) _) _
  | frClearall => exact inv_writeAll inv _ _
  | frTlbiall => exact inv_writeAll inv _ _

/-- A failure's response is legal, whichever failure comes first (R210). -/
theorem responseLegal_failed (s : State) (i : Instr) : responseLegal ⟨expectedStatus s i, 0#64, 0#64, 0#64⟩ := by
  refine ⟨?_, fun _ => ⟨rfl, rfl, rfl⟩⟩
  show expectedStatus s i = 0#4 ∨ expectedStatus s i = 1#4 ∨ expectedStatus s i = 2#4 ∨ expectedStatus s i = 3#4
    ∨ expectedStatus s i = 5#4 ∨ expectedStatus s i = 6#4
  unfold expectedStatus
  repeat' split
  all_goals decide

theorem inv_exec {i : Instr} {s t : State} (inv : Inv s) (run : exec i s = .next t) : Inv t := by
  by_cases ok : t.rsp.status = 0#4
  · obtain ⟨d0, d1, d2, u, effect, rfl⟩ := exec_effect run ok
    exact inv_respond (effect.inv inv) ⟨.inl rfl, fun bad => absurd rfl bad⟩
  · rw [exec_failed run ok, exec_status run]
    exact inv_respond inv (responseLegal_failed s i)

theorem inv_runLoaded {s u : State} (inv : Inv s) (run : runLoaded s = .next u) : Inv u := by
  obtain ⟨i, -, ran⟩ | rfl := runLoaded_cases run
  · exact inv_exec inv ran
  · exact inv_respond inv ⟨by decide, fun _ => ⟨rfl, rfl, rfl⟩⟩

/-- Settles O57: the load, the command, the host's move and the SMMU's each keep the invariant. -/
theorem stepKeepsInvariant : Obligations.StepKeepsInvariant := by
  unfold Obligations.StepKeepsInvariant
  intro s t inv stepped
  obtain ⟨-, rfl⟩ | ⟨c, u, -, run, rfl⟩ := step_cases stepped
  · exact inv_smmuActs inv
  · exact inv_smmuActs (inv_advance (inv_runLoaded (inv_load inv c) run) c)

/-! ## Reset (spec/10_state.md section 7) -/

/-- R45, log 3: at reset every register but `SCR0` holds zero. -/
theorem get_reset (p : Params) {r : RegRef} (other : r ≠ .scr0) : (RegFile.reset p).get r = 0#64 := by
  cases r with
  | scr0 => exact absurd rfl other
  | _ => simp [RegFile.reset, RegFile.get, entryOf]

theorem inv_resetWith {p : Params} (map : mapAdmissible p) : Inv (State.resetWith p) where
  memory := List.Pairwise.nil
  inSpace := by intro c mem; cases mem
  registers := by
    intro r
    show ((RegFile.reset p).get r).toNat < 2 ^ regBits p r
    by_cases h : r = .scr0
    · subst h
      show ((setBit 0#32 p.field.scr0BypassBit 1).setWidth 64).toNat < 2 ^ 32
      exact low_setWidth32 _ ▸ low_toNat_lt 32 _
    · rw [get_reset p h]
      exact Nat.two_pow_pos _
  response := ⟨.inl rfl, fun bad => absurd rfl bad⟩
  map := map
  accesses := by intro a mem; cases mem

/-- Settles O58. -/
theorem resetMeetsInvariant : Obligations.ResetMeetsInvariant := by
  unfold Obligations.ResetMeetsInvariant
  refine ⟨fun p map => inv_resetWith map, ?_⟩
  rintro p rfl
  exact ⟨rfl, inv_resetWith mapAdmissible_default⟩

/-- Settles O59. -/
theorem resetBlockState : Obligations.ResetBlockState := by
  unfold Obligations.ResetBlockState
  refine fun p => ⟨fun i => ⟨?_, ?_⟩, rfl⟩
  · simp [State.bankState, State.resetWith, entryOf]
  · simp [State.bankAw, State.resetWith, entryOf]

/-- Settles O10: the one-bit range is law 1 of R112 at a single bit. -/
theorem setBitIsOneBitRange : Obligations.SetBitIsOneBitRange := by
  unfold Obligations.SetBitIsOneBitRange
  intro n img b val hb
  have written (v : Nat) : (setBit img b v).getLsbD b = decide (v % 2 = 1) := by
    rw [setBit, setBitRange_getLsbD _ _ _ _ _ le_rfl, if_pos ⟨le_rfl, le_rfl, hb⟩, Nat.sub_self, Nat.testBit_zero]
  exact ⟨rfl, written val, written 2, written 3⟩

/-- Settles O60: the reset value of `SCR0` is zero with the bypass bit set. -/
theorem resetBypassesEverything : Obligations.ResetBypassesEverything := by
  unfold Obligations.ResetBypassesEverything
  intro p inScr0
  have set : (setBit 0#32 p.field.scr0BypassBit 1).getLsbD p.field.scr0BypassBit = true :=
    (setBitIsOneBitRange 32 0#32 _ 1 inScr0).2.1
  refine ⟨set, ?_⟩
  show ((setBit 0#32 p.field.scr0BypassBit 1).setWidth 64).getLsbD p.field.scr0BypassBit = true
  have inWord : p.field.scr0BypassBit < 64 := by omega
  rw [BitVec.getLsbD_setWidth, set, decide_eq_true inWord, Bool.and_self]

end Sys2Proof.Machine
end

section
/-! PROOFS. The bit-field accessor's commands on images and on mapped registers (spec/40_bitfield_accessor.md R114-R119,
spec/30_encoding.md R91). -/

namespace Sys2Proof.Machine

open Sys2Proof.Claim

/-! ## Images (R114, R115) -/

theorem hasWidth_le {sz : SizeCode} {n : Nat} (w : HasWidth sz n) : n ≤ 64 := by
  obtain ⟨-, rfl⟩ | ⟨-, rfl⟩ | ⟨-, rfl⟩ := w <;> decide

/-- R110: an updated image, bit by bit. -/
theorem insertAt_updatedBit {n hi lo : Nat} (img value : Word) (h : lo ≤ hi) (hn : hi < n) {p : Nat} (hp : p < 64) :
    (insertAt n img hi lo value.toNat).getLsbD p = updatedBit n hi lo img value p := by
  rw [insertAt_getLsbD _ _ _ _ _ _ h hp, updatedBit, BitVec.testBit_toNat]
  by_cases inside : lo ≤ p ∧ p ≤ hi
  · rw [if_pos inside, if_pos (by omega)]
  · rw [if_neg inside, if_neg (by omega)]

/-- Settles O12: in contract each image command is the image update. -/
theorem imageUpdateResult : Obligations.ImageUpdateResult := by
  unfold Obligations.ImageUpdateResult
  intro sz n hi lo image value s w h hn
  exact ⟨⟨_, execSbrI_of_inContract image value s w h hn, fun p hp => insertAt_updatedBit image value h hn hp⟩,
    ⟨_, execSbrI_of_inContract image value s w le_rfl hn, fun p hp => insertAt_updatedBit image value le_rfl hn hp⟩⟩

/-! ## Operand bits that are not used (R91) -/

/-- A field within the bits two words agree on reads alike from both. -/
theorem extractLsb'_congr {x y m : Word} (agree : x &&& m = y &&& m) {start len : Nat}
    (used : m.extractLsb' start len = BitVec.allOnes len) : x.extractLsb' start len = y.extractLsb' start len := by
  have fields := congrArg (BitVec.extractLsb' start len) agree
  rwa [BitVec.extractLsb'_and, BitVec.extractLsb'_and, used, BitVec.and_allOnes, BitVec.and_allOnes] at fields

theorem getLsbD_congr {x y m : Word} (agree : x &&& m = y &&& m) {p : Nat} (used : m.getLsbD p = true) :
    x.getLsbD p = y.getLsbD p := by
  have bits := congrArg (fun w => BitVec.getLsbD w p) agree
  simpa [used] using bits

/-- The fields of a row read only the operand bits the row uses. -/
theorem fieldsOf_congr {f g : Frame} {op : Op} (header : g.cw = f.cw) (opa : f.opa &&& usedOpa op = g.opa &&& usedOpa op)
    (opb : f.opb &&& usedOpb op = g.opb &&& usedOpb op) : fieldsOf op f = fieldsOf op g := by
  have whole {x y : Word} (agree : x &&& BitVec.allOnes 64 = y &&& BitVec.allOnes 64) : x = y := by
    rwa [BitVec.and_allOnes, BitVec.and_allOnes] at agree
  have sz : f.sz = g.sz := by simp only [Frame.sz, header]
  have hi : f.hi = g.hi := by simp only [Frame.hi, header]
  have lo : f.lo = g.lo := by simp only [Frame.lo, header]
  have idx : f.idx = g.idx := by simp only [Frame.idx, header]
  have fl (k : Nat) : f.fl k = g.fl k := by simp only [Frame.fl, header]
  cases op with
  | sbrI | sbrM => simp only [fieldsOf, sz, hi, lo, whole opa, whole opb]
  | sbI | sbM => simp only [fieldsOf, sz, lo, whole opa, whole opb]
  | ttBuild => simp only [fieldsOf, fl, whole opa, whole opb]
  | ttWrite => simp only [fieldsOf, idx, whole opa, whole opb]
  | ttZero => simp only [fieldsOf, whole opa]
  | cbAmode => simp only [fieldsOf, idx, fl]
  | cbMattr => simp only [fieldsOf, idx, whole opa]
  | cbTctrl =>
    simp only [fieldsOf, idx, extractLsb'_congr opa (start := 0) (len := 6) (by decide),
      extractLsb'_congr opa (start := 6) (len := 2) (by decide), extractLsb'_congr opa (start := 8) (len := 2) (by decide),
      extractLsb'_congr opa (start := 10) (len := 2) (by decide), extractLsb'_congr opa (start := 12) (len := 2) (by decide)]
  | cbTbase => simp only [fieldsOf, idx, whole opa, extractLsb'_congr opb (start := 0) (len := 16) (by decide)]
  | cbEnable => simp only [fieldsOf, idx, fl]
  | smCfg =>
    simp only [fieldsOf, idx, getLsbD_congr opa (p := 32) (by decide), extractLsb'_congr opa (start := 16) (len := 16) (by decide),
      extractLsb'_congr opa (start := 10) (len := 5) (by decide), extractLsb'_congr opa (start := 0) (len := 10) (by decide)]
  | smResetall | frSnapg | frClearall | frTlbiall => rfl
  | s2cCfg => simp only [fieldsOf, idx, header, extractLsb'_congr opa (start := 0) (len := 8) (by decide)]
  | frSnapc => simp only [fieldsOf, idx]

/-- An update does not read the image above its width (R90). -/
theorem insertAt_congr_image {n : Nat} {image image' : Word} (hi lo val : Nat)
    (agree : ∀ p, p < n → image.getLsbD p = image'.getLsbD p) : insertAt n image hi lo val = insertAt n image' hi lo val := by
  have cut : image.setWidth n = image'.setWidth n := by
    apply BitVec.eq_of_getLsbD_eq
    intro p hp
    simp [hp, agree p hp]
  rw [insertAt, cut, insertAt]

/-- A one-bit update reads one bit of the value (R90, R115). -/
theorem insertAt_congr_bit {n : Nat} (image : Word) (b : Nat) {value value' : Word}
    (agree : value.getLsbD 0 = value'.getLsbD 0) :
    insertAt n image b b value.toNat = insertAt n image b b value'.toNat := by
  have low (v : Word) : v.toNat % 2 ^ (b - b + 1) = (v.getLsbD 0).toNat := by
    rw [Nat.sub_self, ← BitVec.testBit_toNat, Nat.testBit_zero]
    rcases Nat.mod_two_eq_zero_or_one v.toNat with h | h <;> simp [h]
  rw [insertAt, insertAt, ← setBitRange_mod _ b b value.toNat, ← setBitRange_mod _ b b value'.toNat, low, low, agree]

theorem imageUpdate_congr {n hi lo : Nat} {image image' value value' : Word} (s : State)
    (same : insertAt n image hi lo value.toNat = insertAt n image' hi lo value'.toNat) :
    imageUpdate n hi lo image value s = imageUpdate n hi lo image' value' s := by
  simp only [imageUpdate, same]

theorem execSbrI_congr_image {sz : SizeCode} {n : Nat} (w : HasWidth sz n) (hi lo : Nat) {image image' : Word} (value : Word)
    (s : State) (agree : ∀ p, p < n → image.getLsbD p = image'.getLsbD p) :
    execSbrI sz hi lo image value s = execSbrI sz hi lo image' value s := by
  have same : imageUpdate n hi lo image value s = imageUpdate n hi lo image' value s :=
    imageUpdate_congr s (insertAt_congr_image hi lo _ agree)
  simp only [execSbrI, widthOf_eq_some.mpr w, same]

theorem execSbrI_congr_bit (sz : SizeCode) (b : Nat) (image : Word) {value value' : Word} (s : State)
    (agree : value.getLsbD 0 = value'.getLsbD 0) : execSbrI sz b b image value s = execSbrI sz b b image value' s := by
  have same (n : Nat) : imageUpdate n b b image value s = imageUpdate n b b image value' s :=
    imageUpdate_congr s (insertAt_congr_bit image b agree)
  simp only [execSbrI, same]

theorem execSbrM_congr_bit (sz : SizeCode) (b : Nat) (offset : Word) {value value' : Word} (s : State)
    (agree : value.getLsbD 0 = value'.getLsbD 0) : execSbrM sz b b offset value s = execSbrM sz b b offset value' s := by
  have same (n : Nat) : mappedUpdate n b b offset value s = mappedUpdate n b b offset value' s := by
    simp only [mappedUpdate, insertAt_congr_bit _ b agree]
  simp only [execSbrM, same]

/-- Settles O3: the fields read the used bits, the update reads the image within its width, and one bit of a one-bit value. -/
theorem ignoredOperandBitsHaveNoEffect : Obligations.IgnoredOperandBitsHaveNoEffect := by
  unfold Obligations.IgnoredOperandBitsHaveNoEffect
  refine ⟨?frames, ?images, ?values⟩
  case frames =>
    intro f g op row header opa opb
    rw [decode_of_opOf row, decode_of_opOf (f := g) (header ▸ row), fieldsOf_congr header opa opb]
  case images =>
    intro sz n hi lo image image' value s w agree
    exact ⟨execSbrI_congr_image w hi lo value s agree, execSbrI_congr_image w hi hi value s agree⟩
  case values =>
    intro sz bit x value value' s agree
    exact ⟨execSbrI_congr_bit sz bit x s agree, execSbrM_congr_bit sz bit x s agree⟩

/-! ## Mapped updates (R116-R119) -/

/-- The command is a mapped update of the field `hi:lo`: `SBR.M`, or `SB.M` where the field is one bit. -/
def IsMapped (sz : SizeCode) (hi lo : Nat) (offset value : Word) (i : Instr) : Prop :=
  i = .sbrM sz hi lo offset value ∨ (i = .sbM sz hi offset value ∧ lo = hi)

/-- The word a mapped update writes and answers (R116). -/
def mappedNew (n hi lo : Nat) (offset value : Word) (s : State) : Word :=
  insertAt n (s.mappedValue (mappedAddr s offset) (n / 8)) hi lo value.toNat

/-- Either command, in contract and aligned, is the mapped update. -/
theorem exec_mapped {sz : SizeCode} {n hi lo : Nat} {offset value : Word} {i : Instr} (s : State)
    (mapped : IsMapped sz hi lo offset value i) (w : HasWidth sz n) (h : lo ≤ hi) (hn : hi < n)
    (aligned : offset.toNat % (n / 8) = 0) :
    exec i s = .next ((mappedState n hi lo offset value s).answered (mappedNew n hi lo offset value s) 0#64 0#64) := by
  obtain rfl | ⟨rfl, rfl⟩ := mapped
  · exact execSbrM_of_inContract offset value s w h hn aligned
  · exact execSbrM_of_inContract offset value s w h hn aligned

theorem mappedState_sameBanks (n hi lo : Nat) (offset value : Word) (s : State) :
    SameBanks s (mappedState n hi lo offset value s) := fun i => by
  simp [State.bankState, State.bankAw, mappedState]

theorem mappedState_sameMemory (n hi lo : Nat) (offset value : Word) (s : State) :
    SameMemory s (mappedState n hi lo offset value s) := fun a => by
  simp [mappedState]

theorem mappedState_sameHost (n hi lo : Nat) (offset value : Word) (s : State) :
    SameHost s (mappedState n hi lo offset value s) := by
  constructor <;> simp [mappedState]

/-- Settles O13. -/
theorem mappedAccessShape : Obligations.MappedAccessShape := by
  unfold Obligations.MappedAccessShape
  intro sz n hi lo offset value s w h hn aligned i mapped
  exact ⟨_, s.mappedValue (mappedAddr s offset) (n / 8), _, exec_mapped s mapped w h hn aligned, rfl,
    mappedState_trace w hi lo offset value s, fun p hp => insertAt_updatedBit _ value h hn hp,
    mappedState_sameBanks n hi lo offset value s, mappedState_sameMemory n hi lo offset value s,
    sameHost_answered (mappedState_sameHost n hi lo offset value s) _ _ _⟩

/-- R58: a misaligned offset is refused, whatever the range and the value. -/
theorem execSbrM_of_misaligned {sz : SizeCode} {n : Nat} (w : HasWidth sz n) (hi lo : Nat) {offset : Word} (value : Word)
    (s : State) (misaligned : offset.toNat % (n / 8) ≠ 0) :
    execSbrM sz hi lo offset value s = .next (failed 5#4 s) := by
  simp only [execSbrM, widthOf_eq_some.mpr w]
  exact if_neg (by simp [offsetAligned, misaligned])

/-- Settles O14. -/
theorem mappedMisalignedOffset : Obligations.MappedMisalignedOffset := by
  unfold Obligations.MappedMisalignedOffset
  intro sz n hi lo offset value s w misaligned
  exact ⟨execSbrM_of_misaligned w hi lo value s misaligned, execSbrM_of_misaligned w hi hi value s misaligned⟩

/-! ## Whole registers -/

section
variable {n hi lo : Nat} {offset value : Word} {s : State} {r : RegRef}

theorem mappedState_register (found : registerAt s.params (mappedAddr s offset) (n / 8) = some r) :
    mappedState n hi lo offset value s = s.rmw r fun old => insertAt n old hi lo value.toNat := by
  simp only [mappedState, State.mappedValue, State.afterMappedRead, found, State.mappedWrite, State.rmw, afterRead_params]

theorem mappedNew_register (found : registerAt s.params (mappedAddr s offset) (n / 8) = some r) :
    mappedNew n hi lo offset value s = insertAt n (s.readValue r) hi lo value.toNat := by
  simp only [mappedNew, State.mappedValue, found]

end

theorem regBits_of_registerAt {p : Params} {sz : SizeCode} {a n : Nat} {r : RegRef} (w : HasWidth sz n)
    (found : registerAt p a (n / 8) = some r) : regBits p r = n := by
  rw [← regBytes_mul, (registerAt_some found).2, hasWidth_bytes w]

/-- R249, log 11: what a write of a STORAGE register does to the cache. -/
theorem tlbAfterWrite_storage {r : RegRef} (storage : r.regClass = .storage) (t : Tlb) :
    tlbAfterWrite r t = if r.shapesTranslation = true then ⟨true, true⟩ else t := by
  cases r with
  | tlbiS | tlbiNs => cases storage
  | _ => rfl

theorem tlbAfterWrite_w1c {r : RegRef} (fault : r.regClass = .w1c) (t : Tlb) : tlbAfterWrite r t = t := by
  cases r with
  | cbFsr | cbFar | cbFsynr | gfsr | gfar | gfsynr | topIsr => rfl
  | _ => cases fault

/-- An update cut to its width reads the image cut to it. -/
theorem insertAt_low (n : Nat) (image : Word) (hi lo val : Nat) : insertAt n (low n image) hi lo val = insertAt n image hi lo val :=
  insertAt_congr_image hi lo val fun p hp => by simp [hp]

/-- Settles O15: the update is the read-modify-write of the register. -/
theorem mappedStorageUpdate : Obligations.MappedStorageUpdate := by
  unfold Obligations.MappedStorageUpdate
  intro sz n hi lo offset value r s w h hn aligned found storage i mapped
  have found : registerAt s.params (mappedAddr s offset) (n / 8) = some r := found
  have bits := regBits_of_registerAt w found
  have old : s.readValue r = low n (s.regs.get r) := by rw [readValue_storage s r storage, bits]
  have new : mappedNew n hi lo offset value s = insertAt n (s.regs.get r) hi lo value.toNat := by
    rw [mappedNew_register found, old, insertAt_low]
  have content : (mappedState n hi lo offset value s).regs.get r = insertAt n (s.regs.get r) hi lo value.toNat := by
    rw [mappedState_register found, rmw_get_storage s r _ storage, bits, low_insertAt, insertAt_low]
  refine ⟨_, exec_mapped s mapped w h hn aligned, ?_, fun p hp => ?_, ?_, fun q other => ?_,
    mappedState_sameBanks n hi lo offset value s, mappedState_sameMemory n hi lo offset value s,
    sameHost_answered (mappedState_sameHost n hi lo offset value s) _ _ _, ?_, ?_⟩
  · rw [answered_rsp, answered_regs, content, new]
  · rw [answered_regs, content, insertAt_updatedBit _ value h hn hp]
  · rw [answered_trace, answered_regs, content, mappedState_register found, rmw_trace, old, bits, low_insertAt, insertAt_low]
    rfl
  · rw [answered_regs, mappedState_register found, rmw_get_other s r q _ (by simpa using other)]
  · rw [answered_envTick, mappedState_register found, rmw_envTick s r _ storage]
  · rw [answered_tlb, mappedState_register found, rmw_tlb, tlbAfterWrite_storage storage]

/-- Settles O16: of the bits the read showed, the write back clears those the new value holds. -/
theorem mappedW1cUpdateClears : Obligations.MappedW1cUpdateClears := by
  unfold Obligations.MappedW1cUpdateClears
  intro sz n hi lo offset value r s w h hn aligned found fault i mapped
  have found : registerAt s.params (mappedAddr s offset) (n / 8) = some r := found
  have bits := regBits_of_registerAt w found
  have new := mappedNew_register (hi := hi) (lo := lo) (value := value) found
  have content : (mappedState n hi lo offset value s).regs.get r = s.readValue r &&& ~~~(mappedNew n hi lo offset value s) := by
    rw [mappedState_register found, State.rmw, regWrite_get_w1c _ _ _ fault, afterRead_get_w1c s r fault, afterRead_params, bits,
      low_insertAt, new]
  refine ⟨_, s.readValue r, _, exec_mapped s mapped w h hn aligned, rfl, ?_, fun p hp held => ?_, fun p hp => ?_,
    fun q other => ?_, mappedState_sameBanks n hi lo offset value s, mappedState_sameMemory n hi lo offset value s,
    sameHost_answered (mappedState_sameHost n hi lo offset value s) _ _ _, ?_⟩
  · rw [answered_trace, mappedState_register found, rmw_trace, bits, low_insertAt, new]
    rfl
  · exact readValue_w1c_shows s r fault p (bits ▸ hp) held
  · have above : ¬ p < n → (s.readValue r).getLsbD p = false := fun out =>
      toNat_lt_two_pow_iff.mp (readValue_lt s r) p (by omega)
    rw [answered_regs, content, BitVec.getLsbD_and, BitVec.getLsbD_not, new, insertAt_updatedBit _ value h hn hp, updatedBit]
    by_cases inside : lo ≤ p ∧ p ≤ hi
    · simp [inside, hp]
    · rw [if_neg inside, ← Bool.decide_and, decide_eq_false inside]
      by_cases inWidth : p < n
      · simp [inWidth, hp]
      · simp [above inWidth]
  · rw [answered_regs, mappedState_register found, rmw_get_other s r q _ (by simpa using other)]
  · rw [answered_tlb, mappedState_register found, rmw_tlb, tlbAfterWrite_w1c fault]

/-- R38: a read-modify-write of a trigger register leaves every register alone: the trigger holds nothing. -/
theorem rmw_trigger_get {r : RegRef} (s : State) (f : Word → Word) (trigger : r.regClass = .wtrig) (q : RegRef) :
    (s.rmw r f).regs.get q = s.regs.get q := by
  simp only [State.rmw, State.regWrite, State.regsAfterWrite, State.afterRead, State.regsAfterRead, trigger]

/-- A mapped update of either trigger changes nothing but the cache. -/
theorem exec_mapped_trigger {hi lo : Nat} {offset value : Word} {i : Instr} {s : State} {r : RegRef}
    (mapped : IsMapped .w32 hi lo offset value i) (h : lo ≤ hi) (hn : hi < 32) (aligned : offset.toNat % 4 = 0)
    (trigger : r.regClass = .wtrig) (found : registerAt s.params (mappedAddr s offset) (32 / 8) = some r) :
    ∃ t : State, exec i s = .next t ∧ t.rsp.status = 0#4 ∧ t.tlb = tlbAfterWrite r s.tlb ∧ SameRegsBut [] s t ∧ SameBanks s t
      ∧ SameMemory s t ∧ SameHost s t := by
  refine ⟨_, exec_mapped s mapped (.inr (.inl ⟨rfl, rfl⟩)) h hn aligned, rfl, ?_, fun q _ => ?_,
    mappedState_sameBanks 32 hi lo offset value s, mappedState_sameMemory 32 hi lo offset value s,
    sameHost_answered (mappedState_sameHost 32 hi lo offset value s) _ _ _⟩
  · rw [answered_tlb, mappedState_register found, rmw_tlb]
  · rw [answered_regs, mappedState_register found, rmw_trigger_get s _ trigger]

/-- Settles O17. -/
theorem mappedTriggerUpdate : Obligations.MappedTriggerUpdate := by
  unfold Obligations.MappedTriggerUpdate
  intro hi lo offset value s h hn aligned i mapped
  exact ⟨fun found => exec_mapped_trigger mapped h hn aligned rfl found,
    fun found => exec_mapped_trigger mapped h hn aligned rfl found⟩

theorem scr0_getLsbD (s : State) {p : Nat} (hp : p < 32) : (s.regs.get .scr0).getLsbD p = s.regs.scr0.getLsbD p := by
  have inWord : p < 64 := by omega
  show (s.regs.scr0.setWidth 64).getLsbD p = _
  rw [BitVec.getLsbD_setWidth, decide_eq_true inWord, Bool.true_and]

/-- Settles O20: the mapped update of `SCR0` at one bit. -/
theorem bypassSwitchChangesOneBit : Obligations.BypassSwitchChangesOneBit := by
  unfold Obligations.BypassSwitchChangesOneBit
  intro offset value s inScr0 aligned found
  let b := s.params.field.scr0BypassBit
  obtain ⟨t, run, rsp, bits, -, regs, banks, memory, host, -, cache⟩ :=
    mappedStorageUpdate .w32 32 b b offset value .scr0 s (.inr (.inl ⟨rfl, rfl⟩)) le_rfl inScr0 aligned found rfl
      (.sbM .w32 b offset value) (.inr ⟨rfl, rfl⟩)
  refine ⟨t, run, by rw [rsp], ?_, fun p hp other => ?_, regs, banks, memory, host, cache⟩
  · rw [State.bypassAll, host.params, ← scr0_getLsbD t inScr0, bits b (by omega), updatedBit, if_pos ⟨le_rfl, le_rfl⟩,
      Nat.sub_self]
  · rw [← scr0_getLsbD t hp, bits p (by omega), updatedBit, if_neg (by omega), scr0_getLsbD s hp, decide_eq_true hp,
      Bool.true_and]

/-! ## Which register an address is (R40, R118) -/

theorem registerOfByte_eq {p : Params} (map : mapAdmissible p) {r : RegRef} {a : Nat}
    (mine : regAddr p r ≤ a ∧ a < regAddr p r + regBytes p r) : registerOfByte p a = some r := by
  have found : (registerOfByte p a).isSome := List.find?_isSome.mpr ⟨r, mem_allRegs r, by simpa using mine⟩
  obtain ⟨q, hq⟩ := Option.isSome_iff_exists.mp found
  rw [hq, register_of_byte_unique map (registerOfByte_some hq) mine]

theorem registerAt_eq {p : Params} (map : mapAdmissible p) (r : RegRef) :
    registerAt p (regAddr p r) (regBytes p r) = some r := by
  have found : (registerAt p (regAddr p r) (regBytes p r)).isSome :=
    List.find?_isSome.mpr ⟨r, mem_allRegs r, by simp⟩
  obtain ⟨q, hq⟩ := Option.isSome_iff_exists.mp found
  obtain ⟨addr, size⟩ := registerAt_some hq
  have pos := regBytes_pos p r
  rw [hq, register_of_byte_unique map (r := q) (q := r) (a := regAddr p r) (by omega) (by omega)]

/-- Settles O21. -/
theorem registerBytesResolve : Obligations.RegisterBytesResolve := by
  unfold Obligations.RegisterBytesResolve
  exact fun p r map => ⟨registerAt_eq map r, fun k hk => registerOfByte_eq map (by omega)⟩

/-- Settles O22. -/
theorem storageReadsLastWrite : Obligations.StorageReadsLastWrite := by
  unfold Obligations.StorageReadsLastWrite
  intro s r q v storage
  refine ⟨?_, fun other => ?_, fun other => ?_⟩
  · rintro rfl
    rw [readValue_storage _ _ storage, regWrite_get_storage _ _ _ storage, regWrite_params, low_low]
  · rw [readValue_storage _ _ storage, readValue_storage _ _ storage, regWrite_get_other _ _ _ _ other.symm, regWrite_params]
  · rw [readValue_storage _ _ storage, readValue_storage _ _ storage, afterRead_get_other _ _ _ other.symm, afterRead_params]

/-! ## Bytes that are not exactly one register (U6, U7) -/

section
variable {n hi lo : Nat} {offset value : Word} {s : State}

theorem afterMappedRead_regs_of_none {a : Nat} (none : registerAt s.params a n = none) :
    (s.afterMappedRead a n).regs = s.regs := by
  simp [State.afterMappedRead, none]

theorem mappedState_of_none (none : registerAt s.params (mappedAddr s offset) (n / 8) = none) :
    mappedState n hi lo offset value s = (s.afterMappedRead (mappedAddr s offset) (n / 8)).mixedWrite (mappedAddr s offset)
      (n / 8) (insertAt n (s.mixedWord (mappedAddr s offset) (n / 8)) hi lo value.toNat) := by
  simp [mappedState, State.mappedWrite, State.mappedValue, none]

theorem mappedState_get_other_of_none (none : registerAt s.params (mappedAddr s offset) (n / 8) = none) {q : RegRef}
    (apart : regAddr s.params q + regBytes s.params q ≤ mappedAddr s offset ∨ mappedAddr s offset + n / 8 ≤ regAddr s.params q) :
    (mappedState n hi lo offset value s).regs.get q = s.regs.get q := by
  rw [mappedState_of_none none, mixedWrite_get_other _ _ _ _ _ (by simpa using apart), afterMappedRead_regs_of_none none]

end

/-- Settles O18: no register is read, and the write reaches only registers it covers. -/
theorem mappedElsewhereFrame : Obligations.MappedElsewhereFrame := by
  unfold Obligations.MappedElsewhereFrame
  intro sz n hi lo offset value s w h hn aligned none i mapped
  exact ⟨_, exec_mapped s mapped w h hn aligned, rfl, mappedState_sameBanks n hi lo offset value s,
    mappedState_sameMemory n hi lo offset value s, sameHost_answered (mappedState_sameHost n hi lo offset value s) _ _ _,
    fun q apart => mappedState_get_other_of_none none apart⟩

/-! ## Narrow updates of a STORAGE register (R57, log 8) -/

section
variable {p : Params} {r : RegRef} {a k : Nat}

theorem regBits_le_heldBits (storage : r.regClass = .storage) : regBits p r ≤ heldBits r := by
  cases r with
  | cbTtbr i =>
    show regBits p (.cbTtbr i) ≤ 64
    rcases regBits_cases p (.cbTtbr i) with h | h <;> omega
  | cbFsr | cbFar | cbFsynr | gfsr | gfar | gfsynr | topIsr | tlbiS | tlbiNs => cases storage
  | _ => exact le_rfl

/-- A byte written into a STORAGE register replaces that byte of it. -/
theorem writeMixedByte_storage (map : mapAdmissible p) (storage : r.regClass = .storage) (start : a = regAddr p r + k)
    (tick : Nat) (v : Word) (f : RegFile) {m : Nat} (inside : k + m < regBytes p r) :
    writeMixedByte p tick v a f m = f.set r (putByte (f.get r) (k + m) (byteOf v m)) := by
  have mine : registerOfByte p (a + m) = some r := registerOfByte_eq map (by omega)
  have distance : a + m - regAddr p r = k + m := by omega
  simp [writeMixedByte, mine, storage, distance]

/-- The bytes written into a STORAGE register replace those bytes of it and touch no other register. -/
theorem foldl_writeMixedByte_storage (map : mapAdmissible p) (storage : r.regClass = .storage) (start : a = regAddr p r + k)
    (tick : Nat) (v : Word) (f : RegFile) (m : Nat) (inside : k + m ≤ regBytes p r) :
    (∀ q, q ≠ r → ((List.range m).foldl (writeMixedByte p tick v a) f).get q = f.get q)
      ∧ ∀ b, b < regBits p r → (((List.range m).foldl (writeMixedByte p tick v a) f).get r).getLsbD b =
          if 8 * k ≤ b ∧ b < 8 * (k + m) then v.getLsbD (b - 8 * k) else (f.get r).getLsbD b := by
  induction m with
  | zero => exact ⟨fun _ _ => rfl, fun b _ => by rw [if_neg (by omega)]; rfl⟩
  | succ m ih =>
    obtain ⟨others, bits⟩ := ih (by omega)
    rw [List.range_succ, List.foldl_append, List.foldl_cons, List.foldl_nil,
      writeMixedByte_storage map storage start _ _ _ (by omega)]
    refine ⟨fun q other => (get_set_other _ _ _ _ other).trans (others q other), fun b hb => ?_⟩
    have held : b < heldBits r := hb.trans_le (regBits_le_heldBits storage)
    rw [get_set_same, low_getLsbD, decide_eq_true held, Bool.true_and, putByte, setBitRange_getLsbD _ _ _ _ _ (by omega), bits b hb]
    have inWord : b < 64 := by rcases regBits_cases p r with h | h <;> omega
    by_cases here : 8 * (k + m) ≤ b ∧ b ≤ 8 * (k + m) + 7
    · have inByte : b - 8 * (k + m) < 8 := by omega
      have place : 8 * m + (b - 8 * (k + m)) = b - 8 * k := by omega
      rw [if_pos (by omega), if_pos (by omega), BitVec.testBit_toNat, byteOf_getLsbD, decide_eq_true inByte, Bool.true_and, place]
    · rw [if_neg (by omega)]
      by_cases before : 8 * k ≤ b ∧ b < 8 * (k + m)
      · rw [if_pos before, if_pos (by omega)]
      · rw [if_neg before, if_neg (by omega)]

/-- The bytes read from a STORAGE register are those bytes of its content. -/
theorem mixedWord_storage {s : State} (map : mapAdmissible s.params) (storage : r.regClass = .storage)
    (start : a = regAddr s.params r + k) {m b : Nat} (inside : k + m ≤ regBytes s.params r) (hb : b < 8 * m) :
    (s.mixedWord a m).getLsbD b = (s.regs.get r).getLsbD (8 * k + b) := by
  have inWord : b < 64 := by rcases regBytes_cases s.params r with h | h <;> omega
  have mine : registerOfByte s.params (a + b / 8) = some r := registerOfByte_eq map (by omega)
  have inRange : b / 8 < m := by omega
  have inByte : b % 8 < 8 := by omega
  have place : 8 * (a + b / 8 - regAddr s.params r) + b % 8 = 8 * k + b := by omega
  rw [State.mixedWord, wordOfBytes_getLsbD _ _ inWord, List.getElem?_map, List.getElem?_range inRange]
  simp only [Option.map_some, Option.getD_some, State.mixedByte, mine, storage]
  rw [byteOf_getLsbD, decide_eq_true inByte, Bool.true_and, place]

/-- Bytes inside a wider register are exactly no register. -/
theorem registerAt_narrow {m : Nat} (map : mapAdmissible p) (start : a = regAddr p r + k) (inside : k + m ≤ regBytes p r)
    (narrow : m < regBytes p r) : registerAt p a m = none := by
  cases found : registerAt p a m with
  | none => rfl
  | some q =>
    obtain ⟨addr, size⟩ := registerAt_some found
    have pos := regBytes_pos p q
    have same : q = r := register_of_byte_unique map (a := a) (by omega) (by omega)
    subst same
    omega

end

/-- Settles O19: the bytes read are the register's, the bytes written replace them, and between them the field is updated. -/
theorem mappedNarrowStorageUpdate : Obligations.MappedNarrowStorageUpdate := by
  unfold Obligations.MappedNarrowStorageUpdate
  intro sz n hi lo k offset value r s w h hn aligned storage start inside narrow map i mapped
  have start : mappedAddr s offset = regAddr s.params r + k := start
  have bytes := hasWidth_bytes w
  have inWidth : n ≤ 64 := hasWidth_le w
  have none := registerAt_narrow map start inside narrow
  let v := insertAt n (s.mixedWord (mappedAddr s offset) (n / 8)) hi lo value.toNat
  obtain ⟨others, bits⟩ := foldl_writeMixedByte_storage map storage start (s.envTick + 1) v s.regs (n / 8) inside
  have regs : (mappedState n hi lo offset value s).regs =
      (List.range (n / 8)).foldl (writeMixedByte s.params (s.envTick + 1) v (mappedAddr s offset)) s.regs := by
    simp [mappedState_of_none none, State.mixedWrite, State.afterMappedRead, none, v]
  refine ⟨_, exec_mapped s mapped w h hn aligned, rfl, fun b hb => ?_, fun q other => ?_,
    mappedState_sameBanks n hi lo offset value s, mappedState_sameMemory n hi lo offset value s,
    sameHost_answered (mappedState_sameHost n hi lo offset value s) _ _ _⟩
  · rw [answered_regs, regs, bits b hb]
    by_cases written : 8 * k ≤ b ∧ b < 8 * (k + n / 8)
    · have old : (s.mixedWord (mappedAddr s offset) (n / 8)).getLsbD (b - 8 * k) = (s.regs.get r).getLsbD b := by
        rw [mixedWord_storage map storage start inside (by omega), Nat.add_sub_cancel' written.1]
      have inImage : b - 8 * k < n := by omega
      rw [if_pos written, insertAt_updatedBit _ value h hn (by omega), updatedBit, old, decide_eq_true inImage, Bool.true_and]
      by_cases field : 8 * k + lo ≤ b ∧ b ≤ 8 * k + hi
      · rw [if_pos (by omega), if_pos field, Nat.sub_sub]
      · rw [if_neg (by omega), if_neg field]
    · rw [if_neg written, if_neg (by omega)]
  · rw [answered_regs, regs, others q (by simpa using other)]

end Sys2Proof.Machine
end

section
/-! PROOFS. The translation-table builder (spec/41_table_builder.md R130-R139) and the walk of an identity table
(spec/20_memory.md R72-R76). -/

namespace Sys2Proof.Machine

open Sys2Proof.Claim

/-! ## Built entries (R130-R134) -/

theorem outputAddrHi_bounds (aw : AddrWidth) : 30 ≤ outputAddrHi aw ∧ outputAddrHi aw < 64 := by
  cases aw <;> decide

/-- R130: a built entry, bit by bit. -/
theorem buildEntry_getLsbD (template : Word) (aw : AddrWidth) (flags oa : Word) {p : Nat} (hp : p < 64) :
    (buildEntry template aw flags oa).getLsbD p =
      if 30 ≤ p ∧ p ≤ outputAddrHi aw then oa.getLsbD (p - 30)
      else template.getLsbD p || (decide (2 ≤ p) && flags.getLsbD p) := by
  obtain ⟨low, high⟩ := outputAddrHi_bounds aw
  have cleared : (~~~0x3#64).getLsbD p = decide (2 ≤ p) := by
    rw [BitVec.getLsbD_not, decide_eq_true hp, Bool.true_and]
    by_cases h : p < 2
    · interval_cases p <;> rfl
    · have above : (0x3#64).getLsbD p = false := Nat.testBit_lt_two_pow (by
        calc 3 < 2 ^ 2 := by decide
          _ ≤ 2 ^ p := Nat.pow_le_pow_right (by decide) (by omega))
      rw [above, decide_eq_true (by omega)]
      rfl
  rw [buildEntry, setBitRange_getLsbD _ _ _ _ _ low, BitVec.testBit_toNat, BitVec.getLsbD_or, BitVec.getLsbD_and, cleared,
    Bool.and_comm (flags.getLsbD p)]
  by_cases inside : 30 ≤ p ∧ p ≤ outputAddrHi aw
  · rw [if_pos inside, if_pos ⟨inside.1, inside.2, hp⟩]
  · rw [if_neg inside, if_neg fun h => inside ⟨h.1, h.2.1⟩]

/-- Settles O23. -/
theorem buildEntryResult : Obligations.BuildEntryResult := by
  unfold Obligations.BuildEntryResult
  intro aw flags oa s admitted
  have hi : outputAddrHi aw = if aw = .w32 then 39 else 47 := by cases aw <;> rfl
  exact ⟨_, execTtBuild_of_ok flags oa admitted, fun p hp => hi ▸ buildEntry_getLsbD _ aw flags oa hp⟩

/-- The address field of a built entry is the operand, cut to the field (R133). -/
theorem entryOutputAddr_buildEntry (template : Word) (aw : AddrWidth) (flags oa : Word) :
    entryOutputAddr aw (buildEntry template aw flags oa) = oa.toNat % 2 ^ (outputAddrHi aw - 30 + 1) :=
  fieldOf_setBitRange _ _ (outputAddrHi_bounds aw).1 (outputAddrHi_bounds aw).2

theorem entryValid_buildEntry {template : Word} (aw : AddrWidth) (flags oa : Word) (valid : template.getLsbD 0 = true) :
    entryValid (buildEntry template aw flags oa) = true := by
  rw [entryValid, buildEntry_getLsbD _ _ _ _ (by decide), if_neg (by omega), valid, Bool.true_or]

theorem entryIsBlock_buildEntry {template : Word} (aw : AddrWidth) (flags oa : Word) (block : template.getLsbD 1 = false) :
    entryIsBlock (buildEntry template aw flags oa) = true := by
  rw [entryIsBlock, buildEntry_getLsbD _ _ _ _ (by decide), if_neg (by omega), block]
  rfl

/-- Settles O24. -/
theorem builtEntryIsValidBlock : Obligations.BuiltEntryIsValidBlock := by
  unfold Obligations.BuiltEntryIsValidBlock
  intro aw flags oa s admitted valid block
  refine ⟨_, execTtBuild_of_ok flags oa admitted, entryValid_buildEntry aw flags oa valid,
    entryIsBlock_buildEntry aw flags oa block, ?_, ?_⟩
  · rintro rfl
    exact entryOutputAddr_buildEntry _ .w32 flags oa
  · rintro rfl
    exact entryOutputAddr_buildEntry _ .w64 flags oa

/-- Settles O25: the guard comes first in both commands, and a command it lets by completes. -/
theorem wideWidthGuarded : Obligations.WideWidthGuarded := by
  unfold Obligations.WideWidthGuarded
  intro s
  refine ⟨fun refused => ?_, fun admitted => ?_⟩
  · have guard : w64Refused .w64 s = true := by simp [w64Refused, refused]
    exact ⟨fun flags oa => if_pos guard, fun idx => if_pos guard⟩
  · refine ⟨fun flags oa => ⟨_, execTtBuild_of_ok flags oa (.inr admitted), rfl⟩, fun i free => ?_⟩
    refine ⟨_, execCbAmode_of_ok (.inr admitted) free, rfl, ?_⟩
    show ((s.rmw (.cba2r i) (amodeImage s.params.field .w64)).setBankAw i .w64).bankAw i = .w64
    rw [setBankAw_bankAw, if_pos rfl]

/-! ## Table writes (R135, R136) -/

/-- Settles O26. -/
theorem tableWriteStoresEntry : Obligations.TableWriteStoresEntry := by
  unfold Obligations.TableWriteStoresEntry
  intro idx table entry s wf aligned room inTable
  exact ⟨_, execTtWrite_of_ok entry s aligned room inTable, rfl, read64_write64_same s.tableMem _ entry wf,
    fun k hk => read_write64_same s.tableMem _ k entry wf hk, fun a out => read_write64_other s.tableMem _ a entry wf out,
    rfl, rfl, fun i => ⟨rfl, rfl⟩, ⟨rfl, rfl, rfl, rfl, rfl, rfl⟩, rfl, rfl⟩

theorem tableAddrOk_of_bad {table : Word} (bad : table.toNat % 8 ≠ 0 ∨ 2 ^ 64 - 32 < table.toNat) :
    ¬ tableAddrOk table = true := by
  rw [tableAddrOk_iff]
  omega

/-- Settles O27. -/
theorem tableAddressAndIndexChecked : Obligations.TableAddressAndIndexChecked := by
  unfold Obligations.TableAddressAndIndexChecked
  intro idx table entry s
  refine ⟨fun bad => ⟨if_neg (tableAddrOk_of_bad bad), if_neg (tableAddrOk_of_bad bad)⟩, fun aligned room beyond => ?_⟩
  show execTtWrite idx table entry s = _
  rw [execTtWrite, if_pos (tableAddrOk_iff.mpr ⟨aligned, room⟩), if_neg (by omega)]
  rfl

/-- A word reads as before where its eight bytes do. -/
theorem read64_write64_other (m : Memory) (a x : Nat) (v : Word) (wf : m.wf) (apart : x + 8 ≤ a ∨ a + 8 ≤ x) :
    (m.write64 a v).read64 x = m.read64 x := by
  have bytes : ∀ (k y : Nat), (y + k ≤ a ∨ a + 8 ≤ y) → (m.write64 a v).readBytes y k = m.readBytes y k := by
    intro k
    induction k with
    | zero => exact fun _ _ => rfl
    | succ k ih =>
      intro y out
      rw [Memory.readBytes, Memory.readBytes, read_write64_other m a y v wf (by omega), ih (y + 1) (by omega)]
  rw [Memory.read64, Memory.read64, bytes 8 x apart]

theorem zeroedState_tableMem (table : Word) (s : State) :
    (zeroedState table s).tableMem = (((s.tableMem.write64 (entryAddr table 0) 0#64).write64 (entryAddr table 1) 0#64).write64
      (entryAddr table 2) 0#64).write64 (entryAddr table 3) 0#64 := by
  simp [zeroedState]

/-- The table memory the four writes of `TT.ZERO` leave: zero in the four entries, elsewhere as it was. -/
theorem zeroedState_read64 (table : Word) (s : State) (wf : s.tableMem.wf) {k : Nat} (hk : k < 4) :
    (zeroedState table s).tableMem.read64 (entryAddr table k) = some 0#64 := by
  have wf0 := write64_wf (entryAddr table 0) 0#64 wf
  have wf1 := write64_wf (entryAddr table 1) 0#64 wf0
  have wf2 := write64_wf (entryAddr table 2) 0#64 wf1
  have apart {i j : Nat} (h : i < j) : entryAddr table i + 8 ≤ entryAddr table j := by
    unfold entryAddr
    omega
  rw [zeroedState_tableMem]
  interval_cases k
  · rw [read64_write64_other _ _ _ _ wf2 (.inl (apart (by decide))), read64_write64_other _ _ _ _ wf1 (.inl (apart (by decide))),
      read64_write64_other _ _ _ _ wf0 (.inl (apart (by decide))), read64_write64_same _ _ _ wf]
  · rw [read64_write64_other _ _ _ _ wf2 (.inl (apart (by decide))), read64_write64_other _ _ _ _ wf1 (.inl (apart (by decide))),
      read64_write64_same _ _ _ wf0]
  · rw [read64_write64_other _ _ _ _ wf2 (.inl (apart (by decide))), read64_write64_same _ _ _ wf1]
  · exact read64_write64_same _ _ _ wf2

theorem zeroedState_read_other (table : Word) (s : State) (wf : s.tableMem.wf) {a : Nat}
    (out : a < table.toNat ∨ table.toNat + 32 ≤ a) : (zeroedState table s).tableMem.read a = s.tableMem.read a := by
  have wf0 := write64_wf (entryAddr table 0) 0#64 wf
  have wf1 := write64_wf (entryAddr table 1) 0#64 wf0
  have wf2 := write64_wf (entryAddr table 2) 0#64 wf1
  have apart {k : Nat} (hk : k < 4) : a < entryAddr table k ∨ entryAddr table k + 8 ≤ a := by
    unfold entryAddr
    omega
  rw [zeroedState_tableMem, read_write64_other _ _ _ _ wf2 (apart (by decide)), read_write64_other _ _ _ _ wf1 (apart (by decide)),
    read_write64_other _ _ _ _ wf0 (apart (by decide)), read_write64_other _ _ _ _ wf (apart (by decide))]

theorem zeroedState_sameBanks (table : Word) (s : State) : SameBanks s (zeroedState table s) := fun i => by
  simp [State.bankState, State.bankAw, zeroedState]

theorem zeroedState_sameHost (table : Word) (s : State) : SameHost s (zeroedState table s) := by
  constructor <;> simp [zeroedState]

/-- Settles O28. -/
theorem tableZeroClearsFourEntries : Obligations.TableZeroClearsFourEntries := by
  unfold Obligations.TableZeroClearsFourEntries
  intro table s wf aligned room
  refine ⟨_, execTtZero_of_ok s aligned room, rfl, fun k hk => ?_, fun a out => ?_, ?_, ?_,
    sameBanks_answered (zeroedState_sameBanks table s) _ _ _, sameHost_answered (zeroedState_sameHost table s) _ _ _, ?_, ?_⟩
  · rw [answered_tableMem]
    exact zeroedState_read64 table s wf hk
  · rw [answered_tableMem]
    exact zeroedState_read_other table s wf out
  · rw [answered_trace]
    exact zeroedState_trace table s
  · simp [zeroedState]
  · simp [zeroedState]
  · simp [zeroedState, Tlb.stale]

/-! ## The identity table (R139) -/

/-- The field of a number is clear when its bits are. -/
theorem fieldOf_eq_zero {v hi lo : Nat} (h : lo ≤ hi) (clear : ∀ p, lo ≤ p → p ≤ hi → v.testBit p = false) :
    fieldOf v hi lo = 0 := by
  apply Nat.eq_of_testBit_eq
  intro p
  rw [fieldOf_testBit, Nat.zero_testBit]
  by_cases hp : p < hi - lo + 1
  · rw [clear (lo + p) (by omega) (by omega), Bool.and_false]
  · rw [decide_eq_false hp, Bool.false_and]

theorem testBit_of_fieldOf_eq_zero {v hi lo p : Nat} (zero : fieldOf v hi lo = 0) (low : lo ≤ p) (high : p ≤ hi) :
    v.testBit p = false := by
  have bit := congrArg (fun w => w.testBit (p - lo)) zero
  have inside : p - lo < hi - lo + 1 := by omega
  simpa [fieldOf_testBit, inside, Nat.add_sub_cancel' low] using bit

/-- A bit above 39 of an entry built with no flags at W32 is the template's. -/
theorem buildEntry_noFlags_getLsbD (template oa : Word) {p : Nat} (out : p < 30 ∨ 39 < p) (hp : p < 64) :
    (buildEntry template .w32 0#64 oa).getLsbD p = template.getLsbD p := by
  rw [buildEntry_getLsbD _ _ _ _ hp, if_neg (show ¬ (30 ≤ p ∧ p ≤ outputAddrHi .w32) by simp [outputAddrHi]; omega)]
  simp

/-- R72: an entry built for block `k` without flags, on a template that is a valid block without reserved bits, is a block
that the walk takes. -/
theorem walkEntry_buildEntry {template : Word} (pre : WalkPremises) (oa : Word) (va : BitVec 32)
    (valid : template.getLsbD 0 = true) (block : template.getLsbD 1 = false) (blockZero : entryBlockZero template = 0#18)
    (reserved : entryReserved .w32 template = 0) :
    walkEntry pre (some (buildEntry template .w32 0#64 oa)) va =
      if pre.permitted then .output (blockOutput (buildEntry template .w32 0#64 oa) va) else .permissionFault := by
  have clear (p : Nat) (low : 40 ≤ p) (high : p ≤ 52) : (buildEntry template .w32 0#64 oa).toNat.testBit p = false := by
    rw [BitVec.testBit_toNat, buildEntry_noFlags_getLsbD template oa (.inr (by omega)) (by omega)]
    exact testBit_of_fieldOf_eq_zero (hi := 52) (lo := 40) reserved low high
  have defined : fieldOf (buildEntry template .w32 0#64 oa).toNat 47 40 = 0 :=
    fieldOf_eq_zero (by decide) fun p low high => clear p low (by omega)
  have unreserved : entryReserved .w64 (buildEntry template .w32 0#64 oa) = 0 :=
    fieldOf_eq_zero (hi := 52) (lo := 48) (by decide) fun p low high => clear p (by omega) high
  have unused : entryBlockZero (buildEntry template .w32 0#64 oa) = 0#18 := by
    rw [← blockZero]
    apply BitVec.eq_of_getLsbD_eq
    intro p hp
    rw [entryBlockZero, entryBlockZero, BitVec.getLsbD_extractLsb', BitVec.getLsbD_extractLsb',
      buildEntry_noFlags_getLsbD template oa (.inl (by omega)) (by omega)]
  simp only [walkEntry, entryValid_buildEntry .w32 0#64 oa valid, entryIsBlock_buildEntry .w32 0#64 oa block, defined, unreserved,
    unused]
  cases pre.permitted <;> rfl

/-- R72: block `k` at slot `k`: the output address of the slot an address selects is the address. -/
theorem blockOutput_identity (template : Word) (va : BitVec 32) :
    blockOutput (buildEntry template .w32 0#64 (BitVec.ofNat 64 (fieldOf va.toNat 31 30))) va = va.toNat := by
  have slot : fieldOf va.toNat 31 30 < 4 := Nat.mod_lt _ (by decide)
  have addr : entryOutputAddr .w32 (buildEntry template .w32 0#64 (BitVec.ofNat 64 (fieldOf va.toNat 31 30)))
      = fieldOf va.toNat 31 30 := by
    rw [entryOutputAddr_buildEntry, BitVec.toNat_ofNat, show outputAddrHi .w32 - 30 + 1 = 10 from rfl]
    omega
  rw [blockOutput, addr]
  apply Nat.eq_of_testBit_eq
  intro p
  rw [Nat.testBit_or, Nat.testBit_shiftLeft, fieldOf_testBit, fieldOf_testBit]
  have above : 32 ≤ p → va.toNat.testBit p = false := fun h => BitVec.getLsbD_of_ge va p h
  by_cases low : p < 30
  · simp [low, Nat.not_le_of_lt low]
  · have place : 30 + (p - 30) = p := by omega
    by_cases high : p < 32
    · have inside : p - 30 < 2 := by omega
      simp [low, Nat.le_of_not_lt low, inside, place]
    · simp [low, Nat.le_of_not_lt low, place, above (by omega)]

/-- R72: with every premise met, the whole 4 GiB as the region and a fresh cache, the walk is what the slot's entry gives. -/
theorem walk_of_premises {pre : WalkPremises} {s : State} {i : Fin 16} (va : BitVec 32) (broughtUp : pre.broughtUp = true)
    (single : pre.singleStage = true) (codes : pre.codesFit = true) (long : pre.longDescriptors = true)
    (enabled : ctrlEnabled s i = true) (format : formatIsW64 s i = false) (t0sz : t0szOf s i = 0)
    (fresh : s.tlb = ⟨false, false⟩) :
    walk pre s i va = walkEntry pre (s.tableMem.read64 (walkAddr s i va)) va := by
  have region : regionWidth s i = some 32 := by rw [regionWidth, format, t0sz]; rfl
  have inside : ¬ 2 ^ 32 ≤ va.toNat := Nat.not_le_of_lt va.isLt
  simp only [walk, broughtUp, enabled, format, single, codes, long, fresh, region, inside]
  rfl

/-- Settles O29: the slot an address selects holds the block of that number, and the walk takes it. -/
theorem identityTableMapsToItself : Obligations.IdentityTableMapsToItself := by
  unfold Obligations.IdentityTableMapsToItself
  intro h s i table _ sound enabled format t0sz fresh base valid block blockZero reserved slots va
  have inTable : fieldOf va.toNat 31 30 < 4 := Nat.mod_lt _ (by decide)
  obtain ⟨u, v, run, params, slot⟩ := slots _ inTable
  have built : v.rsp.d0 = buildEntry s.params.template .w32 0#64 (BitVec.ofNat 64 (fieldOf va.toNat 31 30)) := by
    have answer := execTtBuild_of_ok (aw := .w32) 0#64 (BitVec.ofNat 64 (fieldOf va.toNat 31 30)) (s := u) (.inl rfl)
    obtain rfl : v = _ := by simpa using run.symm.trans answer
    rw [answered_rsp, params]
  have entry : s.tableMem.read64 (walkAddr s i va) =
      some (buildEntry s.params.template .w32 0#64 (BitVec.ofNat 64 (fieldOf va.toNat 31 30))) := by
    rw [walkAddr, base, slot, built]
  have walked (permitted : Bool) : walk ⟨soundlyEnabled s.params i h, true, true, true, permitted⟩ s i va =
      if permitted then .output va.toNat else .permissionFault := by
    rw [walk_of_premises va sound rfl rfl rfl enabled format t0sz fresh, entry,
      walkEntry_buildEntry _ _ va valid block blockZero reserved, blockOutput_identity]
  exact ⟨walked true, walked false⟩

end Sys2Proof.Machine
end

section
/-! PROOFS. The fault reporter, the TLB invalidator and the fault interrupt line (spec/44_fault_tlb.md R195-R198,
spec/60_exceptions.md R226). -/

namespace Sys2Proof.Machine

open Sys2Proof.Claim

/-! ## Reads of fault registers -/

/-- The bits the file holds of a register are all that can be set in it. -/
theorem lt_heldBits_of_get {f : RegFile} {r : RegRef} {p : Nat} (held : (f.get r).getLsbD p = true) : p < heldBits r := by
  rw [← low_get, low_getLsbD, Bool.and_eq_true] at held
  simpa using held.1

/-- A read leaves every bit of a fault register set (R63, log 5). -/
theorem afterRead_keeps {s : State} (r : RegRef) {q : RegRef} (fault : q.regClass = .w1c) {p : Nat}
    (inWidth : p < regBits s.params q) (held : (s.regs.get q).getLsbD p = true) :
    ((s.afterRead r).regs.get q).getLsbD p = true := by
  by_cases same : q = r
  · subst same
    rw [afterRead_get_w1c s q fault]
    exact readValue_w1c_shows s q fault p inWidth held
  · rwa [afterRead_get_other s r q same]

theorem afterRead_sameHost {s u : State} (host : SameHost s u) (r : RegRef) : SameHost s (u.afterRead r) :=
  ⟨host.cw, host.opa, host.opb, host.program, host.position, host.params⟩

theorem sameHost_refl (s : State) : SameHost s s := ⟨rfl, rfl, rfl, rfl, rfl, rfl⟩

/-- Settles O45: two reads, of two registers. -/
theorem globalFaultSnapshot : Obligations.GlobalFaultSnapshot := by
  unfold Obligations.GlobalFaultSnapshot
  intro s
  let s1 := s.afterRead .gfsr
  have shows {u : State} {r : RegRef} (fault : r.regClass = .w1c) (width : heldBits r = regBits u.params r) (p : Nat)
      (held : (u.regs.get r).getLsbD p = true) : (u.readValue r).getLsbD p = true :=
    readValue_w1c_shows u r fault p (width ▸ lt_heldBits_of_get held) held
  refine ⟨(s1.afterRead .gfar).answered (s.readValue .gfsr) (s1.readValue .gfar) 0#64, s.readValue .gfsr, s1.readValue .gfar,
    rfl, rfl, by simp [s1, readRec], readValue_lt s .gfsr, readValue_lt s1 .gfar, shows rfl rfl, fun p held => ?_, ?_, ?_,
    fun q other => ?_, fun i => ⟨rfl, rfl⟩, fun a => rfl,
    sameHost_answered (afterRead_sameHost (afterRead_sameHost (sameHost_refl s) _) _) _ _ _, rfl⟩
  · refine shows (u := s1) rfl rfl p ?_
    rwa [afterRead_get_other s .gfsr .gfar (by decide)]
  · rw [answered_regs, afterRead_get_other s1 .gfar .gfsr (by decide), afterRead_get_w1c s .gfsr rfl]
  · rw [answered_regs, afterRead_get_w1c s1 .gfar rfl]
  · obtain ⟨notStatus, notAddress⟩ : q ≠ .gfsr ∧ q ≠ .gfar := by simpa using other
    rw [answered_regs, afterRead_get_other s1 _ q notAddress, afterRead_get_other s _ q notStatus]

/-- Settles O46: three reads, of three registers. -/
theorem contextFaultSnapshot : Obligations.ContextFaultSnapshot := by
  unfold Obligations.ContextFaultSnapshot
  intro i s
  let s1 := s.afterRead (.cbFsr i)
  let s2 := s1.afterRead (.cbFar i)
  have farFsr : RegRef.cbFar i ≠ .cbFsr i := by simp
  have fsynrFsr : RegRef.cbFsynr i ≠ .cbFsr i := by simp
  have fsynrFar : RegRef.cbFsynr i ≠ .cbFar i := by simp
  refine ⟨_, s.readValue (.cbFsr i), s1.readValue (.cbFar i), s2.readValue (.cbFsynr i), execFrSnapc_of_ok i s, rfl,
    snapcState_trace i s, fun p held => ?_, fun p inWidth held => ?_, fun p held => ?_, ?_, ?_, ?_, fun q other => ?_,
    fun i => ⟨rfl, rfl⟩, fun a => rfl,
    sameHost_answered (afterRead_sameHost (afterRead_sameHost (afterRead_sameHost (sameHost_refl s) _) _) _) _ _ _, rfl⟩
  · exact readValue_w1c_shows s _ rfl p (lt_heldBits_of_get held) held
  · exact readValue_w1c_shows s1 _ rfl p inWidth (by rwa [afterRead_get_other s _ _ farFsr])
  · have inWidth : p < 32 := lt_heldBits_of_get held
    exact readValue_w1c_shows s2 _ rfl p inWidth (by rwa [afterRead_get_other s1 _ _ fsynrFar, afterRead_get_other s _ _ fsynrFsr])
  · rw [answered_regs, snapcState, afterRead_get_other _ _ _ fsynrFsr.symm, afterRead_get_other _ _ _ farFsr.symm,
      afterRead_get_w1c s _ rfl]
  · rw [answered_regs, snapcState, afterRead_get_other _ _ _ fsynrFar.symm, afterRead_get_w1c s1 _ rfl]
  · rw [answered_regs, snapcState, afterRead_get_w1c s2 _ rfl]
  · obtain ⟨notFsr, notFar, notFsynr⟩ : q ≠ .cbFsr i ∧ q ≠ .cbFar i ∧ q ≠ .cbFsynr i := by simpa using other
    rw [answered_regs, snapcState, afterRead_get_other _ _ q notFsynr, afterRead_get_other _ _ q notFar,
      afterRead_get_other _ _ q notFsr]

/-! ## The fault interrupt line (R43, R226) -/

theorem setWidth_ne_zero {v : BitVec 32} : v.setWidth 64 ≠ 0#64 ↔ v ≠ 0#32 := by
  rw [not_iff_not, ← BitVec.toNat_inj, ← BitVec.toNat_inj, BitVec.toNat_setWidth_of_le (by decide)]
  rfl

/-- The fault status registers that raise the line. -/
def RegRef.raisesLine : RegRef → Bool
  | .gfsr => true
  | .topIsr => true
  | .cbFsr _ => true
  | _ => false

theorem raisesLine_w1c {r : RegRef} (status : r.raisesLine = true) : r.regClass = .w1c ∧ ∀ p, regBits p r = heldBits r := by
  cases r with
  | gfsr | topIsr | cbFsr => exact ⟨rfl, fun _ => rfl⟩
  | _ => cases status

/-- R226: the line is pending exactly while a status is set. -/
theorem faultLine_iff (s : State) : s.faultLine = true ↔
    s.regs.get .gfsr ≠ 0#64 ∨ s.regs.get .topIsr ≠ 0#64 ∨ ∃ i : Fin 16, s.regs.get (.cbFsr i) ≠ 0#64 := by
  simp only [State.faultLine, RegFile.get, setWidth_ne_zero, indices, Bool.or_eq_true, bne_iff_ne, List.any_eq_true,
    List.mem_finRange, true_and, or_assoc]

theorem faultLine_iff_exists_bit (s : State) :
    s.faultLine = true ↔ ∃ r p, r.raisesLine = true ∧ (s.regs.get r).getLsbD p = true := by
  have someBit (v : Word) : v ≠ 0#64 ↔ ∃ p, v.getLsbD p = true := by
    constructor
    · intro set
      by_contra none
      exact set (BitVec.eq_of_getLsbD_eq fun p _ => by simpa using not_exists.mp none p)
    · rintro ⟨p, bit⟩ rfl
      simp at bit
  rw [faultLine_iff]
  simp only [someBit]
  constructor
  · rintro (⟨p, bit⟩ | ⟨p, bit⟩ | ⟨i, p, bit⟩)
    · exact ⟨.gfsr, p, rfl, bit⟩
    · exact ⟨.topIsr, p, rfl, bit⟩
    · exact ⟨.cbFsr i, p, rfl, bit⟩
  · rintro ⟨r, p, status, bit⟩
    cases r with
    | gfsr => exact .inl ⟨p, bit⟩
    | topIsr => exact .inr (.inl ⟨p, bit⟩)
    | cbFsr i => exact .inr (.inr ⟨i, p, bit⟩)
    | _ => cases status

/-- What keeps every bit of the fault registers keeps a pending line pending. -/
theorem faultLine_of_keeps {s u : State} (keeps : ∀ r p, r.regClass = .w1c → p < regBits s.params r →
    (s.regs.get r).getLsbD p = true → (u.regs.get r).getLsbD p = true) (pending : s.faultLine = true) : u.faultLine = true := by
  obtain ⟨r, p, status, bit⟩ := (faultLine_iff_exists_bit s).mp pending
  obtain ⟨fault, width⟩ := raisesLine_w1c status
  exact (faultLine_iff_exists_bit u).mpr ⟨r, p, status, keeps r p fault (width s.params ▸ lt_heldBits_of_get bit) bit⟩

theorem ne_of_classes {q r : RegRef} (fault : q.regClass = .w1c) (storage : r.regClass = .storage) : q ≠ r := by
  rintro rfl
  exact absurd (fault.symm.trans storage) (by decide)

/-- Every command but the clear and the two mapped ones writes no fault register, and reads keep their bits. -/
theorem Effect.keeps_fault_bits {s : State} {i : Instr} {u : State} (e : Effect s i u)
    (spares : i.op ∉ [Op.frClearall, .sbrM, .sbM]) (q : RegRef) (p : Nat) (fault : q.regClass = .w1c)
    (inWidth : p < regBits s.params q) (held : (s.regs.get q).getLsbD p = true) : (u.regs.get q).getLsbD p = true := by
  have rmw {r : RegRef} (f : Word → Word) (storage : r.regClass = .storage) : ((s.rmw r f).regs.get q).getLsbD p = true := by
    rwa [rmw_get_other s r q f (ne_of_classes fault storage)]
  have writeAll {rs : List RegRef} (v : Word) (others : ∀ r ∈ rs, r.regClass ≠ .w1c) :
      ((s.writeAll rs v).regs.get q).getLsbD p = true := by
    rwa [writeAll_get_other s rs v q fun mem => others q mem fault]
  cases e with
  | sbrM | sbM | frClearall => simp [Instr.op] at spares
  | sbrI | sbI | ttBuild => exact held
  | ttWrite => exact held
  | ttZero => simpa [zeroedState] using held
  | cbAmode b | cbTctrl b | cbTbase b | cbEnable b => exact rmw _ rfl
  | cbMattr b attrs =>
    show (((s.regWrite _ _).regWrite _ _).regs.get q).getLsbD p = true
    rwa [regWrite_get_other _ _ _ _ (ne_of_classes fault rfl), regWrite_get_other _ _ _ _ (ne_of_classes fault rfl)]
  | smCfg i => rwa [regWrite_get_other _ _ _ _ (ne_of_classes fault rfl)]
  | smResetall => exact writeAll _ (by simp [RegRef.regClass])
  | s2cCfg i => exact rmw _ rfl
  | frSnapg => exact afterRead_keeps _ fault inWidth (afterRead_keeps _ fault inWidth held)
  | frSnapc b => exact afterRead_keeps _ fault inWidth (afterRead_keeps _ fault inWidth (afterRead_keeps _ fault inWidth held))
  | frTlbiall => exact writeAll _ (by simp [RegRef.regClass])

/-- Settles O49: a pending line is a bit of a status register, and the bit stays. -/
theorem pendingLineStaysUntilCleared : Obligations.PendingLineStaysUntilCleared := by
  unfold Obligations.PendingLineStaysUntilCleared
  refine ⟨faultLine_iff, fun s pending => ?smmu, ?command⟩
  case smmu => exact faultLine_of_keeps (fun r p _ inWidth held => smmuActs_keeps s r p inWidth held) pending
  case command =>
    intro i s t run spares pending
    by_cases ok : t.rsp.status = 0#4
    · obtain ⟨d0, d1, d2, u, effect, rfl⟩ := exec_effect run ok
      exact faultLine_of_keeps (u := u.answered d0 d1 d2) (effect.keeps_fault_bits spares) pending
    · rw [exec_failed run ok]
      exact pending

/-! ## Clearing and invalidating (R197, R198) -/

/-- R197: the clear writes exactly the fault registers. -/
theorem mem_clearOrder_iff {q : RegRef} : q ∈ clearOrder ↔ q.regClass = .w1c := by
  cases q <;> simp [clearOrder, indices, bankFaultRegs, RegRef.regClass]

/-- A fault register that fits its width and is written with all ones holds nothing afterwards. -/
theorem regWrite_allOnes_clears {s : State} {q : RegRef} (fault : q.regClass = .w1c)
    (fits : (s.regs.get q).toNat < 2 ^ regBits s.params q) : (s.regWrite q (BitVec.allOnes 64)).regs.get q = 0#64 := by
  rw [regWrite_get_w1c _ _ _ fault, ← low_of_toNat_lt _ _ fits]
  apply BitVec.eq_of_getLsbD_eq
  intro p hp
  simp only [BitVec.getLsbD_and, BitVec.getLsbD_not, low_getLsbD, BitVec.getLsbD_allOnes, BitVec.getLsbD_zero, hp]
  cases decide (p < regBits s.params q) <;> simp

theorem writeAll_allOnes_clears {s : State} {rs : List RegRef} {q : RegRef} (mem : q ∈ rs) (fault : q.regClass = .w1c)
    (fits : (s.regs.get q).toNat < 2 ^ regBits s.params q) : (s.writeAll rs (BitVec.allOnes 64)).regs.get q = 0#64 := by
  induction rs generalizing s with
  | nil => cases mem
  | cons r rs ih =>
    by_cases same : q = r
    · subst same
      exact writeAll_w1c_keeps_clear _ rs _ q fault (regWrite_allOnes_clears fault fits)
    · refine ih (s := s.regWrite r (BitVec.allOnes 64)) ((List.mem_cons.mp mem).resolve_left same) ?_
      rwa [regWrite_get_other _ _ _ _ same]

theorem writeAll_sameBanks (s : State) (rs : List RegRef) (v : Word) : SameBanks s (s.writeAll rs v) := fun i => by
  simp [State.bankState, State.bankAw]

theorem writeAll_sameMemory (s : State) (rs : List RegRef) (v : Word) : SameMemory s (s.writeAll rs v) := fun a => by
  rw [writeAll_tableMem]

theorem writeAll_sameHost (s : State) (rs : List RegRef) (v : Word) : SameHost s (s.writeAll rs v) := by
  constructor <;> simp

theorem exec_frClearall (s : State) :
    exec .frClearall s = .next ((s.writeAll clearOrder (BitVec.allOnes 64)).answered 0#64 0#64 0#64) := rfl

/-- R197: what the 52 writes leave in each register. -/
theorem clearOrder_get (s : State) (fits : RegistersFit s) (q : RegRef) :
    (s.writeAll clearOrder (BitVec.allOnes 64)).regs.get q = if q.regClass = .w1c then 0#64 else s.regs.get q := by
  split
  · next fault => exact writeAll_allOnes_clears (mem_clearOrder_iff.mpr fault) fault (fits q)
  · next other => exact writeAll_get_other s _ _ q fun mem => other (mem_clearOrder_iff.mp mem)

theorem clearOrder_tlb (s : State) : (s.writeAll clearOrder (BitVec.allOnes 64)).tlb = s.tlb :=
  writeAll_tlb s clearOrder _ fun _ mem => funext (tlbAfterWrite_w1c (mem_clearOrder_iff.mp mem))

/-- Settles O47: each fault register is written once with all ones, and no other register is written. -/
theorem faultRegistersCleared : Obligations.FaultRegistersCleared := by
  unfold Obligations.FaultRegistersCleared
  intro s fits
  have cleared (q : RegRef) (fault : q.regClass = .w1c) :
      ((s.writeAll clearOrder (BitVec.allOnes 64)).answered 0#64 0#64 0#64).regs.get q = 0#64 := by
    rw [answered_regs, clearOrder_get s fits, if_pos fault]
  refine ⟨(s.writeAll clearOrder (BitVec.allOnes 64)).answered 0#64 0#64 0#64, exec_frClearall s, answered_rsp _ _ _ _,
    cleared, fun q other => ?_, ?_, ?_, ?_, sameBanks_answered (writeAll_sameBanks s _ _) _ _ _, fun a => ?_,
    sameHost_answered (writeAll_sameHost s _ _) _ _ _, ?_, ?_⟩
  · rw [answered_regs, clearOrder_get s fits, if_neg other]
  · rw [answered_trace, writeAll_trace]
    rfl
  · rw [answered_trace, writeAll_trace, List.length_append, List.length_map]
    rfl
  · rw [Bool.eq_false_iff, Ne, faultLine_iff]
    rintro (set | set | ⟨i, set⟩) <;> exact set (cleared _ rfl)
  · rw [answered_tableMem, writeAll_tableMem]
  · rw [answered_envTick, writeAll_envTick]
  · rw [answered_tlb, clearOrder_tlb]

/-- Settles O48: the two triggers hold nothing, and each empties its part of the cache. -/
theorem translationCacheInvalidated : Obligations.TranslationCacheInvalidated := by
  unfold Obligations.TranslationCacheInvalidated
  intro s
  let u := s.writeAll [.tlbiS, .tlbiNs] 0#64
  have zero (n : Nat) : low n 0#64 = 0#64 := by
    apply BitVec.eq_of_getLsbD_eq
    simp
  refine ⟨u.answered 0#64 0#64 0#64, rfl, rfl, ?_, rfl, fun q _ => ?_, sameBanks_answered (writeAll_sameBanks s _ _) _ _ _,
    writeAll_sameMemory s _ _, sameHost_answered (writeAll_sameHost s _ _) _ _ _, writeAll_envTick s _ _⟩
  · simp [u, writeAll_trace, zero, writeRec]
  · rfl

end Sys2Proof.Machine
end

section
/-! PROOFS. Registers composed of several fields (spec/10_state.md R41): updates one after another of disjoint fields. -/

namespace Sys2Proof.Machine

open Sys2Proof.Claim

/-! ## Updates of several fields -/

/-- Fields, each (high, low, value), put one after another into an `n`-bit image. -/
def insertAll (n : Nat) (image : Word) (fs : List (Nat × Nat × Nat)) : Word :=
  fs.foldl (fun v f => insertAt n v f.1 f.2.1 f.2.2) image

/-- The bit ranges of such fields. -/
def rangesOf (fs : List (Nat × Nat × Nat)) : List (Nat × Nat) := fs.map fun f => (f.1, f.2.1)

theorem insertAll_cons (n : Nat) (image : Word) (f : Nat × Nat × Nat) (fs : List (Nat × Nat × Nat)) :
    insertAll n image (f :: fs) = insertAll n (insertAt n image f.1 f.2.1 f.2.2) fs := rfl

theorem inFields_cons {f : Nat × Nat} {fs : List (Nat × Nat)} {b : Nat} :
    inFields (f :: fs) b = false ↔ (b < f.2 ∨ f.1 < b) ∧ inFields fs b = false := by
  simp only [inFields, List.any_cons, Bool.or_eq_false_iff, Bool.and_eq_false_iff, decide_eq_false_iff_not, Nat.not_le]

theorem inFields_eq_false {fs : List (Nat × Nat)} {b : Nat} : inFields fs b = false ↔ ∀ f ∈ fs, b < f.2 ∨ f.1 < b := by
  induction fs with
  | nil => simp [inFields]
  | cons f fs ih => rw [inFields_cons, ih, List.forall_mem_cons]

theorem fieldsFit_cons {n : Nat} {f : Nat × Nat} {fs : List (Nat × Nat)} : fieldsFit n (f :: fs) = true ↔
    f.2 ≤ f.1 ∧ f.1 < n ∧ (∀ g ∈ fs, f.1 < g.2 ∨ g.1 < f.2) ∧ fieldsFit n fs = true := by
  simp only [fieldsFit, Bool.and_eq_true, Bool.or_eq_true, decide_eq_true_eq, List.all_eq_true, and_assoc]

/-- Fields that fit a register fit a wider one. -/
theorem fieldsFit_mono {m n : Nat} {fs : List (Nat × Nat)} (fit : fieldsFit m fs = true) (wider : m ≤ n) :
    fieldsFit n fs = true := by
  induction fs with
  | nil => rfl
  | cons f fs ih =>
    obtain ⟨ordered, inside, apart, rest⟩ := fieldsFit_cons.mp fit
    exact fieldsFit_cons.mpr ⟨ordered, inside.trans_le wider, apart, ih rest⟩

/-- A bit in none of the fields is the image's. -/
theorem insertAll_getLsbD_outside {n : Nat} {image : Word} {fs : List (Nat × Nat × Nat)} (fit : fieldsFit n (rangesOf fs) = true)
    (cut : low n image = image) {b : Nat} (hb : b < 64) (out : inFields (rangesOf fs) b = false) :
    (insertAll n image fs).getLsbD b = image.getLsbD b := by
  induction fs generalizing image with
  | nil => rfl
  | cons f fs ih =>
    obtain ⟨ordered, -, -, rest⟩ := fieldsFit_cons.mp fit
    obtain ⟨outside, out⟩ := inFields_cons.mp out
    change f.2.1 ≤ f.1 at ordered
    change b < f.2.1 ∨ f.1 < b at outside
    rw [insertAll_cons, ih rest (low_insertAt _ _ _ _ _) out, insertAt_getLsbD _ _ _ _ _ _ ordered hb, if_neg (by omega),
      ← low_getLsbD, cut]

/-- A bit of a field is the value's. -/
theorem insertAll_getLsbD_inside {n : Nat} {image : Word} {fs : List (Nat × Nat × Nat)} (fit : fieldsFit n (rangesOf fs) = true)
    {f : Nat × Nat × Nat} (mem : f ∈ fs) {b : Nat} (hb : b < 64) (low : f.2.1 ≤ b) (high : b ≤ f.1) :
    (insertAll n image fs).getLsbD b = f.2.2.testBit (b - f.2.1) := by
  induction fs generalizing image with
  | nil => cases mem
  | cons g fs ih =>
    obtain ⟨ordered, inside, apart, rest⟩ := fieldsFit_cons.mp fit
    change g.2.1 ≤ g.1 at ordered
    change g.1 < n at inside
    rw [insertAll_cons]
    obtain rfl | mem := List.mem_cons.mp mem
    · have out : inFields (rangesOf fs) b = false := inFields_eq_false.mpr fun g hg => by
        have apart : f.1 < g.2 ∨ g.1 < f.2.1 := apart g hg
        omega
      rw [insertAll_getLsbD_outside rest (low_insertAt _ _ _ _ _) hb out, insertAt_getLsbD _ _ _ _ _ _ ordered hb,
        if_pos (by omega)]
    · exact ih rest mem

theorem fieldsFit_mem {n : Nat} {fs : List (Nat × Nat)} (fit : fieldsFit n fs = true) {f : Nat × Nat} (mem : f ∈ fs) :
    f.2 ≤ f.1 ∧ f.1 < n := by
  induction fs with
  | nil => cases mem
  | cons g fs ih =>
    obtain ⟨ordered, inside, -, rest⟩ := fieldsFit_cons.mp fit
    obtain rfl | mem := List.mem_cons.mp mem
    · exact ⟨ordered, inside⟩
    · exact ih rest mem

/-- A field reads back its value, cut to its width. -/
theorem fieldOf_insertAll {n : Nat} (inWord : n ≤ 64) {image : Word} {fs : List (Nat × Nat × Nat)}
    (fit : fieldsFit n (rangesOf fs) = true) {hi lo val : Nat} (mem : (hi, lo, val) ∈ fs) :
    fieldOf (insertAll n image fs).toNat hi lo = val % 2 ^ (hi - lo + 1) := by
  obtain ⟨ordered, inside⟩ : lo ≤ hi ∧ hi < n := fieldsFit_mem fit (List.mem_map_of_mem mem)
  apply Nat.eq_of_testBit_eq
  intro p
  rw [fieldOf_testBit, Nat.testBit_mod_two_pow, BitVec.testBit_toNat]
  by_cases hp : p < hi - lo + 1
  · rw [insertAll_getLsbD_inside fit mem (by omega) (Nat.le_add_right lo p) (show lo + p ≤ hi by omega), Nat.add_sub_cancel_left]
  · simp [hp]

/-- Fields within `m` bits leave an `m`-bit image an `m`-bit image. -/
theorem low_insertAll {m n : Nat} {image : Word} {fs : List (Nat × Nat × Nat)} (fit : fieldsFit m (rangesOf fs) = true)
    (narrower : m ≤ n) (cut : low m image = image) : low m (insertAll n image fs) = insertAll n image fs := by
  have wide : low n image = image := by
    rw [← cut]
    apply BitVec.eq_of_getLsbD_eq
    intro p _
    rw [low_getLsbD, low_getLsbD]
    by_cases h : p < m
    · have h' : p < n := h.trans_le narrower
      simp [h, h']
    · simp [h]
  apply BitVec.eq_of_getLsbD_eq
  intro b hb
  rw [low_getLsbD]
  by_cases h : b < m
  · simp [h]
  · have out : inFields (rangesOf fs) b = false := inFields_eq_false.mpr fun f hf => by
      have := fieldsFit_mem fit hf
      omega
    have clear : image.getLsbD b = false := by rw [← cut, low_getLsbD]; simp [h]
    rw [insertAll_getLsbD_outside (fieldsFit_mono fit narrower) wide hb out, clear, Bool.and_false]

/-- A one-bit field holds the Boolean put into it. -/
theorem bitValue_testBit (v : Bool) : (bitValue v).testBit 0 = v := by cases v <;> rfl

/-! ## The images of the commands as updates of fields -/

/-- The fields `CB.TCTRL` writes (R155). -/
def tctrlFields (f : FieldMap) (t0sz : BitVec 6) (inner outer sh granule : BitVec 2) : List (Nat × Nat × Nat) :=
  [(f.tcrT0szLo + f.t0szW - 1, f.tcrT0szLo, t0sz.toNat), (f.tcrIrgn0Lo + 1, f.tcrIrgn0Lo, inner.toNat),
    (f.tcrOrgn0Lo + 1, f.tcrOrgn0Lo, outer.toNat), (f.tcrSh0Lo + 1, f.tcrSh0Lo, sh.toNat),
    (f.tcrTg0Lo + 1, f.tcrTg0Lo, granule.toNat)]

theorem tctrlImage_eq (f : FieldMap) (t0sz : BitVec 6) (inner outer sh granule : BitVec 2) (old : Word) :
    tctrlImage f t0sz inner outer sh granule old = insertAll 32 old (tctrlFields f t0sz inner outer sh granule) := rfl

/-- The fields `CB.TBASE` writes (R156). -/
def tbaseFields (f : FieldMap) (aw : AddrWidth) (asid : BitVec 16) (base : Word) : List (Nat × Nat × Nat) :=
  [(f.ttbrAddrHi, 12, base.toNat >>> 12), (f.ttbrAsidLo + asidWidth f aw - 1, f.ttbrAsidLo, asid.toNat)]

theorem tbaseImage_eq (f : FieldMap) (aw : AddrWidth) (asid : BitVec 16) (base old : Word) :
    tbaseImage f aw asid base old = insertAll 64 old (tbaseFields f aw asid base) := rfl

/-- The fields `CB.ENABLE` writes (R157). -/
def enableFields (f : FieldMap) (en fr fi : Bool) : List (Nat × Nat × Nat) :=
  [(f.ctrlMBit, f.ctrlMBit, bitValue en), (f.ctrlCfreBit, f.ctrlCfreBit, bitValue fr), (f.ctrlCfieBit, f.ctrlCfieBit, bitValue fi)]

theorem enableImage_eq (f : FieldMap) (en fr fi : Bool) (old : Word) :
    enableImage f en fr fi old = insertAll 32 old (enableFields f en fr fi) := rfl

/-- The fields `S2C.CFG` writes (R182). -/
def s2crFields (f : FieldMap) (kind : StreamKind) (cbndx : BitVec 8) : List (Nat × Nat × Nat) :=
  [(f.s2crTypeLo + 1, f.s2crTypeLo, (s2crCode f kind).toNat), (f.s2crCbndxLo + 7, f.s2crCbndxLo, s2cIndexValue kind cbndx)]

theorem s2crImage_eq (f : FieldMap) (kind : StreamKind) (cbndx : BitVec 8) (old : Word) :
    s2crImage f kind cbndx old = insertAll 32 old (s2crFields f kind cbndx) := rfl

/-! ## Admissible fields (R41) -/

/-- The constraints of R41 that the commands' statements use, by name. -/
structure GoodFields (p : Params) : Prop where
  s2cr : fieldsFit 32 [(p.field.s2crTypeLo + 1, p.field.s2crTypeLo), (p.field.s2crCbndxLo + 7, p.field.s2crCbndxLo)] = true
  t0szWidth : 1 ≤ p.field.t0szW
  tcr : fieldsFit 32 (tcrFields p.field) = true
  asidWidth : ∀ aw, 1 ≤ asidWidth p.field aw
  ttbr : ∀ aw, fieldsFit p.field.wTtbr.bits
    [(p.field.ttbrAddrHi, 12), (p.field.ttbrAsidLo + Machine.asidWidth p.field aw - 1, p.field.ttbrAsidLo)] = true
  ctrl : fieldsFit 32 [(p.field.ctrlMBit, p.field.ctrlMBit), (p.field.ctrlCfreBit, p.field.ctrlCfreBit),
    (p.field.ctrlCfieBit, p.field.ctrlCfieBit)] = true
  translateBypass : p.field.s2crCodeTranslate ≠ p.field.s2crCodeBypass
  translateFault : p.field.s2crCodeTranslate ≠ p.field.s2crCodeFault
  bypassFault : p.field.s2crCodeBypass ≠ p.field.s2crCodeFault

theorem goodFields_of_admissible {p : Params} (admissible : fieldsAdmissible p = true) : GoodFields p := by
  simp only [fieldsAdmissible, Bool.and_eq_true, decide_eq_true_eq, and_assoc] at admissible
  obtain ⟨s2cr, -, t0szWidth, tcr, asid32, asid64, ttbr32, ttbr64, ctrl, -, translateBypass, translateFault, bypassFault, -⟩ :=
    admissible
  exact {
    s2cr, t0szWidth, tcr, ctrl, translateBypass, translateFault, bypassFault
    asidWidth := fun aw => by cases aw <;> assumption
    ttbr := fun aw => by cases aw <;> assumption }

end Sys2Proof.Machine
end

section
/-! PROOFS. The context-bank sequencer's commands (spec/42_context_bank_sequencer.md R150-R157). -/

namespace Sys2Proof.Machine

open Sys2Proof.Claim

/-! ## A read-modify-write by a command that succeeds (R62) -/

/-- A register whose content fits its width reads as its content. -/
theorem low_get_of_heldBits {s : State} {r : RegRef} (width : heldBits r = regBits s.params r) :
    low (regBits s.params r) (s.regs.get r) = s.regs.get r := by
  rw [← width, low_get]

/-- What the read-modify-write leaves in the register. -/
theorem rmw_get_of_fits {s : State} {r : RegRef} (f : Word → Word) (storage : r.regClass = .storage)
    (fits : low (regBits s.params r) (s.regs.get r) = s.regs.get r) :
    (s.rmw r f).regs.get r = low (regBits s.params r) (f (s.regs.get r)) := by
  rw [rmw_get_storage s r f storage, fits]

/-- A read-modify-write is an update of its register only. -/
theorem updatesOnly_rmw {s : State} {r : RegRef} (f : Word → Word) (storage : r.regClass = .storage)
    (fits : low (regBits s.params r) (s.regs.get r) = s.regs.get r) : UpdatesOnly r s ((s.rmw r f).answered 0#64 0#64 0#64) := by
  refine ⟨rfl, ?_, fun q other => rmw_get_other s r q f (by simpa using other), fun a => rfl, rmw_envTick s r f storage,
    ⟨rfl, rfl, rfl, rfl, rfl, rfl⟩⟩
  rw [answered_trace, answered_regs, rmw_trace, readValue_storage s r storage, fits, rmw_get_of_fits f storage fits]
  rfl

/-- Such an update leaves the rest alone also when the command moves a bank. -/
theorem updatesOnly_setBankState {r : RegRef} {s u : State} (only : UpdatesOnly r s (u.answered 0#64 0#64 0#64)) (i : Fin 16)
    (v : CbState) : UpdatesOnly r s ((u.setBankState i v).answered 0#64 0#64 0#64) :=
  ⟨rfl, only.trace, only.regs, only.memory, only.tick,
    ⟨only.host.cw, only.host.opa, only.host.opb, only.host.program, only.host.position, only.host.params⟩⟩

theorem updatesOnly_setBankAw {r : RegRef} {s u : State} (only : UpdatesOnly r s (u.answered 0#64 0#64 0#64)) (i : Fin 16)
    (v : AddrWidth) : UpdatesOnly r s ((u.setBankAw i v).answered 0#64 0#64 0#64) :=
  ⟨rfl, only.trace, only.regs, only.memory, only.tick,
    ⟨only.host.cw, only.host.opa, only.host.opb, only.host.program, only.host.position, only.host.params⟩⟩

theorem sameBanksBut_setBankState {s u : State} {i : Fin 16} (others : SameBanksBut i s u) (v : CbState) :
    SameBanksBut i s (u.setBankState i v) := fun j other => by
  rw [setBankState_bankState, if_neg other]
  exact others j other

theorem sameBanksBut_setBankAw {s u : State} {i : Fin 16} (others : SameBanksBut i s u) (v : AddrWidth) :
    SameBanksBut i s (u.setBankAw i v) := fun j other => by
  rw [setBankAw_bankAw, if_neg other]
  exact others j other

theorem sameBanksBut_rmw (i : Fin 16) (s : State) (r : RegRef) (f : Word → Word) : SameBanksBut i s (s.rmw r f) :=
  fun _ _ => ⟨rfl, rfl⟩

theorem setBankState_bankState_same (s : State) (i : Fin 16) (v : CbState) : (s.setBankState i v).bankState i = v := by
  rw [setBankState_bankState, if_pos rfl]

theorem setBankState_bankAw (s : State) (i j : Fin 16) (v : CbState) : (s.setBankState i v).bankAw j = s.bankAw j := rfl

/-! ## The five commands -/

/-- R153: the bits of `CBA2R` after `CB.AMODE`. -/
theorem amodeState_cba2r {s : State} (i : Fin 16) (aw : AddrWidth) {p : Nat} (hp : p < 64) :
    ((amodeState i aw s).regs.get (.cba2r i)).getLsbD p =
      if p < 32 ∧ p = s.params.field.cba2rVa64Bit then decide (aw = .w64) else (s.regs.get (.cba2r i)).getLsbD p := by
  have cut : low 32 (s.regs.get (.cba2r i)) = s.regs.get (.cba2r i) := low_get_of_heldBits (r := .cba2r i) rfl
  have old : (decide (p < 32) && (s.regs.get (.cba2r i)).getLsbD p) = (s.regs.get (.cba2r i)).getLsbD p := by
    rw [← low_getLsbD, cut]
  have content : (amodeState i aw s).regs.get (.cba2r i) = low 32 (amodeImage s.params.field aw (s.regs.get (.cba2r i))) :=
    rmw_get_of_fits (s := s) (r := .cba2r i) (amodeImage s.params.field aw) rfl cut
  have value : (bitValue aw.bit).testBit 0 = decide (aw = .w64) := by cases aw <;> rfl
  rw [content, amodeImage, low_insertAt, insertAt_getLsbD _ _ _ _ _ _ le_rfl hp, old]
  by_cases here : p < 32 ∧ p = s.params.field.cba2rVa64Bit
  · rw [if_pos here, if_pos (by omega), here.2, Nat.sub_self, value]
  · rw [if_neg here, if_neg (by omega)]

/-- Settles O30. -/
theorem addressModeWritten : Obligations.AddressModeWritten := by
  unfold Obligations.AddressModeWritten
  intro i aw s admitted free
  have cut : low 32 (s.regs.get (.cba2r i)) = s.regs.get (.cba2r i) := low_get_of_heldBits (r := .cba2r i) rfl
  refine ⟨_, execCbAmode_of_ok admitted free, updatesOnly_setBankState (updatesOnly_setBankAw (updatesOnly_rmw (r := .cba2r i) _ rfl cut) i aw) i _,
    fun p hp => ?_, ?_, ?_, ?_, ?_⟩
  · rw [answered_regs, amodeState_cba2r i aw hp]
  · rw [answered_bankAw, amodeState, setBankState_bankAw, setBankAw_bankAw, if_pos rfl]
  · rw [answered_bankState, amodeState, setBankState_bankState_same]
  · exact sameBanksBut_setBankState (sameBanksBut_setBankAw (sameBanksBut_rmw _ _ _ _) aw) _
  · rw [answered_tlb, amodeState, setBankState_tlb, setBankAw_tlb, rmw_tlb]
    rfl

/-- R154: what the two writes of `CB.MATTR` leave in the registers. -/
theorem mattrState_regs (i : Fin 16) (attrs : Word) (s : State) : (mattrState i attrs s).regs =
    ((s.regWrite (.cbAttr0 i) (low 32 attrs)).regWrite (.cbAttr1 i) (attrs >>> 32)).regs := rfl

theorem mattrState_attr0 (i : Fin 16) (attrs : Word) (s : State) :
    (mattrState i attrs s).regs.get (.cbAttr0 i) = low 32 attrs := by
  rw [mattrState_regs, regWrite_get_other _ _ _ _ (by simp), regWrite_get_storage _ _ _ rfl]
  exact low_low 32 attrs

theorem mattrState_attr1 (i : Fin 16) (attrs : Word) (s : State) :
    (mattrState i attrs s).regs.get (.cbAttr1 i) = low 32 (attrs >>> 32) := by
  rw [mattrState_regs, regWrite_get_storage _ _ _ rfl]
  rfl

/-- Settles O31. -/
theorem attributeTableWritten : Obligations.AttributeTableWritten := by
  unfold Obligations.AttributeTableWritten
  intro i attrs s free
  refine ⟨_, execCbMattr_of_ok attrs free, rfl, ?_, ?_, ?_, fun q other => ?_, fun a => rfl, ⟨rfl, rfl, rfl, rfl, rfl, rfl⟩, rfl, rfl,
    ?_, rfl, ?_⟩
  · rw [answered_regs, mattrState_attr0]
    simp only [low, BitVec.toNat_setWidth]
    omega
  · rw [answered_regs, mattrState_attr1]
    simp only [low, BitVec.toNat_setWidth, BitVec.toNat_ushiftRight, Nat.shiftRight_eq_div_pow]
    omega
  · rw [answered_regs, mattrState_attr0, mattrState_attr1, answered_trace, mattrState]
    simp [writeRec, regBits]
  · obtain ⟨not0, not1⟩ : q ≠ .cbAttr0 i ∧ q ≠ .cbAttr1 i := by simpa using other
    rw [answered_regs, mattrState_regs, regWrite_get_other _ _ _ _ not1, regWrite_get_other _ _ _ _ not0]
  · rw [answered_bankState, mattrState, setBankState_bankState_same]
  · exact sameBanksBut_setBankState (fun _ _ => ⟨rfl, rfl⟩) _

/-- Settles O32: the five fields are disjoint, so each keeps its operand. -/
theorem translationControlWritten : Obligations.TranslationControlWritten := by
  unfold Obligations.TranslationControlWritten
  intro i t0sz inner outer sh granule s admissible free
  have good := goodFields_of_admissible admissible
  have fit : fieldsFit 32 (rangesOf (tctrlFields s.params.field t0sz inner outer sh granule)) = true := good.tcr
  have cut : low 32 (s.regs.get (.cbTcr i)) = s.regs.get (.cbTcr i) := low_get_of_heldBits (r := .cbTcr i) rfl
  have content : (tctrlState i t0sz inner outer sh granule s).regs.get (.cbTcr i) =
      insertAll 32 (s.regs.get (.cbTcr i)) (tctrlFields s.params.field t0sz inner outer sh granule) := by
    rw [tctrlState, setBankState_regs, rmw_get_of_fits (r := .cbTcr i) _ rfl cut, tctrlImage_eq]
    exact low_insertAll fit le_rfl cut
  have field {hi lo val : Nat} (mem : (hi, lo, val) ∈ tctrlFields s.params.field t0sz inner outer sh granule) :
      regField ((tctrlState i t0sz inner outer sh granule s).answered 0#64 0#64 0#64) (.cbTcr i) hi lo = val % 2 ^ (hi - lo + 1) := by
    rw [regField, answered_regs, content, fieldOf_insertAll (by decide) fit mem]
  have twoBits (v : BitVec 2) (k : Nat) : v.toNat % 2 ^ (k + 1 - k + 1) = v.toNat := by
    rw [Nat.add_sub_cancel_left]
    exact Nat.mod_eq_of_lt v.isLt
  have t0szWidth : s.params.field.tcrT0szLo + s.params.field.t0szW - 1 - s.params.field.tcrT0szLo + 1 = s.params.field.t0szW := by
    have := good.t0szWidth
    omega
  refine ⟨_, execCbTctrl_of_ok t0sz inner outer sh granule free,
    updatesOnly_setBankState (updatesOnly_rmw (r := .cbTcr i) (tctrlImage s.params.field t0sz inner outer sh granule) rfl cut) i _,
    ?_, ?_, ?_, ?_, ?_, fun p hp out => ?_, ?_, ?_, ?_, ?_⟩
  · rw [field (val := t0sz.toNat) (by simp [tctrlFields]), t0szWidth]
  · rw [field (val := inner.toNat) (by simp [tctrlFields]), twoBits]
  · rw [field (val := outer.toNat) (by simp [tctrlFields]), twoBits]
  · rw [field (val := sh.toNat) (by simp [tctrlFields]), twoBits]
  · rw [field (val := granule.toNat) (by simp [tctrlFields]), twoBits]
  · rw [answered_regs, content, insertAll_getLsbD_outside fit cut hp out]
  · rw [answered_bankState, tctrlState, setBankState_bankState_same]
  · rw [answered_bankAw, tctrlState, setBankState_bankAw]
    rfl
  · exact sameBanksBut_setBankState (sameBanksBut_rmw i s (.cbTcr i) _) _
  · rw [answered_tlb, tctrlState, setBankState_tlb, rmw_tlb]
    rfl

/-- R41: the fields that `CB.TBASE` writes lie within the register, which may be narrower than a word. -/
theorem tbaseFields_fit {p : Params} (good : GoodFields p) (aw : AddrWidth) (asid : BitVec 16) (base : Word) (i : Fin 16) :
    fieldsFit (regBits p (.cbTtbr i)) (rangesOf (tbaseFields p.field aw asid base)) = true := good.ttbr aw

theorem cbTtbr_inWord (p : Params) (i : Fin 16) : regBits p (.cbTtbr i) ≤ 64 := by
  rcases regBits_cases p (.cbTtbr i) with h | h <;> omega

/-- R156: the content of `CB_TTBR` after `CB.TBASE`. -/
theorem tbaseState_ttbr {s : State} (i : Fin 16) (asid : BitVec 16) (base : Word) (good : GoodFields s.params)
    (cut : low (regBits s.params (.cbTtbr i)) (s.regs.get (.cbTtbr i)) = s.regs.get (.cbTtbr i)) :
    (tbaseState i asid base s).regs.get (.cbTtbr i) =
      insertAll 64 (s.regs.get (.cbTtbr i)) (tbaseFields s.params.field (s.bankAw i) asid base) := by
  rw [tbaseState, setBankState_regs, rmw_get_of_fits _ rfl cut, tbaseImage_eq]
  exact low_insertAll (tbaseFields_fit good _ _ _ i) (cbTtbr_inWord _ i) cut

/-- Settles O33: the register may be narrower than the 64-bit image, and its fields lie within it. -/
theorem tableBaseWritten : Obligations.TableBaseWritten := by
  unfold Obligations.TableBaseWritten
  intro i asid base s admissible free aligned fits
  have good := goodFields_of_admissible admissible
  have fit := fieldsFit_mono (tbaseFields_fit good (s.bankAw i) asid base i) (cbTtbr_inWord _ i)
  have cut : low (regBits s.params (.cbTtbr i)) (s.regs.get (.cbTtbr i)) = s.regs.get (.cbTtbr i) :=
    low_of_toNat_lt _ _ (fits (.cbTtbr i))
  refine ⟨_, execCbTbase_of_ok asid free aligned,
    updatesOnly_setBankState (updatesOnly_rmw (r := .cbTtbr i) _ rfl cut) i _, fun p low high => ?_, fun w hw => ?_, ?_, ?_,
    sameBanksBut_setBankState (sameBanksBut_rmw _ _ _ _) _, ?_⟩
  · have addr : (s.params.field.ttbrAddrHi, 12, base.toNat >>> 12) ∈ tbaseFields s.params.field (s.bankAw i) asid base := by
      simp [tbaseFields]
    obtain ⟨-, inside⟩ : 12 ≤ s.params.field.ttbrAddrHi ∧ s.params.field.ttbrAddrHi < 64 :=
      fieldsFit_mem fit (List.mem_map_of_mem addr)
    rw [answered_regs, tbaseState_ttbr i asid base good cut, insertAll_getLsbD_inside fit addr (high.trans_lt inside) low high,
      Nat.testBit_shiftRight, Nat.add_sub_cancel' low, BitVec.testBit_toNat]
  · obtain rfl : w = asidWidth s.params.field (s.bankAw i) := by
      rw [hw]
      cases s.bankAw i <;> rfl
    have width : s.params.field.ttbrAsidLo + asidWidth s.params.field (s.bankAw i) - 1 - s.params.field.ttbrAsidLo + 1
        = asidWidth s.params.field (s.bankAw i) := by
      have := good.asidWidth (s.bankAw i)
      omega
    refine ⟨?_, fun p hp out => ?_⟩
    · rw [regField, answered_regs, tbaseState_ttbr i asid base good cut,
        fieldOf_insertAll le_rfl fit (val := asid.toNat) (by simp [tbaseFields]), width]
    · rw [answered_regs, tbaseState_ttbr i asid base good cut, insertAll_getLsbD_outside fit (low_full _) hp out]
  · rw [answered_bankState, tbaseState, setBankState_bankState_same]
  · rw [answered_bankAw, tbaseState, setBankState_bankAw]
    rfl
  · rw [answered_tlb, tbaseState, setBankState_tlb, rmw_tlb]
    rfl

/-- R157: the three bits of `CB_CTRL` that `CB.ENABLE` writes, and the others. -/
theorem enableState_ctrl {i : Fin 16} {s : State} (en fr fi : Bool) (good : GoodFields s.params) {p : Nat} (hp : p < 64) :
    ((enableState i en fr fi s).regs.get (.cbCtrl i)).getLsbD p =
      if p = s.params.field.ctrlMBit then en else if p = s.params.field.ctrlCfreBit then fr
      else if p = s.params.field.ctrlCfieBit then fi else (s.regs.get (.cbCtrl i)).getLsbD p := by
  have fit : fieldsFit 32 (rangesOf (enableFields s.params.field en fr fi)) = true := good.ctrl
  have cut : low 32 (s.regs.get (.cbCtrl i)) = s.regs.get (.cbCtrl i) := low_get_of_heldBits (r := .cbCtrl i) rfl
  have content : (enableState i en fr fi s).regs.get (.cbCtrl i) =
      insertAll 32 (s.regs.get (.cbCtrl i)) (enableFields s.params.field en fr fi) := by
    rw [enableState, setBankState_regs, rmw_get_of_fits (r := .cbCtrl i) _ rfl cut, enableImage_eq]
    exact low_insertAll fit le_rfl cut
  have bit {b : Nat} {v : Bool} (mem : (b, b, bitValue v) ∈ enableFields s.params.field en fr fi) (here : p = b) :
      (insertAll 32 (s.regs.get (.cbCtrl i)) (enableFields s.params.field en fr fi)).getLsbD p = v := by
    subst here
    rw [insertAll_getLsbD_inside fit mem hp le_rfl le_rfl, Nat.sub_self, bitValue_testBit]
  rw [content]
  split
  · next here => exact bit (by simp [enableFields]) here
  · split
    · next here => exact bit (by simp [enableFields]) here
    · split
      · next here => exact bit (by simp [enableFields]) here
      · refine insertAll_getLsbD_outside fit cut hp (inFields_eq_false.mpr ?_)
        simp [rangesOf, enableFields]
        omega

/-- Settles O34. -/
theorem enableWritten : Obligations.EnableWritten := by
  unfold Obligations.EnableWritten
  intro i en fr fi s admissible
  have cut : low 32 (s.regs.get (.cbCtrl i)) = s.regs.get (.cbCtrl i) := low_get_of_heldBits (r := .cbCtrl i) rfl
  refine ⟨_, execCbEnable_of_ok i en fr fi s, updatesOnly_setBankState (updatesOnly_rmw (r := .cbCtrl i) _ rfl cut) i _, fun p hp => ?_, ?_, ?_,
    sameBanksBut_setBankState (sameBanksBut_rmw _ _ _ _) _, ?_⟩
  · rw [answered_regs, enableState_ctrl en fr fi (goodFields_of_admissible admissible) hp]
  · rw [answered_bankState, enableState, setBankState_bankState_same]
  · rw [answered_bankAw, enableState, setBankState_bankAw]
    rfl
  · rw [answered_tlb, enableState, setBankState_tlb, rmw_tlb]
    rfl

/-! ## The transition table (R151) -/

/-- A sequencer's step that succeeds on bank `i` moves it to the state its step names, and no other bank. -/
theorem exec_seqStep {c : Instr} {s t : State} {i : Fin 16} {x : SeqStep} (run : exec c s = .next t) (ok : t.rsp.status = 0#4)
    (names : seqStepOn i.val c = some x) : t.bankState i = stateNamedBy x ∧ SameBanksBut i s t := by
  refine ⟨by rw [exec_bankState run ok, names]; rfl, fun j other => ?_⟩
  have ne : i.val ≠ j.val := fun h => other (Fin.ext h.symm)
  have away : seqStepOn j.val c = none ∧ latchedOn j.val c = none := by
    cases c with
    | cbAmode idx | cbMattr idx | cbTctrl idx | cbTbase idx | cbEnable idx =>
      obtain rfl : idx = i.val := by
        by_contra h
        simp [seqStepOn, h] at names
      simp [seqStepOn, latchedOn, ne]
    | _ => cases names
  rw [exec_bankState run ok, exec_bankAw run ok, away.1, away.2]
  exact ⟨rfl, rfl⟩

/-- Settles O35: the free cells by the commands that complete, the `Enabled` ones by the ordering check. -/
theorem transitionTable : Obligations.TransitionTable := by
  unfold Obligations.TransitionTable
  intro s i
  have named {c : Instr} {u : State} {x : SeqStep} (run : exec c s = .next (u.answered 0#64 0#64 0#64))
      (names : seqStepOn i.val c = some x) :
      ∃ t, exec c s = .next t ∧ t.rsp.status = 0#4 ∧ t.bankState i = stateNamedBy x ∧ SameBanksBut i s t :=
    ⟨_, run, rfl, exec_seqStep run rfl names⟩
  have here {x : SeqStep} : (if i.val = i.val then some x else none) = some x := if_pos rfl
  refine ⟨fun free => ⟨fun aw admitted => ?_, fun attrs => ?_, fun t0sz a b c d => ?_, fun asid base aligned => ?_⟩,
    fun enabled => ⟨fun aw admitted => ?_, fun attrs => ?_, fun t0sz a b c d => ?_, fun asid base => ?_⟩,
    fun fr fi => ?_, fun fr fi => ?_, fun c t run bad => ?_⟩
  · exact named (c := .cbAmode i.val aw) (execCbAmode_of_ok admitted free) here
  · exact named (c := .cbMattr i.val attrs) (execCbMattr_of_ok attrs free) here
  · exact named (c := .cbTctrl i.val t0sz a b c d) (execCbTctrl_of_ok t0sz a b c d free) here
  · exact named (c := .cbTbase i.val asid base) (execCbTbase_of_ok asid free aligned) here
  · exact execCbAmode_of_enabled enabled admitted
  · exact execCbMattr_of_enabled attrs enabled
  · exact execCbTctrl_of_enabled t0sz a b c d enabled
  · exact execCbTbase_of_enabled asid base enabled
  · exact named (c := .cbEnable i.val true fr fi) (execCbEnable_of_ok i true fr fi s) here
  · exact named (c := .cbEnable i.val false fr fi) (execCbEnable_of_ok i false fr fi s) here
  · exact exec_failed_sameBanks run bad

end Sys2Proof.Machine
end

section
/-! PROOFS. The stream tables (spec/43_stream_tables.md R180-R183, spec/20_memory.md R70, R71). -/

namespace Sys2Proof.Machine

open Sys2Proof.Claim

/-! ## Entries of the two tables as registers -/

theorem smr_get (f : RegFile) (i : Fin 48) : f.get (.smr i) = (entryOf f.smr i).setWidth 64 := rfl

theorem smr_getLsbD (f : RegFile) (i : Fin 48) {p : Nat} (hp : p < 32) : (f.get (.smr i)).getLsbD p = (entryOf f.smr i).getLsbD p := by
  have inWord : p < 64 := by omega
  rw [smr_get, BitVec.getLsbD_setWidth, decide_eq_true inWord, Bool.true_and]

theorem s2cr_toNat (f : RegFile) (i : Fin 48) : (f.get (.s2cr i)).toNat = (entryOf f.s2cr i).toNat := by
  show ((entryOf f.s2cr i).setWidth 64).toNat = _
  rw [BitVec.toNat_setWidth_of_le (by decide)]

/-! ## `SM.CFG` -/

/-- The fields `SM.CFG` composes (R180). -/
def smrFields (valid : Bool) (mask : BitVec 16) (tbu : BitVec 5) (master : BitVec 10) : List (Nat × Nat × Nat) :=
  [(31, 31, bitValue valid), (30, 16, mask.toNat), (14, 10, tbu.toNat), (9, 0, master.toNat)]

theorem smrImage_eq (valid : Bool) (mask : BitVec 16) (tbu : BitVec 5) (master : BitVec 10) :
    smrImage valid mask tbu master = insertAll 32 0#64 (smrFields valid mask tbu master) := rfl

theorem smrFields_fit (valid : Bool) (mask : BitVec 16) (tbu : BitVec 5) (master : BitVec 10) :
    fieldsFit 32 (rangesOf (smrFields valid mask tbu master)) = true := rfl

section
variable (valid : Bool) (mask : BitVec 16) (tbu : BitVec 5) (master : BitVec 10)

/-- R31: the composed entry, bit by bit. -/
theorem smrImage_getLsbD {p : Nat} (hp : p < 32) : (smrImage valid mask tbu master).getLsbD p =
    if p = 31 then valid else if 16 ≤ p then mask.getLsbD (p - 16) else if p = 15 then false else (tbu ++ master).getLsbD p := by
  have fit := smrFields_fit valid mask tbu master
  have inWord : p < 64 := by omega
  have field {hi lo val : Nat} (mem : (hi, lo, val) ∈ smrFields valid mask tbu master) (low : lo ≤ p) (high : p ≤ hi) :
      (insertAll 32 0#64 (smrFields valid mask tbu master)).getLsbD p = val.testBit (p - lo) :=
    insertAll_getLsbD_inside fit mem inWord low high
  rw [smrImage_eq]
  split
  · next top => rw [field (hi := 31) (lo := 31) (val := bitValue valid) (by simp [smrFields]) (ge_of_eq top) top.le, top, Nat.sub_self, bitValue_testBit]
  · split
    · rw [field (hi := 30) (lo := 16) (val := mask.toNat) (by simp [smrFields]) (by omega) (by omega), BitVec.testBit_toNat]
    · split
      · next gap =>
        rw [insertAll_getLsbD_outside fit rfl inWord (by subst gap; rfl), BitVec.getLsbD_zero]
      · rw [BitVec.getLsbD_append]
        by_cases id : p < 10
        · rw [field (hi := 9) (lo := 0) (val := master.toNat) (by simp [smrFields]) (by omega) (by omega), BitVec.testBit_toNat, if_pos id, Nat.sub_zero]
        · rw [field (hi := 14) (lo := 10) (val := tbu.toNat) (by simp [smrFields]) (by omega) (by omega), BitVec.testBit_toNat, if_neg id]

theorem low_smrImage : low 32 (smrImage valid mask tbu master) = smrImage valid mask tbu master := by
  rw [smrImage_eq]
  exact low_insertAll (smrFields_fit valid mask tbu master) le_rfl rfl

/-- The composed entry as a number. -/
theorem smrImage_toNat : (smrImage valid mask tbu master).toNat =
    (if valid = true then 2 ^ 31 else 0) + (mask.toNat % 2 ^ 15) * 2 ^ 16 + tbu.toNat * 2 ^ 10 + master.toNat := by
  have fit := smrFields_fit valid mask tbu master
  have field {hi lo val : Nat} (mem : (hi, lo, val) ∈ smrFields valid mask tbu master) :
      (smrImage valid mask tbu master).toNat / 2 ^ lo % 2 ^ (hi - lo + 1) = val % 2 ^ (hi - lo + 1) := by
    rw [← Nat.shiftRight_eq_div_pow]
    exact fieldOf_insertAll (by decide) fit mem
  have top : _ / 2 ^ 31 % 2 ^ 1 = bitValue valid % 2 ^ 1 := field (hi := 31) (lo := 31) (by simp [smrFields])
  have middle : _ / 2 ^ 16 % 2 ^ 15 = mask.toNat % 2 ^ 15 := field (hi := 30) (lo := 16) (by simp [smrFields])
  have upper : _ / 2 ^ 10 % 2 ^ 5 = tbu.toNat % 2 ^ 5 := field (hi := 14) (lo := 10) (by simp [smrFields])
  have lower : _ / 2 ^ 0 % 2 ^ 10 = master.toNat % 2 ^ 10 := field (hi := 9) (lo := 0) (by simp [smrFields])
  have gap : (smrImage valid mask tbu master).toNat / 2 ^ 15 % 2 = 0 := by
    have clear := smrImage_getLsbD valid mask tbu master (p := 15) (by decide)
    rw [if_neg (by decide), if_neg (by decide), if_pos rfl, ← BitVec.testBit_toNat, Nat.testBit_eq_decide_div_mod_eq] at clear
    have := of_decide_eq_false clear
    omega
  have inWidth : (smrImage valid mask tbu master).toNat < 2 ^ 32 := by
    rw [← low_smrImage]
    exact low_toNat_lt _ _
  have tbuWidth := tbu.isLt
  have masterWidth := master.isLt
  have value : bitValue valid % 2 ^ 1 * 2 ^ 31 = if valid = true then 2 ^ 31 else 0 := by cases valid <;> rfl
  omega

end

/-- R70: an entry matches when it is valid and agrees wherever its mask is zero. -/
theorem smrMatches_iff {v : BitVec 32} {sid : BitVec 15} : smrMatches v sid = true ↔
    v.getLsbD 31 = true ∧ ∀ p, p < 15 → v.getLsbD (16 + p) = false → sid.getLsbD p = v.getLsbD p := by
  have bit (p : Nat) (hp : p < 15) : ((sid ^^^ smrId v) &&& ~~~smrMask v).getLsbD p = false ↔
      (v.getLsbD (16 + p) = false → sid.getLsbD p = v.getLsbD p) := by
    simp only [BitVec.getLsbD_and, BitVec.getLsbD_xor, BitVec.getLsbD_not, smrId, smrMask, BitVec.getLsbD_extractLsb', hp,
      decide_true, Bool.true_and, Nat.zero_add]
    cases v.getLsbD (16 + p) <;> cases v.getLsbD p <;> cases sid.getLsbD p <;> decide
  have zero : ((sid ^^^ smrId v) &&& ~~~smrMask v) = 0#15 ↔
      ∀ p, p < 15 → ((sid ^^^ smrId v) &&& ~~~smrMask v).getLsbD p = false := by
    rw [BitVec.eq_of_getLsbD_eq_iff]
    simp only [BitVec.getLsbD_zero]
  rw [smrMatches, Bool.and_eq_true, beq_iff_eq, zero, smrValid]
  exact and_congr_right fun _ => forall₂_congr bit

/-- Settles O42. -/
theorem streamMatchEntryWritten : Obligations.StreamMatchEntryWritten := by
  unfold Obligations.StreamMatchEntryWritten
  intro i valid mask tbu master s
  have content : (s.regWrite (.smr i) (smrImage valid mask tbu master)).regs.get (.smr i) = smrImage valid mask tbu master := by
    rw [regWrite_get_storage _ _ _ rfl]
    exact low_smrImage valid mask tbu master
  refine ⟨_, execSmCfg_of_ok i valid mask tbu master s, rfl, ?_, ?_, fun q other => ?_, fun b => ⟨rfl, rfl⟩, fun a => rfl,
    ⟨rfl, rfl, rfl, rfl, rfl, rfl⟩, rfl, rfl, fun sid => ?_⟩
  · rw [answered_regs, content, smrImage_toNat]
  · rw [answered_trace, answered_regs, content, regWrite_trace, show regBits s.params (.smr i) = 32 from rfl, low_smrImage]
    rfl
  · rw [answered_regs, regWrite_get_other _ _ _ _ (by simpa using other)]
  · have bit {p : Nat} (hp : p < 32) :
        (entryOf ((s.regWrite (.smr i) (smrImage valid mask tbu master)).answered 0#64 0#64 0#64).regs.smr i).getLsbD p =
          (smrImage valid mask tbu master).getLsbD p := by
      rw [← smr_getLsbD _ _ hp, answered_regs, content]
    rw [smrMatches_iff, bit (by decide), smrImage_getLsbD valid mask tbu master (by decide), if_pos rfl]
    refine and_congr_right fun _ => forall₂_congr fun p hp => ?_
    rw [bit (by omega), bit (by omega), smrImage_getLsbD valid mask tbu master (by omega),
      smrImage_getLsbD valid mask tbu master (by omega), if_neg (by omega), if_pos (by omega), Nat.add_sub_cancel_left,
      if_neg (by omega), if_neg (by omega), if_neg (by omega)]

/-! ## `SM.RESETALL` -/

theorem smr_mem (i : Fin 48) : RegRef.smr i ∈ (indices 48).map RegRef.smr := List.mem_map_of_mem (List.mem_finRange i)

theorem exec_smResetall (s : State) :
    exec .smResetall s = .next ((s.writeAll ((indices 48).map RegRef.smr) 0#64).answered 0#64 0#64 0#64) := by
  rw [← complete_answered, exec, execSmResetall]

/-- Settles O43: each entry is written zero, and a zero entry matches nothing. -/
theorem streamMatchTableReset : Obligations.StreamMatchTableReset := by
  unfold Obligations.StreamMatchTableReset
  intro s
  have zero (i : Fin 48) : (s.writeAll ((indices 48).map RegRef.smr) 0#64).regs.get (.smr i) = 0#64 := by
    rw [writeAll_get_storage _ _ _ _ (smr_mem i) rfl]
    rfl
  refine ⟨_, exec_smResetall s, rfl, fun i => ?_, ?_, fun q other => ?_,
    sameBanks_answered (writeAll_sameBanks _ _ _) _ _ _, fun a => ?_, sameHost_answered (writeAll_sameHost _ _ _) _ _ _, ?_, ?_, fun sid => ?_⟩
  · rw [answered_regs, zero]
  · rw [answered_trace, writeAll_trace, List.map_map]
    rfl
  · rw [answered_regs]
    refine writeAll_get_other _ _ _ _ fun mem => ?_
    obtain ⟨i, -, same⟩ := List.mem_map.mp mem
    exact other i same.symm
  · rw [answered_tableMem, writeAll_tableMem]
  · rw [answered_envTick, writeAll_envTick]
  · rw [answered_tlb]
    refine writeAll_tlb _ _ _ fun r mem => ?_
    obtain ⟨i, -, rfl⟩ := List.mem_map.mp mem
    rfl
  · refine List.filter_eq_nil_iff.mpr fun i _ matching => ?_
    have valid := (smrMatches_iff.mp matching).1
    rw [← smr_getLsbD _ _ (by decide), answered_regs, zero i] at valid
    simp at valid

/-! ## `S2C.CFG` -/

theorem s2cIndexValue_lt (kind : StreamKind) (cbndx : BitVec 8) : s2cIndexValue kind cbndx < 2 ^ 8 := by
  rw [s2cIndexValue]
  split
  · exact cbndx.isLt
  · decide

section
variable {f : FieldMap} {v : BitVec 32}

theorem routeOf_of_translate (type : s2crType f v = f.s2crCodeTranslate) (inTable : (s2crCbndx f v).toNat < 16) :
    routeOf f v = .throughBank ⟨(s2crCbndx f v).toNat, inTable⟩ := by
  rw [routeOf, if_pos type, dif_pos inTable]

theorem routeOf_of_bypass (type : s2crType f v = f.s2crCodeBypass) (translate : f.s2crCodeTranslate ≠ f.s2crCodeBypass) :
    routeOf f v = .untranslated := by
  rw [routeOf, type, if_neg translate.symm, if_pos rfl]

theorem routeOf_of_fault (type : s2crType f v = f.s2crCodeFault) (translate : f.s2crCodeTranslate ≠ f.s2crCodeFault)
    (bypass : f.s2crCodeBypass ≠ f.s2crCodeFault) : routeOf f v = .faulted := by
  rw [routeOf, type, if_neg translate.symm, if_neg bypass.symm, if_pos rfl]

end

section
variable {p : Params} (good : GoodFields p) (kind : StreamKind) (cbndx : BitVec 8) (old : Word)
include good

theorem s2crFields_fit : fieldsFit 32 (rangesOf (s2crFields p.field kind cbndx)) = true := good.s2cr

/-- R182: the index field of the image that `S2C.CFG` writes. -/
theorem fieldOf_s2crImage_index : fieldOf (s2crImage p.field kind cbndx old).toNat (p.field.s2crCbndxLo + 7) p.field.s2crCbndxLo
    = s2cIndexValue kind cbndx := by
  rw [s2crImage_eq, fieldOf_insertAll (by decide) (s2crFields_fit good kind cbndx) (val := s2cIndexValue kind cbndx)
    (by simp [s2crFields]), Nat.add_sub_cancel_left]
  exact Nat.mod_eq_of_lt (s2cIndexValue_lt kind cbndx)

/-- R182: the type field of that image. -/
theorem fieldOf_s2crImage_type : fieldOf (s2crImage p.field kind cbndx old).toNat (p.field.s2crTypeLo + 1) p.field.s2crTypeLo
    = (s2crCode p.field kind).toNat := by
  rw [s2crImage_eq, fieldOf_insertAll (by decide) (s2crFields_fit good kind cbndx) (val := (s2crCode p.field kind).toNat)
    (by simp [s2crFields]), Nat.add_sub_cancel_left]
  exact Nat.mod_eq_of_lt (s2crCode p.field kind).isLt

end

theorem s2crType_toNat (f : FieldMap) (v : BitVec 32) : (s2crType f v).toNat = fieldOf v.toNat (f.s2crTypeLo + 1) f.s2crTypeLo := by
  rw [fieldOf, Nat.add_sub_cancel_left]
  exact BitVec.extractLsb'_toNat ..

theorem s2crCbndx_toNat (f : FieldMap) (v : BitVec 32) :
    (s2crCbndx f v).toNat = fieldOf v.toNat (f.s2crCbndxLo + 7) f.s2crCbndxLo := by
  rw [fieldOf, Nat.add_sub_cancel_left]
  exact BitVec.extractLsb'_toNat ..

/-- Settles O44: the type field holds the kind's code, and the codes are distinct. -/
theorem streamToContextWritten : Obligations.StreamToContextWritten := by
  unfold Obligations.StreamToContextWritten
  intro i kind cbndx s admissible known inRange
  have good := goodFields_of_admissible admissible
  have fit := s2crFields_fit good kind cbndx
  have cut : low 32 (s.regs.get (.s2cr i)) = s.regs.get (.s2cr i) := low_get_of_heldBits (r := .s2cr i) rfl
  have content : (s.rmw (.s2cr i) (s2crImage s.params.field kind cbndx)).regs.get (.s2cr i) =
      s2crImage s.params.field kind cbndx (s.regs.get (.s2cr i)) := by
    rw [rmw_get_of_fits (r := .s2cr i) _ rfl cut, s2crImage_eq]
    exact low_insertAll fit le_rfl cut
  have type : s2crType s.params.field (entryOf (s.rmw (.s2cr i) (s2crImage s.params.field kind cbndx)).regs.s2cr i) =
      s2crCode s.params.field kind := by
    apply BitVec.eq_of_toNat_eq
    rw [s2crType_toNat, ← s2cr_toNat, content, fieldOf_s2crImage_type good]
  have bank : (s2crCbndx s.params.field (entryOf (s.rmw (.s2cr i) (s2crImage s.params.field kind cbndx)).regs.s2cr i)).toNat =
      s2cIndexValue kind cbndx := by
    rw [s2crCbndx_toNat, ← s2cr_toNat, content, fieldOf_s2crImage_index good]
  refine ⟨_, execS2cCfg_of_ok i s known inRange, updatesOnly_rmw (r := .s2cr i) _ rfl cut, ?_, fun p hp out => ?_, ?_, ?_, ?_,
    fun b => ⟨rfl, rfl⟩, ?_⟩
  · rw [regField, answered_regs, content, fieldOf_s2crImage_index good, s2cIndexValue]
  · rw [answered_regs, content, s2crImage_eq, insertAll_getLsbD_outside fit cut hp out]
  · rintro rfl
    exact ⟨⟨_, bank.trans_lt (inRange rfl)⟩, bank, routeOf_of_translate type _⟩
  · rintro rfl
    exact routeOf_of_bypass type good.translateBypass
  · rintro rfl
    exact routeOf_of_fault type good.translateFault good.bypassFault
  · rw [answered_tlb, rmw_tlb]
    rfl

end Sys2Proof.Machine
end

section
/-! PROOFS. Canonical bring-up and what holds along a history (spec/42_context_bank_sequencer.md R160,
spec/70_reset_and_hazards.md R241). -/

namespace Sys2Proof.Machine

open Sys2Proof.Claim

/-! ## Canonical bring-up (R160) -/

theorem sinceDisable_append (xs : List SeqStep) (x : SeqStep) :
    sinceDisable (xs ++ [x]) = if x = .disable then [] else sinceDisable xs ++ [x] := by
  rw [sinceDisable, List.foldl_append]
  rfl

theorem canonicalPath_append (xs : List SeqStep) (x : SeqStep) : canonicalPath (xs ++ [x]) =
    if x = .disable then some .disabled else (canonicalPath xs).bind fun c => canonicalCell c x := by
  rw [canonicalPath, List.foldl_append]
  rfl

/-- The canonical steps that lead to a state. -/
def canonicalStepsTo : CbState → List SeqStep
  | .disabled => []
  | .addressModeSet => [.amode]
  | .attributesSet => [.amode, .mattr]
  | .translationControlSet => [.amode, .mattr, .tctrl]
  | .tableBaseSet => [.amode, .mattr, .tctrl, .tbase]
  | .enabled => canonicalOrder

/-- R151: a cell marked c adds its step to those that led to its row. -/
theorem canonicalCell_iff {c d : CbState} {x : SeqStep} :
    canonicalCell c x = some d ↔ canonicalStepsTo d = canonicalStepsTo c ++ [x] := by
  cases c <;> cases x <;> cases d <;> decide

/-- All but the last of the steps to a state lead to a state. -/
theorem exists_canonicalStepsTo_dropLast (d : CbState) : ∃ c, (canonicalStepsTo d).dropLast = canonicalStepsTo c := by
  cases d
  exacts [⟨.disabled, rfl⟩, ⟨.disabled, rfl⟩, ⟨.addressModeSet, rfl⟩, ⟨.attributesSet, rfl⟩, ⟨.translationControlSet, rfl⟩,
    ⟨.tableBaseSet, rfl⟩]

theorem canonicalStepsTo_eq_nil {d : CbState} : canonicalStepsTo d = [] ↔ d = .disabled := by
  cases d <;> decide

/-- The path stands in a state exactly when the steps since the last disable are those that lead there. -/
theorem canonicalPath_iff (steps : List SeqStep) (d : CbState) :
    canonicalPath steps = some d ↔ sinceDisable steps = canonicalStepsTo d := by
  induction steps using List.reverseRecOn generalizing d with
  | nil => exact Option.some_inj.trans (eq_comm.trans (canonicalStepsTo_eq_nil.symm.trans eq_comm))
  | append_singleton xs x ih =>
    rw [canonicalPath_append, sinceDisable_append]
    split
    · exact Option.some_inj.trans (eq_comm.trans (canonicalStepsTo_eq_nil.symm.trans eq_comm))
    · simp only [Option.bind_eq_some_iff, ih, canonicalCell_iff]
      constructor
      · rintro ⟨c, since, steps⟩
        rw [since, steps]
      · intro since
        obtain ⟨c, steps⟩ := exists_canonicalStepsTo_dropLast d
        rw [← since, List.dropLast_concat] at steps
        exact ⟨c, steps, by rw [← since, steps]⟩

/-- Settles O39. -/
theorem canonicalHistoryIsCanonicalPath : Obligations.CanonicalHistoryIsCanonicalPath := by
  unfold Obligations.CanonicalHistoryIsCanonicalPath
  exact fun steps => (canonicalPath_iff steps .enabled).symm

/-- A canonical bring-up ends in the enable. -/
theorem getLast?_of_canonical {steps : List SeqStep} (canonical : sinceDisable steps = canonicalOrder) :
    steps.getLast? = some .enable := by
  induction steps using List.reverseRecOn with
  | nil => cases canonical
  | append_singleton xs x =>
    rw [sinceDisable_append] at canonical
    rw [List.getLast?_concat]
    split at canonical
    · cases canonical
    · have last := congrArg List.getLast? canonical
      rwa [List.getLast?_concat] at last

/-! ## The steps of a history -/

theorem code_eq_zero {st : Status} : st.code = 0#4 ↔ st = .ok := by cases st <;> decide

theorem done_append (h : History) (e : Event) : History.done (h ++ [e]) = h.done ++ if e.status = .ok then [e.instr] else [] := by
  rw [History.done, List.filter_append, List.map_append, History.done]
  by_cases ok : e.status = .ok <;> simp [ok]

theorem stepsOn_append (h : History) (e : Event) (b : Nat) : History.stepsOn (h ++ [e]) b =
    h.stepsOn b ++ if e.status = .ok then (seqStepOn b e.instr).toList else [] := by
  rw [History.stepsOn, done_append, List.filterMap_append, History.stepsOn]
  by_cases ok : e.status = .ok
  · cases step : seqStepOn b e.instr <;> simp [ok, step]
  · simp [ok]

section
variable {s t : State} {c : HostCommand}

/-- The step of a command that decodes, from the command to the state the step leaves. -/
theorem step_of_decoded {i : Instr} (run : step s = .next t) (issued : s.nextCommand = some c)
    (decoded : decode (s.load c).frame = .ok i) : ∃ u, exec i (s.load c) = .next u ∧ t = (u.advance c).smmuActs := by
  obtain ⟨u, ran, answer⟩ := exists_step_of_some issued
  rw [runLoaded_of_ok _ i decoded] at ran
  exact ⟨u, ran, by simpa [run] using answer⟩

/-- A step without a command only waits, or answers `IllegalCommand`: beside the host's side and the fault registers, which
the SMMU sets, the state stays. -/
theorem step_of_no_command (run : step s = .next t)
    (none : ∀ c i, s.nextCommand = some c → decode (s.load c).frame ≠ .ok i) :
    (∀ b, t.bankState b = s.bankState b) ∧ t.params = s.params
      ∧ ∀ q : RegRef, q.regClass = .storage → t.regs.get q = s.regs.get q := by
  have acts (u : State) (q : RegRef) (storage : q.regClass = .storage) : u.smmuActs.regs.get q = u.regs.get q := by
    rw [smmuActs_get, if_neg (by rw [storage]; decide)]
  obtain ⟨-, rfl⟩ | ⟨c, u, issued, ran, rfl⟩ := step_cases run
  · exact ⟨fun b => smmuActs_bankState s b, rfl, acts s⟩
  · obtain ⟨i, decoded, -⟩ | rfl := runLoaded_cases ran
    · exact absurd decoded (none c i issued)
    · exact ⟨fun b => smmuActs_bankState _ b, rfl, acts _⟩

theorem bankState_after_step {u : State} (b : Fin 16) : (u.advance c).smmuActs.bankState b = u.bankState b :=
  smmuActs_bankState _ b

end

/-! ## The sequencer's state along a history (R151, R160) -/

/-- The state that the last of some steps names, else `Disabled`. -/
def lastNamed (steps : List SeqStep) : CbState := (steps.getLast?.map stateNamedBy).getD .disabled

theorem lastNamed_append_toList (steps : List SeqStep) (x : Option SeqStep) :
    lastNamed (steps ++ x.toList) = (x.map stateNamedBy).getD (lastNamed steps) := by
  cases x with
  | none => rw [Option.toList_none, List.append_nil]; rfl
  | some x => rw [lastNamed, Option.toList_some, List.getLast?_concat]; rfl

/-- R20: along a history a bank is in the state its latest successful step names. -/
theorem bankState_of_history {h : History} {s : State} (past : HistoryOf h s) (i : Fin 16) :
    s.bankState i = lastNamed (h.stepsOn i.val) := by
  induction past with
  | reset s fresh => exact (fresh.banks i).1
  | noCommand h s t past run none ih => rw [(step_of_no_command run none).1 i, ih]
  | command h s t c e past run issued decoded answered ih =>
    obtain ⟨u, ran, rfl⟩ := step_of_decoded run issued decoded
    have loaded : (s.load c).bankState i = s.bankState i := rfl
    rw [bankState_after_step, stepsOn_append]
    have status : u.rsp.status = e.status.code := answered
    split
    · next ok =>
      have success : u.rsp.status = 0#4 := by rw [status, ok]; rfl
      rw [exec_bankState ran success, lastNamed_append_toList, loaded, ih]
    · next bad =>
      have failure : u.rsp.status ≠ 0#4 := fun zero => bad (code_eq_zero.mp (status ▸ zero))
      rw [(exec_failed_sameBanks ran failure i).1, List.append_nil, loaded, ih]

/-- Settles O40: a canonical bring-up ends in the enable. -/
theorem sequencerFollowsHistory : Obligations.SequencerFollowsHistory := by
  unfold Obligations.SequencerFollowsHistory
  intro h s i past
  have follows := bankState_of_history past i
  refine ⟨?_, fun canonical => ?_⟩
  · rw [follows, lastNamed]
    cases (h.stepsOn i.val).getLast? <;> rfl
  · rw [follows, lastNamed, getLast?_of_canonical (beq_iff_eq.mp canonical)]
    rfl

/-! ## The enable bit along a history (R241) -/

theorem ctrlEnabled_eq (s : State) (i : Fin 16) :
    ctrlEnabled s i = (s.regs.get (.cbCtrl i)).getLsbD s.params.field.ctrlMBit := by
  show _ = ((entryOf s.regs.banks i).ctrl.setWidth 64).getLsbD s.params.field.ctrlMBit
  rw [BitVec.getLsbD_setWidth, ctrlEnabled]
  by_cases inWord : s.params.field.ctrlMBit < 64
  · rw [decide_eq_true inWord, Bool.true_and]
  · rw [BitVec.getLsbD_of_ge _ _ (by omega), Bool.and_false]

theorem ctrlEnabled_congr {s t : State} {i : Fin 16} (params : t.params = s.params)
    (ctrl : t.regs.get (.cbCtrl i) = s.regs.get (.cbCtrl i)) : ctrlEnabled t i = ctrlEnabled s i := by
  rw [ctrlEnabled_eq, ctrlEnabled_eq, params, ctrl]

theorem ctrlEnabled_after_step (u : State) (c : HostCommand) (i : Fin 16) : ctrlEnabled (u.advance c).smmuActs i = ctrlEnabled u i := by
  refine ctrlEnabled_congr rfl ?_
  rw [smmuActs_get, if_neg (by simp [RegRef.regClass]), advance_regs]

/-- A mapped update none of whose bytes belongs to a register leaves it alone. -/
theorem mappedState_get_untouched {s : State} {sz : SizeCode} {n hi lo : Nat} {offset value : Word} {q : RegRef}
    (w : HasWidth sz n) (map : mapAdmissible s.params)
    (untouched : ∀ k, k < n / 8 → registerOfByte s.params (mappedAddr s offset + k) ≠ some q) :
    (mappedState n hi lo offset value s).regs.get q = s.regs.get q := by
  have bytes := hasWidth_bytes w
  have positive : 0 < n := by obtain ⟨-, rfl⟩ | ⟨-, rfl⟩ | ⟨-, rfl⟩ := w <;> decide
  have size := regBytes_pos s.params q
  cases found : registerAt s.params (mappedAddr s offset) (n / 8) with
  | some r =>
    rw [mappedState_register found]
    refine rmw_get_other _ _ _ _ fun same => ?_
    subst same
    obtain ⟨addr, bytes⟩ := registerAt_some found
    exact untouched 0 (by omega) (registerOfByte_eq map (by omega))
  | none =>
    refine mappedState_get_other_of_none found ?_
    by_contra overlap
    let a := max (mappedAddr s offset) (regAddr s.params q)
    exact untouched (a - mappedAddr s offset) (by omega) (registerOfByte_eq map (by omega))

/-- What it takes for a mapped command to touch no byte of a register. -/
theorem not_touched_of_range {p : Params} {a n : Nat} {q : RegRef}
    (clear : ((List.range n).any fun k => (registerOfByte p (a + k)).any fun r => r == q) = false) :
    ∀ k, k < n → registerOfByte p (a + k) ≠ some q := by
  intro k hk mine
  have here := List.any_eq_false.mp clear k (List.mem_range.mpr hk)
  simp [mine] at here

/-- R157: no command writes `CB_CTRL` of a bank but `CB.ENABLE` on the bank, and a mapped command that touches it. -/
theorem Effect.keeps_ctrl {s : State} {c : Instr} {u : State} (e : Effect s c u) {i : Fin 16} (map : mapAdmissible s.params)
    (other : ∀ en fr fi, c ≠ .cbEnable i.val en fr fi)
    (untouched : mappedTouches s.params (fun r => r == .cbCtrl i) c = false) : u.regs.get (.cbCtrl i) = s.regs.get (.cbCtrl i) := by
  have rmw {r : RegRef} (f : Word → Word) (ne : RegRef.cbCtrl i ≠ r) : (s.rmw r f).regs.get (.cbCtrl i) = s.regs.get (.cbCtrl i) :=
    rmw_get_other s r _ f ne
  cases e with
  | sbrI | sbI | ttBuild => rfl
  | ttWrite => rfl
  | ttZero => simp [zeroedState]
  | sbrM offset value w | sbM offset value w =>
    refine mappedState_get_untouched w map (not_touched_of_range ?_)
    simpa [mappedTouches, mappedTarget, widthOf_eq_some.mpr w, mappedAddr] using untouched
  | cbAmode j aw => rw [amodeState, setBankState_regs, setBankAw_regs, rmw _ (by simp)]
  | cbMattr j attrs => rw [mattrState_regs, regWrite_get_other _ _ _ _ (by simp), regWrite_get_other _ _ _ _ (by simp)]
  | cbTctrl j => rw [tctrlState, setBankState_regs, rmw _ (by simp)]
  | cbTbase j => rw [tbaseState, setBankState_regs, rmw _ (by simp)]
  | cbEnable j en fr fi =>
    have ne : i ≠ j := fun same => other en fr fi (by rw [same])
    rw [enableState, setBankState_regs, rmw _ (by simpa using ne)]
  | smCfg j => rw [regWrite_get_other _ _ _ _ (by simp)]
  | smResetall => rw [writeAll_get_other _ _ _ _ (by simp)]
  | s2cCfg j => exact rmw _ (by simp)
  | frSnapg => rw [afterRead_get_other _ _ _ (by simp), afterRead_get_other _ _ _ (by simp)]
  | frSnapc b =>
    rw [snapcState, afterRead_get_other _ _ _ (by simp), afterRead_get_other _ _ _ (by simp), afterRead_get_other _ _ _ (by simp)]
  | frClearall => exact writeAll_get_other _ _ _ _ fun mem => absurd (mem_clearOrder_iff.mp mem) (by simp [RegRef.regClass])
  | frTlbiall => rw [writeAll_get_other _ _ _ _ (by simp)]

/-- R158: but for `CB.ENABLE` a command takes no bank into `Enabled` or out of it. -/
theorem Effect.enabled_iff {s : State} {c : Instr} {u : State} (e : Effect s c u) {i : Fin 16}
    (other : ∀ en fr fi, c ≠ .cbEnable i.val en fr fi) : u.bankState i = .enabled ↔ s.bankState i = .enabled := by
  have config {j : Fin 16} {x : SeqStep} (free : s.bankState j ≠ .enabled) (named : stateNamedBy x ≠ .enabled) :
      ((if j.val = i.val then some x else none).map stateNamedBy).getD (s.bankState i) = .enabled ↔ s.bankState i = .enabled := by
    by_cases here : j = i
    · subst here
      simp [free, named]
    · simp [Fin.val_inj, here]
  rw [e.bankState i]
  cases e with
  | cbAmode j aw free | cbMattr j attrs free | cbTctrl j _ _ _ _ _ free | cbTbase j asid base free => exact config free (by decide)
  | cbEnable j en fr fi =>
    have ne : j ≠ i := fun same => other en fr fi (by rw [same])
    simp [seqStepOn, Fin.val_inj, ne]
  | _ => rfl

/-- R157: `CB.ENABLE` sets the enable bit as it moves the bank. -/
theorem enableState_agrees {s : State} (good : GoodFields s.params) (i : Fin 16) (en fr fi : Bool) :
    ctrlEnabled (enableState i en fr fi s) i = true ↔ (enableState i en fr fi s).bankState i = .enabled := by
  obtain ⟨-, inWidth⟩ := fieldsFit_mem good.ctrl List.mem_cons_self
  have inWord : s.params.field.ctrlMBit < 64 := inWidth.trans (by decide)
  rw [ctrlEnabled_eq, show (enableState i en fr fi s).params = s.params from rfl, enableState_ctrl en fr fi good inWord, if_pos rfl,
    enableState, setBankState_bankState_same]
  cases en <;> decide

/-- An effect keeps the agreement of a bank's state with its enable bit. -/
theorem Effect.keeps_agreement {s : State} {c : Instr} {u : State} (e : Effect s c u) {i : Fin 16} (good : GoodFields s.params)
    (map : mapAdmissible s.params) (params : u.params = s.params)
    (untouched : mappedTouches s.params (fun r => r == .cbCtrl i) c = false)
    (agrees : ctrlEnabled s i = true ↔ s.bankState i = .enabled) : ctrlEnabled u i = true ↔ u.bankState i = .enabled := by
  by_cases other : ∀ en fr fi, c ≠ .cbEnable i.val en fr fi
  · rw [ctrlEnabled_congr params (e.keeps_ctrl map other untouched), e.enabled_iff other, agrees]
  · push Not at other
    obtain ⟨en, fr, fi, same⟩ := other
    cases e with
    | cbEnable j en' fr' fi' =>
      injection same with index
      obtain rfl : j = i := Fin.ext index
      exact enableState_agrees good j en' fr' fi'
    | _ => cases same

/-- So does a command, whether it succeeds or fails. -/
theorem exec_keeps_agreement {s t : State} {c : Instr} (run : exec c s = .next t) {i : Fin 16} (good : GoodFields s.params)
    (map : mapAdmissible s.params)
    (untouched : t.rsp.status = 0#4 → mappedTouches s.params (fun r => r == .cbCtrl i) c = false)
    (agrees : ctrlEnabled s i = true ↔ s.bankState i = .enabled) : ctrlEnabled t i = true ↔ t.bankState i = .enabled := by
  by_cases ok : t.rsp.status = 0#4
  · have params := (exec_sameHost run).params
    obtain ⟨d0, d1, d2, u, effect, rfl⟩ := exec_effect run ok
    exact effect.keeps_agreement good map params (untouched ok) agrees
  · rw [exec_failed run ok]
    exact agrees

/-- Settles O41: from the reset, where no bank is enabled, each step keeps the agreement. -/
theorem sequencerAgreesWithEnableBit : Obligations.SequencerAgreesWithEnableBit := by
  unfold Obligations.SequencerAgreesWithEnableBit
  intro h s i past
  induction past with
  | reset s fresh =>
    intro _ _ _
    rw [fresh.noneKept i, (fresh.banks i).1]
    decide
  | noCommand h s t past run none ih =>
    intro admissible map untouched
    obtain ⟨banks, params, regs⟩ := step_of_no_command run none
    rw [ctrlEnabled_congr params (regs _ rfl), banks i]
    rw [params] at admissible map untouched
    exact ih admissible map untouched
  | command h s t c e past run issued decoded answered ih =>
    intro admissible map untouched
    rw [(step_program_params run).2] at admissible map untouched
    obtain ⟨u, ran, rfl⟩ := step_of_decoded run issued decoded
    have status : u.rsp.status = e.status.code := answered
    have before := ih admissible map fun c mem => untouched c (by rw [done_append]; exact List.mem_append_left _ mem)
    have after := exec_keeps_agreement ran (goodFields_of_admissible (p := s.params) admissible) map
      (fun ok => untouched e.instr (by simp [done_append, code_eq_zero.mp (status ▸ ok)])) before
    rw [bankState_after_step, ctrlEnabled_after_step, after]

end Sys2Proof.Machine
end
